-- ==== Sys2Proof/Word.lean ====
section
/-!
DEFINITION. The words of the engine: the widths of 00_scope.md R6 and 10_state.md R22 to R35.
-/
namespace Sys2Proof

/-- A byte of a stream (20_memory.md R71). -/
abbrev Byte := BitVec 8

/-- A command word, `CMDW = 16` bits (00_scope.md R6). -/
abbrev CmdWord := BitVec 16

/-- A symbol: a byte value, 0 to 255 (00_scope.md R16). -/
abbrev Symbol := BitVec 8

/-- A frequency count or a byte count, `CNTW = 64` bits (00_scope.md R6). -/
abbrev Count := BitVec 64

/-- A node weight, `WW = 72` bits (00_scope.md R6). -/
abbrev Weight := BitVec 72

/-- A node index, `IDXW = 9` bits; 511 names no node (10_state.md R33). -/
abbrev NodeIndex := BitVec 9

/-- One bit of a stream or a codeword: `false` is 0, the left child; `true` is 1, the right child
(00_scope.md R12). -/
abbrev Bit := Bool

/-- A codeword `c[0] .. c[len-1]`; the head is `c[0]`, the edge taken at the root (00_scope.md R12). -/
abbrev Codeword := List Bit

end Sys2Proof
end

