-- ==== Sys2Proof/Syntax.lean ====
section
/-!
DEFINITION. The commands: one constructor per row of spec/opcode_table.json (30_encoding.md R92), and the
three operand formats (R91).
-/
namespace Sys2Proof

/-- The formats of a command word (30_encoding.md R91). -/
inductive Format where
  /-- no operand -/
  | c0
  /-- bit operand, `arg[0]` -/
  | c1
  /-- byte operand, `arg` -/
  | c8
  deriving DecidableEq, Repr

/-- The 21 commands (30_encoding.md R92), with the operands of R93. -/
inductive Instr where
  | nop
  | init
  | wbit (b : Bit)
  | wcode (s : Symbol)
  | wflush
  | rbit
  | fadd (s : Symbol)
  | fadds
  | fsave
  | fload
  | tbuild
  | tcodes
  | trecon
  | wkrst
  | wkadv (b : Bit)
  | csave
  | cload
  | esyms
  | dsym
  | encode
  | decode
  deriving DecidableEq, Repr

/-- The format of each command (30_encoding.md R91, R92). -/
def Instr.format : Instr → Format
  | .wbit _ | .wkadv _ => .c1
  | .wcode _ | .fadd _ => .c8
  | .nop | .init | .wflush | .rbit | .fadds | .fsave | .fload | .tbuild | .tcodes | .trecon | .wkrst
  | .csave | .cload | .esyms | .dsym | .encode | .decode => .c0

end Sys2Proof
end

