-- ==== Sys2Proof/WellFormed.lean ====
section
/-!
DEFINITION. What an operand field must look like (30_encoding.md R91). The operands of `Instr` are typed,
so an `Instr` cannot be ill-formed; what can be is the pair of a format and the 8 bits of `arg` in a word.
-/
namespace Sys2Proof

/-- `arg` is legal for the format: C0 needs `arg = 0`, C1 needs `arg[7:1] = 0`, C8 takes every value
(30_encoding.md R91). -/
def Format.admits (f : Format) (arg : BitVec 8) : Bool :=
  match f with
  | .c0 => arg == 0
  | .c1 => arg.extractLsb' 1 7 == 0
  | .c8 => true

/-- The 8 bits of `arg` that carry the command's operand (30_encoding.md R93). -/
def Instr.operand : Instr → BitVec 8
  | .wbit b | .wkadv b => (BitVec.ofBool b).setWidth 8
  | .wcode s | .fadd s => s
  | .nop | .init | .wflush | .rbit | .fadds | .fsave | .fload | .tbuild | .tcodes | .trecon | .wkrst
  | .csave | .cload | .esyms | .dsym | .encode | .decode => 0

/-- A command is well formed when its operand field is legal for its format. -/
def Instr.wellFormed (i : Instr) : Bool := i.format.admits i.operand

end Sys2Proof
end

