-- ==== Sys2Proof/Decode.lean ====
section
/-!
DEFINITION. The decoder of command words (30_encoding.md R99), total on 16-bit words, the encoder, and the
opcode map as a table of match and mask (R92).
-/
namespace Sys2Proof

/-- The `op` field, bits [15:8] (30_encoding.md R90). -/
def wordOp (w : CmdWord) : BitVec 8 := w.extractLsb' 8 8

/-- The `arg` field, bits [7:0] (30_encoding.md R90). -/
def wordArg (w : CmdWord) : BitVec 8 := w.extractLsb' 0 8

/-- A C0 command: legal only with `arg = 0`. -/
def decodeC0 (arg : BitVec 8) (i : Instr) : Option Instr :=
  if Format.c0.admits arg then some i else none

/-- A C1 command: legal only with `arg[7:1] = 0`; its bit is `arg[0]`. -/
def decodeC1 (arg : BitVec 8) (f : Bit → Instr) : Option Instr :=
  if Format.c1.admits arg then some (f (arg.getLsbD 0)) else none

/-- `Decode` of 30_encoding.md R99; `none` is `Illegal` (R94). -/
def decodeWord (w : CmdWord) : Option Instr :=
  let arg := wordArg w
  match (wordOp w).toNat with
  | 0x00 => decodeC0 arg .nop
  | 0x01 => decodeC0 arg .init
  | 0x10 => decodeC1 arg .wbit
  | 0x11 => some (.wcode arg)
  | 0x12 => decodeC0 arg .wflush
  | 0x20 => decodeC0 arg .rbit
  | 0x30 => some (.fadd arg)
  | 0x31 => decodeC0 arg .fadds
  | 0x32 => decodeC0 arg .fsave
  | 0x33 => decodeC0 arg .fload
  | 0x40 => decodeC0 arg .tbuild
  | 0x41 => decodeC0 arg .tcodes
  | 0x42 => decodeC0 arg .trecon
  | 0x50 => decodeC0 arg .wkrst
  | 0x51 => decodeC1 arg .wkadv
  | 0x60 => decodeC0 arg .csave
  | 0x61 => decodeC0 arg .cload
  | 0x62 => decodeC0 arg .esyms
  | 0x63 => decodeC0 arg .dsym
  | 0x70 => decodeC0 arg .encode
  | 0x71 => decodeC0 arg .decode
  | _ => none

/-- The opcode of each command (30_encoding.md R92). -/
def Instr.opcode : Instr → BitVec 8
  | .nop => 0x00
  | .init => 0x01
  | .wbit _ => 0x10
  | .wcode _ => 0x11
  | .wflush => 0x12
  | .rbit => 0x20
  | .fadd _ => 0x30
  | .fadds => 0x31
  | .fsave => 0x32
  | .fload => 0x33
  | .tbuild => 0x40
  | .tcodes => 0x41
  | .trecon => 0x42
  | .wkrst => 0x50
  | .wkadv _ => 0x51
  | .csave => 0x60
  | .cload => 0x61
  | .esyms => 0x62
  | .dsym => 0x63
  | .encode => 0x70
  | .decode => 0x71

/-- `Encode` of 30_encoding.md R99: `{op, arg}`. -/
def encodeWord (i : Instr) : CmdWord := i.opcode ++ i.operand

/-- One row of the opcode map (30_encoding.md R92): a word `w` is the command of the row when
`w & mask = pattern`. -/
structure OpcodeRow where
  pattern : CmdWord
  mask : CmdWord
  deriving DecidableEq, Repr

/-- The word is the row's command (30_encoding.md R92). -/
def OpcodeRow.covers (r : OpcodeRow) (w : CmdWord) : Bool := w &&& r.mask == r.pattern

/-- The columns `match` and `mask` of the opcode map, row by row (30_encoding.md R92). -/
def opcodeTable : List OpcodeRow :=
  [⟨0x0000, 0xFFFF⟩, ⟨0x0100, 0xFFFF⟩, ⟨0x1000, 0xFFFE⟩, ⟨0x1100, 0xFF00⟩, ⟨0x1200, 0xFFFF⟩,
   ⟨0x2000, 0xFFFF⟩, ⟨0x3000, 0xFF00⟩, ⟨0x3100, 0xFFFF⟩, ⟨0x3200, 0xFFFF⟩, ⟨0x3300, 0xFFFF⟩,
   ⟨0x4000, 0xFFFF⟩, ⟨0x4100, 0xFFFF⟩, ⟨0x4200, 0xFFFF⟩, ⟨0x5000, 0xFFFF⟩, ⟨0x5100, 0xFFFE⟩,
   ⟨0x6000, 0xFFFF⟩, ⟨0x6100, 0xFFFF⟩, ⟨0x6200, 0xFFFF⟩, ⟨0x6300, 0xFFFF⟩, ⟨0x7000, 0xFFFF⟩,
   ⟨0x7100, 0xFFFF⟩]

/-- The word 0x0100, the one word the faulted state does not ignore (30_encoding.md R94,
60_exceptions.md R227). -/
def initWord : CmdWord := 0x0100

/-- The command word the host's check gives as a number: its low `nbits` bits, of at most 16 (a command
is one 16-bit word and is not fetched from memory, 30_encoding.md R96, 20_memory.md R69). -/
def tableWord (nbits w : Nat) : CmdWord := BitVec.ofNat 16 (w % 2 ^ nbits)

/-- The command the decoder reads from an opcode-table word. -/
def decodeTableWord (nbits w : Nat) : Option Instr := decodeWord (tableWord nbits w)

end Sys2Proof
end

