-- ==== Sys2Proof/Config.lean ====
section
/-!
DEFINITION. The parameters of 00_scope.md R6. Each has one value in this hardware; none is left open, so
this file holds no free value.
-/
namespace Sys2Proof.Config

/-- `NSYM`: the number of symbols. -/
abbrev nsym : Nat := 256

/-- `NNODE`: the number of tree nodes. -/
abbrev nnode : Nat := 511

/-- `HEAPCAP`: the number of heap entries. -/
abbrev heapCap : Nat := 256

/-- `MAXLEN`: the longest codeword, in bits. -/
abbrev maxLen : Nat := 255

/-- `CNT_BYTES`: bytes of the symbol-count field. -/
abbrev cntBytes : Nat := 8

/-- `TBL_BYTES`: bytes of the frequency table in the header. -/
abbrev tblBytes : Nat := 2048

/-- `HEADER_SIZE`: the payload starts at this offset (20_memory.md R67). -/
abbrev headerSize : Nat := cntBytes + tblBytes

/-- The index of the first internal node: the 256 leaves have the indices 0 to 255 (42_tree.md R154). -/
abbrev firstInternal : NodeIndex := 256

/-- The index that names no node; `TRECON` uses it for "no child yet" (10_state.md R33, 42_tree.md R161). -/
abbrev noNode : NodeIndex := 511

end Sys2Proof.Config
end

