-- ==== Sys2Proof/Machine/State.lean ====
section
/-!
DEFINITION. The state of the engine (10_state.md R20 to R35), the state of its environment (20_memory.md
R60 to R64), the ways a step can end, and the state after reset (10_state.md R38).
-/
namespace Sys2Proof.Machine

/-- The host's answer to `InRead()` (00_scope.md R10). -/
inductive ReadAnswer where
  | byte (v : Byte)
  | eof
  | err
  deriving DecidableEq, Repr

/-- One stream call of the engine with the host's answer (00_scope.md R10, 20_memory.md R65). -/
inductive StreamCall where
  | read (answer : ReadAnswer)
  | rewind
  | write (v : Byte) (accepted : Bool)
  deriving DecidableEq, Repr

/-- What the host does between commands (70_reset_and_hazards.md R260, R263, R276). `resetDuring w n`
presents the command word `w` and asserts reset when `n` stream calls of that command have been
answered, or at its end if it makes fewer. DESIGN CHOICE (log entry 17): no event connects another input or
another output, which R276 leaves open between sessions. -/
inductive HostEvent where
  | command (w : CmdWord)
  | reset
  | resetDuring (w : CmdWord) (calls : Nat)
  | rewindInput
  deriving DecidableEq, Repr

/-- The two streams, the host's draws, and the transcript of calls. They belong to the host, not to the
engine (20_memory.md R60, R63). -/
structure Streams where
  /-- `IN.data` -/
  inData : List Byte
  /-- `IN.pos` -/
  inPos : Nat
  /-- `OUT.data`, the first byte written first -/
  outData : List Byte
  /-- the draws of the `InRead` calls to come, the next first: `true` is a failure (R61) -/
  readDraws : List Bool
  /-- the draws of the `OutWrite` calls to come, the next first: `true` is a failure (R64) -/
  writeDraws : List Bool
  /-- the calls made so far, the last first (R65) -/
  calls : List StreamCall
  deriving DecidableEq, Repr

/-- An entry of `TREE` (10_state.md R33). -/
structure Node where
  leaf : Bool
  sym : Symbol
  left : NodeIndex
  right : NodeIndex
  w : Weight
  deriving DecidableEq, Repr

/-- An entry of `HEAP` (10_state.md R35). -/
structure HeapEntry where
  w : Weight
  n : NodeIndex
  deriving DecidableEq, Repr

/-- `TREE[0..510]`; an entry nothing has written is absent (10_state.md R33, R39). -/
abbrev TreeRam := Vector (Option Node) Config.nnode

/-- `CODE[0..255]`; an entry nothing has written is absent (10_state.md R34, R39). -/
abbrev CodeRam := Vector (Option Codeword) Config.nsym

/-- `FREQ[0..255]` (10_state.md R32). -/
abbrev FreqRam := Vector Count Config.nsym

/-- The state: the engine's (10_state.md R20), then the environment's. -/
structure State where
  /-- `WSR`, the pending bits, the newest at bit 0 (R22) -/
  wsr : BitVec 8
  /-- `WCNT`, the number of pending bits (R22) -/
  wcnt : BitVec 3
  /-- `WBYTES` (R22) -/
  wbytes : Count
  /-- `RSR`, the next bit at bit 7 (R23) -/
  rsr : BitVec 8
  /-- `RCNT`, the bits of `RSR` not yet delivered (R23) -/
  rcnt : BitVec 4
  /-- `RBYTES` (R23) -/
  rbytes : Count
  /-- `RB`, the bit the last `RBIT` delivered (R23) -/
  rb : Bit
  /-- `ROOT` (R24) -/
  root : NodeIndex
  /-- `CUR` (R24) -/
  cur : NodeIndex
  /-- `NEXT` (R24) -/
  nextIdx : NodeIndex
  /-- `SYMCNT` (R25) -/
  symcnt : Count
  /-- `EMIT` (R25) -/
  emit : Count
  /-- `RES_A` (R25) -/
  resA : Count
  /-- `RES_B` (R25) -/
  resB : Count
  /-- `FL`, frequency table locked (R28) -/
  fl : Bool
  /-- `TV`, tree valid (R28) -/
  tv : Bool
  /-- `CV`, code table valid (R28) -/
  cv : Bool
  /-- `ERR.CODE`, 0 when no fault is recorded (R30) -/
  errCode : BitVec 4
  /-- `ERR.CMD`, the word that raised the fault (R30) -/
  errCmd : CmdWord
  /-- `FREQ` (R32) -/
  freq : FreqRam
  /-- `TREE` (R33) -/
  tree : TreeRam
  /-- `CODE` (R34) -/
  code : CodeRam
  /-- `HEAP[0 .. HEAP_N-1]`; `HEAP_N` is its length (R35) -/
  heap : List HeapEntry
  /-- the streams -/
  io : Streams
  /-- what the host will do, the next first -/
  pending : List HostEvent
  deriving DecidableEq, Repr

/-- The faults the engine records in `ERR` (60_exceptions.md R221). They are no stop of the model: the
command that raises one ends in the next state that fault entry gives (R226). -/
inductive ErrCode where
  | eIO
  | eHeader
  | eEof
  | eSeq
  | eIllegal
  | eOvf
  deriving DecidableEq, Repr

/-- Where the model stops. Both constructors are for states that no run from reset reaches; the
spec gives no behaviour there (91_not_in_source.md N23), so the stops are safe. -/
inductive Fault where
  /-- `TV = 1` and `TREE` is no tree: `WKADV`, `DSYM` at an entry that is absent, `TCODES` on paths that do
  not end. Safe. -/
  | corruptTree
  /-- `CV = 1` and `CODE` is no code table: `WCODE`, `ESYMS`, `TRECON` at an entry that is absent,
  `TRECON` on codewords that no tree has. Safe. -/
  | corruptCode
  deriving DecidableEq, Repr

/-- A command that has no meaning yet. No command is in this case. -/
inductive Refusal where
  /-- raised by the dispatch of a command that is not modelled; safe -/
  | notModelled (mnemonic : String)
  deriving DecidableEq, Repr

/-- The host's side at `State.reset`: empty streams, every draw a success, nothing called (log entry 11). -/
def Streams.start : Streams where
  inData := []
  inPos := 0
  outData := []
  readDraws := []
  writeDraws := []
  calls := []

/-- The state after reset (10_state.md R38). -/
def State.reset : State where
  wsr := 0
  wcnt := 0
  wbytes := 0
  rsr := 0
  rcnt := 0
  rbytes := 0
  rb := false
  root := 0
  cur := 0
  nextIdx := 0
  symcnt := 0
  emit := 0
  resA := 0
  resB := 0
  fl := false
  tv := false
  cv := false
  errCode := 0
  errCmd := 0
  freq := Vector.replicate _ 0
  tree := Vector.replicate _ none
  code := Vector.replicate _ none
  heap := []
  io := Streams.start
  pending := []

end Sys2Proof.Machine
end

