-- ==== Sys2Proof/Machine/Ops.lean ====
section
/-!
DEFINITION. The shared operations: the stream primitives (20_memory.md R61 to R64), how a command body ends
(00_scope.md R11), fault entry (60_exceptions.md R226), running a command (R227, R229), and
re-initialisation (44_archiver.md R199).
-/
namespace Sys2Proof.Machine

/-- The value of `ERR.CODE` for each fault (60_exceptions.md R221). -/
def ErrCode.code : ErrCode → BitVec 4
  | .eIO => 1
  | .eHeader => 2
  | .eEof => 3
  | .eSeq => 4
  | .eIllegal => 5
  | .eOvf => 6

/-- What the next `InRead()` answers: a drawn failure first, then the byte at `IN.pos`, else `Eof`
(20_memory.md R61). -/
def Streams.inAnswer (io : Streams) : ReadAnswer :=
  if io.readDraws.head?.getD false then .err
  else
    match io.inData[io.inPos]? with
    | some v => .byte v
    | none => .eof

/-- The streams after an `InRead()` that got this answer: only a byte moves `IN.pos` (20_memory.md R61). -/
def Streams.afterRead (io : Streams) (answer : ReadAnswer) : Streams :=
  { io with
    inPos := match answer with
      | .byte _ => io.inPos + 1
      | .eof | .err => io.inPos
    readDraws := io.readDraws.tail
    calls := .read answer :: io.calls }

/-- `InRewind()` (20_memory.md R62). -/
def Streams.inRewind (io : Streams) : Streams :=
  { io with inPos := 0, calls := .rewind :: io.calls }

/-- Whether the next `OutWrite` is accepted (20_memory.md R64). -/
def Streams.outAccepts (io : Streams) : Bool := !io.writeDraws.head?.getD false

/-- The streams after an `OutWrite(v)` that was accepted or not: only an accepted byte is appended
(20_memory.md R64). -/
def Streams.afterWrite (io : Streams) (v : Byte) (accepted : Bool) : Streams :=
  { io with
    outData := if accepted then io.outData ++ [v] else io.outData
    writeDraws := io.writeDraws.tail
    calls := .write v accepted :: io.calls }

/-- How a command body, or a helper in it, ends: it goes on with a value, it raises a fault, or it meets
a memory content that the spec gives no behaviour for. What was done before a raise stays done
(00_scope.md R11), so a raise carries the state. -/
inductive Body (α : Type) where
  | done (a : α) (s : State)
  | raise (e : ErrCode) (s : State)
  | stuck (f : Fault)
  deriving Repr

/-- Sequencing: nothing after a raise is executed (00_scope.md R11). -/
def Body.andThen {α β : Type} (r : Body α) (k : α → State → Body β) : Body β :=
  match r with
  | .done a s => k a s
  | .raise e s => .raise e s
  | .stuck f => .stuck f

/-- `require c else raise E_SEQ` in front of a body (00_scope.md R11, 60_exceptions.md R225). -/
def requireFlag (c : Bool) (k : State → Body Unit) (s : State) : Body Unit :=
  if c then k s else .raise .eSeq s

/-- `OutByte(v)`: write or fault (00_scope.md R10). -/
def outByte (v : Byte) (s : State) : Body Unit :=
  if s.io.outAccepts then .done () { s with io := s.io.afterWrite v true }
  else .raise .eIO { s with io := s.io.afterWrite v false }

/-- `OutByte` of each byte of a list in turn. -/
def outBytes : List Byte → State → Body Unit
  | [], s => .done () s
  | v :: vs, s => (outByte v s).andThen fun _ s => outBytes vs s

/-- `InByte(onEof)` with a fault for `Eof`: `Err` is tested first (00_scope.md R10). -/
def inByte (onEof : ErrCode) (s : State) : Body Byte :=
  let s' := { s with io := s.io.afterRead s.io.inAnswer }
  match s.io.inAnswer with
  | .err => .raise .eIO s'
  | .eof => .raise onEof s'
  | .byte v => .done v s'

/-- `InByte(STOP)`: `none` is `STOP` (00_scope.md R10). -/
def inByteOrStop (s : State) : Body (Option Byte) :=
  let s' := { s with io := s.io.afterRead s.io.inAnswer }
  match s.io.inAnswer with
  | .err => .raise .eIO s'
  | .eof => .done none s'
  | .byte v => .done (some v) s'

/-- The pending bits at the top of a byte, zeros below: `(WSR << (8 - WCNT))[7:0]`
(40_bitstream.md R111). -/
def State.paddedByte (s : State) : Byte := s.wsr <<< (8 - s.wcnt.toNat)

/-- The writer emptied by one byte that the output has taken (40_bitstream.md R110, R111). -/
def State.writerEmptied (s : State) : State :=
  { s with wbytes := s.wbytes + 1, wsr := 0, wcnt := 0 }

/-- The one flush attempt of fault entry; a rejected byte is ignored (60_exceptions.md R226). -/
def flushAttempt (s : State) : State :=
  if s.wcnt = 0 then s
  else
    let s' := { s with io := s.io.afterWrite s.paddedByte s.io.outAccepts }
    if s.io.outAccepts then s'.writerEmptied else s'

/-- `FaultEntry(e, w)` (60_exceptions.md R226). -/
def faultEntry (e : ErrCode) (w : CmdWord) (s : State) : State :=
  { flushAttempt s with errCode := e.code, errCmd := w }

/-- `SessionInit()` (44_archiver.md R199): all but `ERR`, `TREE`, `CODE` and the streams. -/
def State.sessionInit (s : State) : State :=
  { s with
    wsr := 0, wcnt := 0, wbytes := 0
    rsr := 0, rcnt := 0, rbytes := 0, rb := false
    cur := 0, root := 0, nextIdx := 0
    symcnt := 0, emit := 0, resA := 0, resB := 0
    fl := false, tv := false, cv := false
    heap := []
    freq := Vector.replicate _ 0 }

/-- The return from the faulted state: `SessionInit()` and a cleared fault record (44_archiver.md R191,
60_exceptions.md R228). -/
def State.faultReturn (s : State) : State :=
  { s.sessionInit with errCode := 0, errCmd := 0 }

/-- `rst`: the state after reset; the streams are the host's and stay (10_state.md R38,
70_reset_and_hazards.md R260). -/
def State.resetEngine (s : State) : State :=
  { State.reset with io := s.io, pending := s.pending }

/-- The end of a command whose word is `w`: a raise goes through fault entry (60_exceptions.md R226). -/
def finish (w : CmdWord) (r : Body Unit) : Host.Outcome State Fault Refusal :=
  match r with
  | .done _ s => .next s
  | .raise e s => .next (faultEntry e w s)
  | .stuck f => .fault f

/-- Every command but `INIT`: ignored while a fault is recorded, else its body is run (60_exceptions.md
R227, R229). -/
def runCommand (i : Instr) (body : State → Body Unit) (s : State) : Host.Outcome State Fault Refusal :=
  if s.errCode = 0 then finish (encodeWord i) (body s) else .next s

end Sys2Proof.Machine
end

