-- ==== Sys2Proof/Machine/Operands.lean ====
section
/-!
DEFINITION. The operand forms and the access to the memories by symbol and by node index: a symbol indexes
`FREQ` and `CODE`, a node index indexes `TREE` (10_state.md R37, 30_encoding.md R93), and the 8-byte
little-endian fields of the header (20_memory.md R68).
-/
namespace Sys2Proof.Machine

/-- `FREQ[s]` (10_state.md R32). -/
def State.freqAt (s : State) (sym : Symbol) : Count := s.freq[sym.toNat]'sym.isLt

/-- `FREQ[s] <- v`. -/
def State.setFreq (s : State) (sym : Symbol) (v : Count) : State :=
  { s with freq := s.freq.set sym.toNat v sym.isLt }

/-- `CODE[s]`, absent when nothing has written it (10_state.md R34, R39). -/
def codeAt (code : CodeRam) (sym : Symbol) : Option Codeword := code[sym.toNat]'sym.isLt

/-- `CODE[s] <- c`. -/
def setCode (code : CodeRam) (sym : Symbol) (c : Codeword) : CodeRam :=
  code.set sym.toNat (some c) sym.isLt

/-- `TREE[i]`, absent when nothing has written it or when `i` is 511, which names no node
(10_state.md R33, R39). -/
def nodeAt (tree : TreeRam) (i : NodeIndex) : Option Node := (tree[i.toNat]?).join

/-- `TREE[i] <- n`; no command forms the index 511 here (20_memory.md R70). -/
def setNode (tree : TreeRam) (i : NodeIndex) (n : Node) : TreeRam := tree.setIfInBounds i.toNat (some n)

/-- The child a bit leads to: 0 is `left`, 1 is `right` (00_scope.md R12). -/
def Node.child (n : Node) (b : Bit) : NodeIndex := if b then n.right else n.left

/-- `for s = 0 .. 255` (00_scope.md R13). -/
def allSymbols : List Symbol := (List.range Config.nsym).map (BitVec.ofNat 8)

/-- The index of the leaf of a symbol (42_tree.md R154). -/
def leafIndex (sym : Symbol) : NodeIndex := sym.setWidth 9

/-- The byte at offset `k` of an 8-byte field: `v[8*k+7 : 8*k]` (20_memory.md R68). -/
def fieldByte (v : Count) (k : Nat) : Byte := v.extractLsb' (8 * k) 8

/-- The 8 bytes of a header field, least significant first (20_memory.md R68). -/
def fieldBytes (v : Count) : List Byte := (List.range Config.cntBytes).map (fieldByte v)

/-- `t[8*k+7 : 8*k] <- v` (41_frequency.md R134, 44_archiver.md R193). -/
def setFieldByte (t : Count) (k : Nat) (v : Byte) : Count :=
  (t &&& ~~~((0xFF : Count) <<< (8 * k))) ||| (v.setWidth 64 <<< (8 * k))

/-- The bytes `k`, `k+1`, ... of an 8-byte field, `n` of them, read into `t` (41_frequency.md R134). -/
def inFieldFrom : (n k : Nat) → Count → State → Body Count
  | 0, _, t, s => .done t s
  | n + 1, k, t, s =>
    (inByte .eHeader s).andThen fun v s => inFieldFrom n (k + 1) (setFieldByte t k v) s

/-- An 8-byte header field read from the input, `t` starting at 0 (41_frequency.md R134,
44_archiver.md R193). -/
def inField (s : State) : Body Count := inFieldFrom Config.cntBytes 0 0 s

end Sys2Proof.Machine
end

