-- ==== Sys2Proof/Machine/Flags.lean ====
section
/-!
DEFINITION. The views of the flags and of the walker (10_state.md R29), the register read map (R31), the
counter `HEAP_N` (R35) and the output levels of the ports (20_memory.md R66). Nothing here is stored. The
engine has no carry, zero or overflow flag (R29).
-/
namespace Sys2Proof.Machine

/-- `TREE[CUR].leaf == 1`. -/
def State.atLeaf (s : State) : Bool :=
  match nodeAt s.tree s.cur with
  | some n => n.leaf
  | none => false

/-- `LEAF` (10_state.md R29). -/
def State.leafView (s : State) : Bool := s.tv && s.atLeaf

/-- `SYMV` (10_state.md R29). -/
def State.symView (s : State) : Symbol :=
  if s.leafView then
    match nodeAt s.tree s.cur with
    | some n => n.sym
    | none => 0
  else 0

/-- `FAULT` (10_state.md R29). -/
def State.faultView (s : State) : Bool := s.errCode != 0

/-- `HEAP_N` (10_state.md R35). -/
def State.heapN (s : State) : BitVec 9 := BitVec.ofNat 9 s.heap.length

/-- The register `STATUS` (10_state.md R31). -/
def State.statusReg (s : State) : BitVec 64 :=
  (BitVec.ofBool s.faultView ++ BitVec.ofBool s.rb ++ BitVec.ofBool s.leafView ++ BitVec.ofBool s.cv
    ++ BitVec.ofBool s.tv ++ BitVec.ofBool s.fl).setWidth 64

/-- The register `ERR`: the code at [3:0], the word at [31:16] (10_state.md R31). -/
def State.errReg (s : State) : BitVec 64 := (s.errCmd ++ (0 : BitVec 12) ++ s.errCode).setWidth 64

/-- The register `WRITER` (10_state.md R31). -/
def State.writerReg (s : State) : BitVec 64 := (s.wcnt ++ s.wsr).setWidth 64

/-- The register `READER` (10_state.md R31). -/
def State.readerReg (s : State) : BitVec 64 := (s.rcnt ++ s.rsr).setWidth 64

/-- The register `WALK`: `CUR` at [8:0], `ROOT` at [24:16], `NEXT` at [40:32] (10_state.md R31). -/
def State.walkReg (s : State) : BitVec 64 :=
  (s.nextIdx ++ (0 : BitVec 7) ++ s.root ++ (0 : BitVec 7) ++ s.cur).setWidth 64

/-- The register `SYM` (10_state.md R31). -/
def State.symReg (s : State) : BitVec 64 := (BitVec.ofBool s.leafView ++ s.symView).setWidth 64

/-- The register read map; the addresses 0xC to 0xF read 0 (10_state.md R31). -/
def regRead (s : State) (addr : BitVec 4) : BitVec 64 :=
  match addr.toNat with
  | 0x0 => s.statusReg
  | 0x1 => s.errReg
  | 0x2 => s.symcnt
  | 0x3 => s.emit
  | 0x4 => s.wbytes
  | 0x5 => s.rbytes
  | 0x6 => s.resA
  | 0x7 => s.resB
  | 0x8 => s.writerReg
  | 0x9 => s.readerReg
  | 0xA => s.walkReg
  | 0xB => s.symReg
  | _ => 0

/-- The port level `busy`: between two steps no command is running (20_memory.md R66, 00_scope.md R7). -/
def State.busyLine (_ : State) : Bool := false

/-- The port level `cmd_ready`, the complement of `busy` (20_memory.md R66). -/
def State.cmdReadyLine (s : State) : Bool := !s.busyLine

/-- The port level `fault` is the view `FAULT` (20_memory.md R66, 60_exceptions.md R231). -/
def State.faultLine (s : State) : Bool := s.faultView

end Sys2Proof.Machine
end

