-- ==== Sys2Proof/Machine/BitStream.lean ====
section
/-!
DEFINITION. The bit-stream writer and reader (40_bitstream.md): the helpers `PutBit`, `Flush`, `GetBit` and
the commands `WBIT`, `WCODE`, `WFLUSH`, `RBIT`.
-/
namespace Sys2Proof.Machine

/-- `PutBit(b)` (40_bitstream.md R110); `{WSR[6:0], b}` is the shift. -/
def putBit (b : Bit) (s : State) : Body Unit :=
  let t := s.wsr.shiftConcat b
  if s.wcnt = 7 then (outByte t s).andThen fun _ s => .done () s.writerEmptied
  else .done () { s with wsr := t, wcnt := s.wcnt + 1 }

/-- `for j: PutBit(c[j])` (40_bitstream.md R114). -/
def putBits : Codeword → State → Body Unit
  | [], s => .done () s
  | b :: bs, s => (putBit b s).andThen fun _ s => putBits bs s

/-- `Flush()` (40_bitstream.md R111). -/
def flush (s : State) : Body Unit :=
  if s.wcnt = 0 then .done () s
  else (outByte s.paddedByte s).andThen fun _ s => .done () s.writerEmptied

/-- The refill of `GetBit()`: a byte is taken only when none is buffered (40_bitstream.md R112). -/
def refill (s : State) : Body Unit :=
  if s.rcnt = 0 then
    (inByte .eEof s).andThen fun v s =>
      .done () { s with rsr := v, rcnt := 8, rbytes := s.rbytes + 1 }
  else .done () s

/-- `GetBit()` (40_bitstream.md R112). -/
def getBit (s : State) : Body Bit :=
  (refill s).andThen fun _ s => .done s.rsr.msb { s with rsr := s.rsr <<< 1, rcnt := s.rcnt - 1 }

/-- The codeword of a symbol put bit by bit (40_bitstream.md R114). -/
def putSymbol (sym : Symbol) (s : State) : Body Unit :=
  match codeAt s.code sym with
  | some c => putBits c s
  | none => .stuck .corruptCode

/-- The body of `WBIT b` (40_bitstream.md R113). -/
def bodyWbit (b : Bit) (s : State) : Body Unit := putBit b s

/-- The body of `WCODE s` (40_bitstream.md R114). -/
def bodyWcode (sym : Symbol) (s : State) : Body Unit := requireFlag s.cv (putSymbol sym) s

/-- The body of `WFLUSH` (40_bitstream.md R115). -/
def bodyWflush (s : State) : Body Unit := flush s

/-- The body of `RBIT` (40_bitstream.md R116). -/
def bodyRbit (s : State) : Body Unit :=
  (getBit s).andThen fun b s => .done () { s with rb := b }

/-- `WBIT b` (40_bitstream.md R113). -/
def execWbit (b : Bit) (s : State) : Host.Outcome State Fault Refusal :=
  runCommand (.wbit b) (bodyWbit b) s

/-- `WCODE s` (40_bitstream.md R114). -/
def execWcode (sym : Symbol) (s : State) : Host.Outcome State Fault Refusal :=
  runCommand (.wcode sym) (bodyWcode sym) s

/-- `WFLUSH` (40_bitstream.md R115). -/
def execWflush (s : State) : Host.Outcome State Fault Refusal := runCommand .wflush bodyWflush s

/-- `RBIT` (40_bitstream.md R116). -/
def execRbit (s : State) : Host.Outcome State Fault Refusal := runCommand .rbit bodyRbit s

end Sys2Proof.Machine
end

