-- ==== Sys2Proof/Machine/Frequency.lean ====
section
/-!
DEFINITION. The frequency accumulator (41_frequency.md): the helper `CountSym` and the commands `FADD`,
`FADDS`, `FSAVE`, `FLOAD`.
-/
namespace Sys2Proof.Machine

/-- The largest count, `2^64 - 1` (41_frequency.md R130). -/
def countMax : Count := BitVec.allOnes 64

/-- `CountSym(s)` (41_frequency.md R130). -/
def countSym (sym : Symbol) (s : State) : Body Unit :=
  if s.freqAt sym = countMax ∨ s.symcnt = countMax then .raise .eOvf s
  else .done () { s.setFreq sym (s.freqAt sym + 1) with symcnt := s.symcnt + 1 }

/-- The bytes between `IN.pos` and the end of the input (20_memory.md R60). -/
def Streams.remaining (io : Streams) : Nat := io.inData.length - io.inPos

/-- The loop of `FADDS` (41_frequency.md R132), `n` bounding its `InRead` calls: each call but the last
takes a byte (20_memory.md R80). -/
def countRest : (n : Nat) → State → Body Unit
  | 0, s => .done () s
  | n + 1, s =>
    (inByteOrStop s).andThen fun v s =>
      match v with
      | none => .done () s
      | some sym => (countSym sym s).andThen fun _ s => countRest n s

/-- The 2048 bytes of the table block, byte value 0 first (41_frequency.md R133, 20_memory.md R67). -/
def tableBytes (freq : FreqRam) : List Byte := freq.toList.flatMap fieldBytes

/-- The loop of `FLOAD` over the symbols still to load (41_frequency.md R134). -/
def loadTable : List Symbol → State → Body Unit
  | [], s => .done () s
  | sym :: rest, s => (inField s).andThen fun t s => loadTable rest (s.setFreq sym t)

/-- The body of `FADD s` (41_frequency.md R131). -/
def bodyFadd (sym : Symbol) (s : State) : Body Unit := requireFlag (!s.fl) (countSym sym) s

/-- The body of `FADDS` (41_frequency.md R132). -/
def bodyFadds (s : State) : Body Unit := requireFlag (!s.fl) (countRest (s.io.remaining + 1)) s

/-- The body of `FSAVE` (41_frequency.md R133). -/
def bodyFsave (s : State) : Body Unit := outBytes (tableBytes s.freq) s

/-- The body of `FLOAD` (41_frequency.md R134). -/
def bodyFload (s : State) : Body Unit := requireFlag (!s.fl) (loadTable allSymbols) s

/-- `FADD s` (41_frequency.md R131). -/
def execFadd (sym : Symbol) (s : State) : Host.Outcome State Fault Refusal :=
  runCommand (.fadd sym) (bodyFadd sym) s

/-- `FADDS` (41_frequency.md R132). -/
def execFadds (s : State) : Host.Outcome State Fault Refusal := runCommand .fadds bodyFadds s

/-- `FSAVE` (41_frequency.md R133). -/
def execFsave (s : State) : Host.Outcome State Fault Refusal := runCommand .fsave bodyFsave s

/-- `FLOAD` (41_frequency.md R134). -/
def execFload (s : State) : Host.Outcome State Fault Refusal := runCommand .fload bodyFload s

end Sys2Proof.Machine
end

