-- ==== Sys2Proof/Machine/Tree.lean ====
section
/-!
DEFINITION. The min-heap merge engine, the code-table deriver and the reconstruction (42_tree.md): the heap
(R150 to R152) and the commands `TBUILD`, `TCODES`, `TRECON`.
-/
namespace Sys2Proof.Machine

/-- `Less(x, y)`: weight first, node index second, both unsigned (42_tree.md R150). -/
def HeapEntry.less (x y : HeapEntry) : Bool := x.w.ult y.w || (x.w == y.w && x.n.ult y.n)

/-- `Less(HEAP[i], HEAP[j])`; false where a position is not live. -/
def lessAt (h : List HeapEntry) (i j : Nat) : Bool :=
  match h[i]?, h[j]? with
  | some x, some y => x.less y
  | _, _ => false

/-- `swap HEAP[i] and HEAP[j]`. -/
def swapAt (h : List HeapEntry) (i j : Nat) : List HeapEntry :=
  match h[i]?, h[j]? with
  | some x, some y => (h.set i y).set j x
  | _, _ => h

/-- The loop of `HeapInsert` at position `i` (42_tree.md R151); `n` bounds its rounds. -/
def siftUp : (n : Nat) → List HeapEntry → (i : Nat) → List HeapEntry
  | 0, h, _ => h
  | n + 1, h, i =>
    if i = 0 then h
    else
      let p := (i - 1) / 2
      if lessAt h i p then siftUp n (swapAt h i p) p else h

/-- `HeapInsert(e)` (42_tree.md R151). -/
def heapInsert (h : List HeapEntry) (e : HeapEntry) : List HeapEntry :=
  siftUp h.length (h ++ [e]) h.length

/-- The position `m` of `HeapExtractMin`: the least of `i` and its live children (42_tree.md R152). -/
def leastAt (h : List HeapEntry) (i : Nat) : Nat :=
  let l := 2 * i + 1
  let r := 2 * i + 2
  let m := if lessAt h l i then l else i
  if lessAt h r m then r else m

/-- The loop of `HeapExtractMin` at position `i` (42_tree.md R152); `n` bounds its rounds. -/
def siftDown : (n : Nat) → List HeapEntry → (i : Nat) → List HeapEntry
  | 0, h, _ => h
  | n + 1, h, i =>
    let m := leastAt h i
    if m = i then h else siftDown n (swapAt h i m) m

/-- `HeapExtractMin()`: the entry and the heap it leaves (42_tree.md R152). It is called only with
`HEAP_N >= 1`; on the empty heap there is no entry. -/
def heapExtractMin (h : List HeapEntry) : Option (HeapEntry × List HeapEntry) :=
  match h with
  | [] => none
  | [top] => some (top, [])
  | top :: x :: rest =>
    let h' := (x :: rest).getLast (by simp) :: (x :: rest).dropLast
    some (top, siftDown h'.length h' 0)

/-- What `TBUILD` and its loops write. -/
structure Builder where
  tree : TreeRam
  heap : List HeapEntry
  nextIdx : NodeIndex
  deriving DecidableEq, Repr

/-- One round of the seeding loop (42_tree.md R154). -/
def seedLeaf (freq : FreqRam) (b : Builder) (sym : Symbol) : Builder :=
  let w : Weight := (freq[sym.toNat]'sym.isLt).setWidth 72
  { b with
    tree := setNode b.tree (leafIndex sym) ⟨true, sym, 0, 0, w⟩
    heap := heapInsert b.heap ⟨w, leafIndex sym⟩ }

/-- `TBUILD` before its merge loop: 256 leaves, `NEXT = 256` (42_tree.md R154). -/
def seedBuilder (freq : FreqRam) (tree : TreeRam) : Builder :=
  allSymbols.foldl (seedLeaf freq) ⟨tree, [], Config.firstInternal⟩

/-- One round of the merge loop: the two least entries become the children of `TREE[NEXT]`, the lesser
the left one (42_tree.md R154). `none` ends the loop: fewer than two entries are live. -/
def mergeStep (b : Builder) : Option Builder :=
  match heapExtractMin b.heap with
  | none => none
  | some (x, h1) =>
    match heapExtractMin h1 with
    | none => none
    | some (y, h2) =>
      let w := x.w + y.w
      some
        { tree := setNode b.tree b.nextIdx ⟨false, 0, x.n, y.n, w⟩
          heap := heapInsert h2 ⟨w, b.nextIdx⟩
          nextIdx := b.nextIdx + 1 }

/-- `while HEAP_N > 1` (42_tree.md R154); each round takes one entry away, so `HEAP_N` bounds the rounds. -/
def mergeLoop : (n : Nat) → Builder → Builder
  | 0, b => b
  | n + 1, b =>
    match mergeStep b with
    | some b' => mergeLoop n b'
    | none => b

/-- `TREE`, `HEAP` and `NEXT` as `TBUILD` leaves them (42_tree.md R154). -/
def buildTree (freq : FreqRam) (tree : TreeRam) : Builder :=
  mergeLoop Config.heapCap (seedBuilder freq tree)

/-- `HEAP[0].n`; after the merge loop one entry is live (42_tree.md R157), so the empty case is never met. -/
def heapTop : List HeapEntry → NodeIndex
  | e :: _ => e.n
  | [] => 0

/-- `Codes(i, p)` (42_tree.md R158) as a list, left before right, or `none` when some path below `i`
does not end at a leaf within `n` nodes. -/
def codesFrom (tree : TreeRam) : (n : Nat) → NodeIndex → Codeword → Option (List (Symbol × Codeword))
  | 0, _, _ => none
  | n + 1, i, p =>
    match nodeAt tree i with
    | none => none
    | some nd =>
      if nd.leaf then some [(nd.sym, p)]
      else
        match codesFrom tree n nd.left (p ++ [false]), codesFrom tree n nd.right (p ++ [true]) with
        | some l, some r => some (l ++ r)
        | _, _ => none

/-- `Codes(ROOT, [])`; a path has at most 255 bits, so 256 nodes (42_tree.md R158, R160). -/
def treeCodes (tree : TreeRam) (root : NodeIndex) : Option (List (Symbol × Codeword)) :=
  codesFrom tree (Config.maxLen + 1) root []

/-- `for every (s, p): CODE[s] <- p` (42_tree.md R159). -/
def writeCodes (code : CodeRam) (l : List (Symbol × Codeword)) : CodeRam :=
  l.foldl (fun c sp => setCode c sp.1 sp.2) code

/-- What `TRECON` and its loops write; `cur` is the pseudocode's own variable. -/
structure Recon where
  tree : TreeRam
  nextIdx : NodeIndex
  cur : NodeIndex
  deriving DecidableEq, Repr

/-- An internal node with no child yet (42_tree.md R161). -/
def bareNode : Node := ⟨false, 0, Config.noNode, Config.noNode, 0⟩

/-- `TREE[cur].left <- x` for bit 0, `TREE[cur].right <- x` for bit 1 (42_tree.md R161). -/
def Node.withChild (n : Node) (b : Bit) (x : NodeIndex) : Node :=
  if b then { n with right := x } else { n with left := x }

/-- One round of the inner loop of `TRECON`, for a bit that is not the last (42_tree.md R161). `none`
where the pseudocode would use an entry that does not exist, which R162 excludes. -/
def reconEdge (r : Recon) (b : Bit) : Option Recon :=
  match nodeAt r.tree r.cur with
  | none => none
  | some n =>
    if n.child b = Config.noNode then
      if r.nextIdx = Config.noNode then none
      else
        let grown := setNode r.tree r.nextIdx bareNode
        some
          { tree := setNode grown r.cur (n.withChild b r.nextIdx)
            nextIdx := r.nextIdx + 1
            cur := r.nextIdx }
    else some { r with cur := n.child b }

/-- The inner loop of `TRECON` over a codeword, then the leaf at its last bit (42_tree.md R161). -/
def reconPath (freq : FreqRam) (sym : Symbol) : Codeword → Recon → Option Recon
  | [], _ => none
  | [b], r =>
    match nodeAt r.tree r.cur with
    | none => none
    | some n =>
      let w : Weight := (freq[sym.toNat]'sym.isLt).setWidth 72
      let leafed := setNode r.tree (leafIndex sym) ⟨true, sym, 0, 0, w⟩
      some { r with tree := setNode leafed r.cur (n.withChild b (leafIndex sym)) }
  | b :: bs, r =>
    match reconEdge r b with
    | none => none
    | some r' => reconPath freq sym bs r'

/-- The outer loop of `TRECON` over the symbols still to place (42_tree.md R161). -/
def reconSymbols (freq : FreqRam) (code : CodeRam) : List Symbol → Recon → Option Recon
  | [], r => some r
  | sym :: rest, r =>
    match codeAt code sym with
    | none => none
    | some c =>
      match reconPath freq sym c { r with cur := Config.firstInternal } with
      | none => none
      | some r' => reconSymbols freq code rest r'

/-- `TREE` and `NEXT` as `TRECON` leaves them (42_tree.md R161). -/
def reconTree (freq : FreqRam) (code : CodeRam) (tree : TreeRam) : Option Recon :=
  reconSymbols freq code allSymbols
    ⟨setNode tree Config.firstInternal bareNode, Config.firstInternal + 1, Config.firstInternal⟩

/-- The body of `TBUILD` (42_tree.md R154). -/
def bodyTbuild (s : State) : Body Unit :=
  requireFlag (!s.fl) (fun s =>
    let b := buildTree s.freq s.tree
    .done ()
      { s with
        fl := true, tree := b.tree, heap := b.heap, nextIdx := b.nextIdx
        root := heapTop b.heap, cur := heapTop b.heap, tv := true }) s

/-- The body of `TCODES` (42_tree.md R159). The paths exist: `execTcodes` checks them, and the macro
commands run this body on the tree that `TBUILD` has just made (log entry 7). -/
def bodyTcodes (s : State) : Body Unit :=
  requireFlag s.tv (fun s =>
    .done () { s with code := writeCodes s.code ((treeCodes s.tree s.root).getD []), cv := true }) s

/-- The body of `TRECON` (42_tree.md R161). -/
def bodyTrecon (s : State) : Body Unit :=
  requireFlag s.cv (fun s =>
    match reconTree s.freq s.code s.tree with
    | none => .stuck .corruptCode
    | some r =>
      .done ()
        { s with
          tree := r.tree, nextIdx := r.nextIdx
          root := Config.firstInternal, cur := Config.firstInternal, tv := true }) s

/-- The command will read a `TREE` that is no tree (91_not_in_source.md N23). -/
def State.pathsBroken (s : State) : Bool :=
  s.errCode == 0 && s.tv && (treeCodes s.tree s.root).isNone

/-- `TBUILD` (42_tree.md R154). -/
def execTbuild (s : State) : Host.Outcome State Fault Refusal := runCommand .tbuild bodyTbuild s

/-- `TCODES` (42_tree.md R159). -/
def execTcodes (s : State) : Host.Outcome State Fault Refusal :=
  if s.pathsBroken then .fault .corruptTree else runCommand .tcodes bodyTcodes s

/-- `TRECON` (42_tree.md R161). -/
def execTrecon (s : State) : Host.Outcome State Fault Refusal := runCommand .trecon bodyTrecon s

end Sys2Proof.Machine
end

