-- ==== Sys2Proof/Machine/Walker.lean ====
section
/-!
DEFINITION. The tree-traversal decoder FSM (43_walker.md): the helper `Advance` and the commands `WKRST`,
`WKADV`.
-/
namespace Sys2Proof.Machine

/-- `Advance(b)` (43_walker.md R181). Where an entry it reads is absent the spec gives no behaviour
(91_not_in_source.md N23). -/
def advance (b : Bit) (s : State) : Body Unit :=
  match nodeAt s.tree s.cur with
  | none => .stuck .corruptTree
  | some n =>
    match nodeAt s.tree (if n.leaf then s.root else s.cur) with
    | none => .stuck .corruptTree
    | some m => .done () { s with cur := m.child b }

/-- The body of `WKRST` (43_walker.md R182). -/
def bodyWkrst (s : State) : Body Unit :=
  requireFlag s.tv (fun s => .done () { s with cur := s.root }) s

/-- The body of `WKADV b` (43_walker.md R183). -/
def bodyWkadv (b : Bit) (s : State) : Body Unit := requireFlag s.tv (advance b) s

/-- `WKRST` (43_walker.md R182). -/
def execWkrst (s : State) : Host.Outcome State Fault Refusal := runCommand .wkrst bodyWkrst s

/-- `WKADV b` (43_walker.md R183). -/
def execWkadv (b : Bit) (s : State) : Host.Outcome State Fault Refusal :=
  runCommand (.wkadv b) (bodyWkadv b) s

end Sys2Proof.Machine
end

