-- ==== Sys2Proof/Machine/Archiver.lean ====
section
/-!
DEFINITION. The archiver (44_archiver.md): the steps `CSAVE`, `CLOAD`, `ESYMS`, `DSYM` and the macro
commands `ENCODE`, `DECODE`.
-/
namespace Sys2Proof.Machine

/-- The loop of `ESYMS` (44_archiver.md R194), `n` bounding its `InRead` calls: each call but the last
takes a byte (20_memory.md R80). -/
def encodeRest : (n : Nat) → State → Body Unit
  | 0, s => .done () s
  | n + 1, s =>
    (inByteOrStop s).andThen fun v s =>
      match v with
      | none => .done () s
      | some sym => (putSymbol sym s).andThen fun _ s => encodeRest n s

/-- The bits the reader can still deliver: those buffered and those of the bytes not yet read. Every
`GetBit` that does not raise takes one (40_bitstream.md R112). -/
def State.bitsLeft (s : State) : Nat := s.rcnt.toNat + 8 * s.io.remaining

/-- The loop of `DSYM` (44_archiver.md R195); it gives the byte of the leaf reached. `n` bounds the calls
of `GetBit`; with one more than the bits left a round always ends the loop (log entry 8). -/
def walkToLeaf : (n : Nat) → State → Body Symbol
  | 0, _ => .stuck .corruptTree
  | n + 1, s =>
    (getBit s).andThen fun b s =>
      (advance b s).andThen fun _ s =>
        match nodeAt s.tree s.cur with
        | none => .stuck .corruptTree
        | some nd => if nd.leaf then .done nd.sym s else walkToLeaf n s

/-- The body of `CSAVE` (44_archiver.md R192). -/
def bodyCsave (s : State) : Body Unit := outBytes (fieldBytes s.symcnt) s

/-- The body of `CLOAD` (44_archiver.md R193). -/
def bodyCload (s : State) : Body Unit :=
  (inField s).andThen fun t s => .done () { s with symcnt := t }

/-- The body of `ESYMS` (44_archiver.md R194). -/
def bodyEsyms (s : State) : Body Unit := requireFlag s.cv (encodeRest (s.io.remaining + 1)) s

/-- The body of `DSYM` (44_archiver.md R195). -/
def bodyDsym (s : State) : Body Unit :=
  requireFlag s.tv (fun s =>
    (walkToLeaf (s.bitsLeft + 1) s).andThen fun sym s =>
      (outByte sym s).andThen fun _ s => .done () { s with emit := s.emit + 1 }) s

/-- `InRewind()` as a statement of a macro command (44_archiver.md R197, R198). -/
def rewindInput (s : State) : Body Unit := .done () { s with io := s.io.inRewind }

/-- `while EMIT != SYMCNT: do DSYM` (44_archiver.md R198); each round takes at least one bit, so one more
than the bits left bounds the rounds (log entry 8). -/
def decodeLoop : (n : Nat) → State → Body Unit
  | 0, _ => .stuck .corruptTree
  | n + 1, s =>
    if s.emit = s.symcnt then .done () s
    else (bodyDsym s).andThen fun _ s => decodeLoop n s

/-- `do X` for each body of a list in turn (44_archiver.md R196). -/
def doAll : List (State → Body Unit) → State → Body Unit
  | [], s => .done () s
  | x :: xs, s => (x s).andThen fun _ s => doAll xs s

/-- `HEADER_SIZE` as a count. -/
def headerCount : Count := BitVec.ofNat 64 Config.headerSize

/-- The body of `ENCODE` (44_archiver.md R197). -/
def bodyEncode (s : State) : Body Unit :=
  (doAll [rewindInput, bodyFadds, bodyTbuild, bodyTcodes, bodyCsave, bodyFsave, rewindInput, bodyEsyms,
      bodyWflush] s.sessionInit).andThen fun _ s =>
    .done () { s with resA := s.symcnt, resB := headerCount + s.wbytes }

/-- The body of `DECODE` (44_archiver.md R198). -/
def bodyDecode (s : State) : Body Unit :=
  (doAll [rewindInput, bodyCload, bodyFload, bodyTbuild, bodyTcodes,
      fun s => decodeLoop (s.bitsLeft + 1) s] s.sessionInit).andThen fun _ s =>
    .done () { s with resA := headerCount + s.rbytes, resB := s.emit }

/-- `CSAVE` (44_archiver.md R192). -/
def execCsave (s : State) : Host.Outcome State Fault Refusal := runCommand .csave bodyCsave s

/-- `CLOAD` (44_archiver.md R193). -/
def execCload (s : State) : Host.Outcome State Fault Refusal := runCommand .cload bodyCload s

/-- `ESYMS` (44_archiver.md R194). -/
def execEsyms (s : State) : Host.Outcome State Fault Refusal := runCommand .esyms bodyEsyms s

/-- `DSYM` (44_archiver.md R195). -/
def execDsym (s : State) : Host.Outcome State Fault Refusal := runCommand .dsym bodyDsym s

/-- `ENCODE` (44_archiver.md R197). -/
def execEncode (s : State) : Host.Outcome State Fault Refusal := runCommand .encode bodyEncode s

/-- `DECODE` (44_archiver.md R198). -/
def execDecode (s : State) : Host.Outcome State Fault Refusal := runCommand .decode bodyDecode s

end Sys2Proof.Machine
end

