-- ==== Sys2Proof/Machine/Session.lean ====
section
/-!
DEFINITION. Session control (44_archiver.md): the commands `NOP` and `INIT`.
-/
namespace Sys2Proof.Machine

/-- The body of `NOP` is empty (44_archiver.md R190). -/
def bodyNop (s : State) : Body Unit := .done () s

/-- `NOP` (44_archiver.md R190). -/
def execNop (s : State) : Host.Outcome State Fault Refusal := runCommand .nop bodyNop s

/-- `INIT`, the one command that is executed also while a fault is recorded (44_archiver.md R191). -/
def execInit (s : State) : Host.Outcome State Fault Refusal := .next s.faultReturn

end Sys2Proof.Machine
end

