-- ==== Sys2Proof/Machine/Dispatch.lean ====
section
/-!
DEFINITION. The meaning of each command, one arm per row of the opcode map (30_encoding.md R92).
-/
namespace Sys2Proof.Machine

def exec (i : Instr) (s : State) : Host.Outcome State Fault Refusal :=
  match i with
  | .nop => Sys2Proof.Machine.execNop s
  | .init => Sys2Proof.Machine.execInit s
  | .wbit b => Sys2Proof.Machine.execWbit b s
  | .wcode sym => Sys2Proof.Machine.execWcode sym s
  | .wflush => Sys2Proof.Machine.execWflush s
  | .rbit => Sys2Proof.Machine.execRbit s
  | .fadd sym => Sys2Proof.Machine.execFadd sym s
  | .fadds => Sys2Proof.Machine.execFadds s
  | .fsave => Sys2Proof.Machine.execFsave s
  | .fload => Sys2Proof.Machine.execFload s
  | .tbuild => Sys2Proof.Machine.execTbuild s
  | .tcodes => Sys2Proof.Machine.execTcodes s
  | .trecon => Sys2Proof.Machine.execTrecon s
  | .wkrst => Sys2Proof.Machine.execWkrst s
  | .wkadv b => Sys2Proof.Machine.execWkadv b s
  | .csave => Sys2Proof.Machine.execCsave s
  | .cload => Sys2Proof.Machine.execCload s
  | .esyms => Sys2Proof.Machine.execEsyms s
  | .dsym => Sys2Proof.Machine.execDsym s
  | .encode => Sys2Proof.Machine.execEncode s
  | .decode => Sys2Proof.Machine.execDecode s

end Sys2Proof.Machine
end

