-- ==== Sys2Proof/Machine/Port.lean ====
section
/-!
DEFINITION. The command port and the reset pin: what the engine does with the next thing the host presents
(60_exceptions.md R229, 70_reset_and_hazards.md R260, R276).
-/
namespace Sys2Proof.Machine

/-- A command word taken from the port (60_exceptions.md R229): first the fault record, then the decoder,
then the body. -/
def takeWord (w : CmdWord) (s : State) : Host.Outcome State Fault Refusal :=
  if s.errCode ≠ 0 then
    if w = initWord then exec .init s else .next s
  else
    match decodeWord w with
    | none => .next (faultEntry .eIllegal w s)
    | some i => exec i s

/-- The effect on the streams of calls that were answered, the first call first. -/
def Streams.replay (io : Streams) : List StreamCall → Streams
  | [] => io
  | .read answer :: cs => (io.afterRead answer).replay cs
  | .rewind :: cs => io.inRewind.replay cs
  | .write v accepted :: cs => (io.afterWrite v accepted).replay cs

/-- The calls a later transcript has beyond an earlier one, the first call first. -/
def Streams.callsSince (later earlier : Streams) : List StreamCall :=
  (later.calls.take (later.calls.length - earlier.calls.length)).reverse

/-- A command that would have led from `s` to `t` is abandoned by reset after `n` of its stream calls: the
stream bytes it already moved stay moved, all else is as after reset (70_reset_and_hazards.md R260). -/
def abandonAfter (n : Nat) (s t : State) : State :=
  { s with io := s.io.replay ((t.io.callsSince s.io).take n) }.resetEngine

/-- Reset asserted while the command `w` runs (70_reset_and_hazards.md R260). -/
def resetWhileRunning (w : CmdWord) (n : Nat) (s : State) : Host.Outcome State Fault Refusal :=
  match takeWord w s with
  | .next t => .next (abandonAfter n s t)
  | .fault f => .fault f
  | .refused r => .refused r

/-- The engine and the next event of the host; with none it idles, all state held (10_state.md R38,
60_exceptions.md R235). -/
def hostStep (s : State) : Host.Outcome State Fault Refusal :=
  match s.pending with
  | [] => .next s
  | .command w :: rest => takeWord w { s with pending := rest }
  | .reset :: rest => .next { s with pending := rest }.resetEngine
  | .resetDuring w n :: rest => resetWhileRunning w n { s with pending := rest }
  | .rewindInput :: rest => .next { s with pending := rest, io := { s.io with inPos := 0 } }

/-- The state with a command word as the next thing the host presents. -/
def State.presented (s : State) (w : CmdWord) : State :=
  { s with pending := .command w :: s.pending }

end Sys2Proof.Machine
end

