-- ==== Sys2Proof/Machine/Step.lean ====
section
/-!
DEFINITION. One step: one event of the host, one command at most (00_scope.md R7).
-/
namespace Sys2Proof.Machine

/-- One step of the machine. -/
def step (s : State) : Host.Outcome State Fault Refusal := hostStep s

/-- The state with an opcode-table word as the next command the host presents. -/
def State.withFetchWord (s : State) (nbits w : Nat) : State := s.presented (tableWord nbits w)

end Sys2Proof.Machine
end

