-- ==== Sys2Proof/Safety.lean ====
section
/-!
DEFINITION. The terms the claims are stated in: what a good state is, what it means that no stream call
fails, the bit streams behind the writer and the reader, and the archive of an input.
-/
namespace Sys2Proof.Safety

open Sys2Proof.Machine

/-- No fault is recorded, so a command is executed (60_exceptions.md R229). -/
abbrev Running (s : State) : Prop := s.errCode = 0

/-- The host draws no failure for an `InRead` to come (20_memory.md R61). -/
abbrev ReadsSucceed (s : State) : Prop := ∀ d ∈ s.io.readDraws, d = false

/-- The host draws no failure for an `OutWrite` to come (20_memory.md R64). -/
abbrev WritesSucceed (s : State) : Prop := ∀ d ∈ s.io.writeDraws, d = false

/-- The bytes of the input from `IN.pos` to its end (20_memory.md R60). -/
def restOfInput (s : State) : List Byte := s.io.inData.drop s.io.inPos

/-- The streams after `n` reads that each answered a byte (20_memory.md R61). -/
def tookBytes (io : Streams) (n : Nat) : Streams :=
  { io with
    inPos := io.inPos + n
    readDraws := io.readDraws.drop n
    calls := (((io.inData.drop io.inPos).take n).map (StreamCall.read ∘ ReadAnswer.byte)).reverse ++ io.calls }

/-- The streams after a read that answered `Eof` (20_memory.md R61). -/
def sawEof (io : Streams) : Streams :=
  { io with readDraws := io.readDraws.tail, calls := .read .eof :: io.calls }

/-- The streams after writes of these bytes that were all accepted (20_memory.md R64). -/
def wroteBytes (io : Streams) (bytes : List Byte) : Streams :=
  { io with
    outData := io.outData ++ bytes
    writeDraws := io.writeDraws.drop bytes.length
    calls := (bytes.map (StreamCall.write · true)).reverse ++ io.calls }

/-- The bits of a byte in stream order, bit 7 first (20_memory.md R69). -/
def byteBits (v : Byte) : List Bit := (List.range 8).map v.getMsbD

/-- The bits of bytes in stream order (20_memory.md R69). -/
def bytesBits (l : List Byte) : List Bit := l.flatMap byteBits

/-- The pending bits of the writer, the oldest first: bits `WCNT-1` to 0 of `WSR` (10_state.md R22). -/
def writerBits (s : State) : List Bit :=
  (List.range s.wcnt.toNat).map fun k => s.wsr.getLsbD (s.wcnt.toNat - 1 - k)

/-- The bits of the output and behind them the pending ones. -/
def writtenBits (s : State) : List Bit := bytesBits s.io.outData ++ writerBits s

/-- The bits the reader has buffered, the next first: the top `RCNT` bits of `RSR` (10_state.md R23). -/
def readerBits (s : State) : List Bit := (List.range s.rcnt.toNat).map s.rsr.getMsbD

/-- The bits the reader can still deliver, the next first. -/
def inputBits (s : State) : List Bit := readerBits s ++ bytesBits (restOfInput s)

/-- The bytes are the bits packed most significant first, the last byte zero-padded (20_memory.md R69). -/
def Packed (bytes : List Byte) (bits : List Bit) : Prop :=
  ∃ n, n < 8 ∧ bytesBits bytes = bits ++ List.replicate n false

/-- Every path from the root ends at a leaf within 255 bits, each symbol has exactly one, and the root is
internal (42_tree.md R157, R158, R160). -/
def TreeOk (tree : TreeRam) (root : NodeIndex) : Prop :=
  ∃ l, treeCodes tree root = some l ∧ (l.map Prod.fst).Perm allSymbols ∧ ∀ sp ∈ l, sp.2 ≠ []

/-- `Path(sym)` in the tree is `p` (42_tree.md R158). -/
def PathIs (tree : TreeRam) (root : NodeIndex) (sym : Symbol) (p : Codeword) : Prop :=
  ∃ l, treeCodes tree root = some l ∧ (sym, p) ∈ l

/-- The node reached from `i` by bits, each taken at an internal node (43_walker.md R180). -/
def walkFrom (tree : TreeRam) : NodeIndex → List Bit → Option NodeIndex
  | i, [] => some i
  | i, b :: bs =>
    match nodeAt tree i with
    | none => none
    | some n => if n.leaf then none else walkFrom tree (n.child b) bs

/-- The walker stands where the bits `q` of the present codeword have led it: at a leaf none of a fresh
codeword has been taken (43_walker.md R180, R181). -/
def WalkedBits (s : State) (q : List Bit) : Prop :=
  if s.atLeaf then q = [] else walkFrom s.tree s.root q = some s.cur

/-- What holds of the registers, the flags and the fault record at every command boundary. -/
structure RegInv (s : State) : Prop where
  /-- 10_state.md R22 -/
  writer : s.wsr.toNat < 2 ^ s.wcnt.toNat
  /-- 10_state.md R23 -/
  readerCount : s.rcnt.toNat ≤ 8
  /-- 10_state.md R23 -/
  readerLow : s.rsr.toNat % 2 ^ (8 - s.rcnt.toNat) = 0
  /-- 10_state.md R28 -/
  codesNeedTree : s.cv = true → s.tv = true
  /-- 10_state.md R28 -/
  treeNeedsLock : s.tv = true → s.fl = true
  /-- 10_state.md R30 -/
  errRange : s.errCode.toNat ≤ 6
  /-- 10_state.md R30 -/
  errEmpty : s.errCode = 0 → s.errCmd = 0
  /-- 10_state.md R35 -/
  heapSize : s.heap.length ≤ Config.heapCap
  /-- 20_memory.md R60 -/
  inputPos : s.io.inPos ≤ s.io.inData.length

/-- What holds of the tree, the walker and the code table while their flags are 1. -/
structure TreeInv (s : State) : Prop where
  /-- 42_tree.md R157, R162 -/
  tree : s.tv = true → TreeOk s.tree s.root
  /-- 10_state.md R24 -/
  root : s.tv = true → s.root = 510 ∨ s.root = 256
  /-- 10_state.md R24 -/
  next : s.tv = true → s.nextIdx = 511
  /-- 43_walker.md R180 -/
  cursor : s.tv = true → ∃ q, walkFrom s.tree s.root q = some s.cur
  /-- 42_tree.md R159 -/
  codes : s.cv = true → ∀ sym p, PathIs s.tree s.root sym p → codeAt s.code sym = some p

/-- A good state: from it no step stops, and every step leads to a good state. -/
structure Good (s : State) : Prop where
  regs : RegInv s
  tree : TreeInv s

/-- No entry is `Less` than its parent (42_tree.md R153). -/
def HeapOrdered (h : List HeapEntry) : Prop :=
  ∀ i x y, 0 < i → h[i]? = some x → h[(i - 1) / 2]? = some y → x.less y = false

/-- Where re-initialisation puts all that it writes, but for `ERR` (10_state.md R38). -/
structure ReInitialised (s : State) : Prop where
  writer : s.wsr = 0 ∧ s.wcnt = 0 ∧ s.wbytes = 0
  reader : s.rsr = 0 ∧ s.rcnt = 0 ∧ s.rbytes = 0 ∧ s.rb = false
  pointers : s.cur = 0 ∧ s.root = 0 ∧ s.nextIdx = 0
  archiver : s.symcnt = 0 ∧ s.emit = 0 ∧ s.resA = 0 ∧ s.resB = 0
  flags : s.fl = false ∧ s.tv = false ∧ s.cv = false
  freq : ∀ sym, s.freqAt sym = 0
  heap : s.heapN = 0 ∧ s.heap = []
  views : s.leafView = false ∧ s.symView = 0

/-- The counts of an input (41_frequency.md R132). -/
def countsOf (xs : List Byte) : FreqRam :=
  Vector.ofFn fun i => BitVec.ofNat 64 (xs.count (BitVec.ofNat 8 i.val))

/-- The code table that `TBUILD` and `TCODES` derive from counts (42_tree.md R154, R159). -/
def codeTableOf (freq : FreqRam) : CodeRam :=
  let b := buildTree freq (Vector.replicate _ none)
  writeCodes (Vector.replicate _ none) ((treeCodes b.tree (heapTop b.heap)).getD [])

/-- The codewords of bytes, one after the other (44_archiver.md R194). -/
def codewordsOf (code : CodeRam) (xs : List Byte) : List Bit :=
  xs.flatMap fun x => (codeAt code x).getD []

/-- The header of the archive of an input: its length and its counts (20_memory.md R67). -/
def headerOf (xs : List Byte) : List Byte :=
  fieldBytes (BitVec.ofNat 64 xs.length) ++ tableBytes (countsOf xs)

/-- The payload bits of the archive of an input (20_memory.md R67). -/
def payloadBitsOf (xs : List Byte) : List Bit := codewordsOf (codeTableOf (countsOf xs)) xs

/-- `header ++ payload` is the archive of the input (20_memory.md R67). -/
def IsPayload (payload xs : List Byte) : Prop := Packed payload (payloadBitsOf xs)

/-- The bits presented to the walker one `WKADV` each. -/
def feedWalker : List Bit → State → Host.Outcome State Fault Refusal
  | [], s => .next s
  | b :: bs, s =>
    match exec (.wkadv b) s with
    | .next t => feedWalker bs t
    | .fault f => .fault f
    | .refused r => .refused r

/-- The calls a command has made between two states, the first call first (20_memory.md R65). -/
def newCalls (s t : State) : List StreamCall := t.io.callsSince s.io

/-- The bytes that calls have appended to the output: those that were accepted (20_memory.md R64). -/
def acceptedBytes (calls : List StreamCall) : List Byte :=
  calls.filterMap fun
    | .write v true => some v
    | .write _ false | .read _ | .rewind => none

/-- Where calls leave `IN.pos` (20_memory.md R61, R62). -/
def positionAfter (pos : Nat) (calls : List StreamCall) : Nat :=
  match calls with
  | [] => pos
  | .read (.byte _) :: rest => positionAfter (pos + 1) rest
  | .rewind :: rest => positionAfter 0 rest
  | .read .eof :: rest | .read .err :: rest | .write _ _ :: rest => positionAfter pos rest

/-- The call is an `InRead`, so it has taken a draw of the reads (20_memory.md R61). -/
def isRead : StreamCall → Bool
  | .read _ => true
  | .rewind | .write _ _ => false

/-- The call is an `OutWrite`, so it has taken a draw of the writes (20_memory.md R64). -/
def isWrite : StreamCall → Bool
  | .write _ _ => true
  | .rewind | .read _ => false

/-- The commands that make stream calls, and so can raise `E_IO` (60_exceptions.md R222, 20_memory.md R80). -/
def movesBytes : Instr → Bool
  | .wbit _ | .wcode _ | .wflush | .rbit | .fadds | .fsave | .fload | .csave | .cload | .esyms | .dsym | .encode
  | .decode => true
  | .nop | .init | .fadd _ | .tbuild | .tcodes | .trecon | .wkrst | .wkadv _ => false

/-- The command's `require` fails: the flag of each of the eleven commands that have one
(60_exceptions.md R225). -/
def outOfPhase (i : Instr) (s : State) : Bool :=
  match i with
  | .fadd _ | .fadds | .fload | .tbuild => s.fl
  | .tcodes | .wkrst | .wkadv _ | .dsym => !s.tv
  | .wcode _ | .esyms | .trecon => !s.cv
  | .nop | .init | .wbit _ | .wflush | .rbit | .fsave | .csave | .cload | .encode | .decode => false

/-- The commands that count the symbol, and for the reading ones the byte they read was it
(41_frequency.md R131, R132, 44_archiver.md R197). -/
def Counts (i : Instr) (sym : Symbol) (calls : List StreamCall) : Prop :=
  i = .fadd sym ∨ i ∈ [Instr.fadds, .encode] ∧ .read (.byte sym) ∈ calls

/-- The commands that reset the session: after them the flags may be 0 (10_state.md R28). -/
def startsSession : Instr → Bool
  | .init | .encode | .decode => true
  | .nop | .wbit _ | .wcode _ | .wflush | .rbit | .fadd _ | .fadds | .fsave | .fload | .tbuild | .tcodes
  | .trecon | .wkrst | .wkadv _ | .csave | .cload | .esyms | .dsym => false

end Sys2Proof.Safety
end

