-- ==== Sys2Proof/Certificates/Slice0/Obligations.lean ====
section
/-!
DEFINITION. The statements about the machine, for the provers. Each says which rule of spec/ it formalises;
in OBLIGATIONS.json each has its basis and its cites.
-/

open Sys2Proof Sys2Proof.Machine Sys2Proof.Safety

/-! ### Encoding -/

/-- 30_encoding.md R99: `Encode` is the inverse of `Decode` on the 21 commands, with every operand. -/
def Obligations.DecodeReadsBackEncodedCommand : Prop :=
  ∀ i : Instr, i.wellFormed = true ∧ decodeWord (encodeWord i) = some i

/-- 30_encoding.md R99: a word that decodes is the encoding of what it decodes to, so each command has one
word. -/
def Obligations.EncodedWordIsTheOnlyWordDecoded : Prop :=
  ∀ w i, decodeWord w = some i → encodeWord i = w

/-- 30_encoding.md R92, R94: a word is legal exactly when a row of the opcode map covers it, and no word is
covered by two rows. -/
def Obligations.WordIsLegalIffOneRowCoversIt : Prop :=
  opcodeTable.length = 21 ∧
  ∀ w, ((decodeWord w).isSome = true ↔ ∃ r ∈ opcodeTable, r.covers w = true) ∧
    ∀ r₁ ∈ opcodeTable, ∀ r₂ ∈ opcodeTable, r₁.covers w = true → r₂.covers w = true → r₁ = r₂

/-- 30_encoding.md R99: of the 65536 words 533 are legal. -/
def Obligations.LegalWordsAre533 : Prop :=
  (List.range 65536).countP (fun n => (decodeWord (BitVec.ofNat 16 n)).isSome) = 533

/-- 30_encoding.md R97, R99 and vector V1 of 95_test_vectors.md: words written out from the encoding. -/
def Obligations.SampleWordsDecode : Prop :=
  decodeWord 0x0000 = some .nop ∧ decodeWord 0x0001 = none ∧ decodeWord 0x0100 = some .init ∧
  decodeWord 0x0101 = none ∧ decodeWord 0x1001 = some (.wbit true) ∧ decodeWord 0x1002 = none ∧
  decodeWord 0x1163 = some (.wcode 0x63) ∧ decodeWord 0x1201 = none ∧ decodeWord 0x2000 = some .rbit ∧
  decodeWord 0x3041 = some (.fadd 0x41) ∧ decodeWord 0x3101 = none ∧ decodeWord 0x4200 = some .trecon ∧
  decodeWord 0x5101 = some (.wkadv true) ∧ decodeWord 0x5102 = none ∧ decodeWord 0x6300 = some .dsym ∧
  decodeWord 0x6400 = none ∧ decodeWord 0x7000 = some .encode ∧ decodeWord 0x7100 = some .decode ∧
  decodeWord 0x7200 = none ∧ decodeWord 0xFFFF = none

/-! ### The command port, fault entry, reset -/

/-- 60_exceptions.md R229, 00_scope.md R7: a step takes the next word the host presents and runs the command
it decodes to. -/
def Obligations.StepRunsTheDecodedCommand : Prop :=
  ∀ s w rest i, s.pending = .command w :: rest → decodeWord w = some i →
    step s = exec i { s with pending := rest }

/-- 30_encoding.md R94, 60_exceptions.md R225: an illegal word raises `E_ILLEGAL` and does nothing else than
fault entry. -/
def Obligations.IllegalWordRaisesEIllegal : Prop :=
  ∀ s w rest, Running s → s.pending = .command w :: rest → decodeWord w = none →
    step s = .next (faultEntry .eIllegal w { s with pending := rest }) ∧
    (s.wcnt = 0 → step s = .next { s with pending := rest, errCode := 5, errCmd := w })

/-- 60_exceptions.md R227: while a fault is recorded every word but 0x0100 is ignored, and no command but
`INIT` does anything; the registers read as before. -/
def Obligations.FaultedEngineIgnoresAllButInit : Prop :=
  ∀ s, ¬ Running s →
    (∀ w rest, s.pending = .command w :: rest → w ≠ 0x0100 →
      ∃ t, step s = .next t ∧ t = { s with pending := rest } ∧ ∀ a, regRead t a = regRead s a) ∧
    (∀ rest, s.pending = .command 0x0100 :: rest → step s = exec .init { s with pending := rest }) ∧
    ∀ i, i ≠ .init → exec i s = .next s

/-- 60_exceptions.md R235 and log entry 10: with nothing presented the engine idles, all state held. -/
def Obligations.IdleEngineHoldsItsState : Prop :=
  ∀ s, s.pending = [] → step s = .next s

/-- 60_exceptions.md R226: fault entry makes one flush attempt when bits are pending, an `Err` is ignored, and
code and word are recorded; nothing else changes. -/
def Obligations.FaultEntryFlushesAndRecords : Prop :=
  ∀ e w s,
    (s.wcnt = 0 → faultEntry e w s = { s with errCode := e.code, errCmd := w }) ∧
    (s.wcnt ≠ 0 → s.io.outAccepts = true →
      faultEntry e w s =
        { s with
          io := wroteBytes s.io [s.wsr <<< (8 - s.wcnt.toNat)]
          wbytes := s.wbytes + 1, wsr := 0, wcnt := 0, errCode := e.code, errCmd := w }) ∧
    (s.wcnt ≠ 0 → s.io.outAccepts = false →
      faultEntry e w s =
        { s with
          io := { s.io with
            writeDraws := s.io.writeDraws.tail
            calls := .write (s.wsr <<< (8 - s.wcnt.toNat)) false :: s.io.calls }
          errCode := e.code, errCmd := w })

/-- 60_exceptions.md R221, R226, 44_archiver.md R196: a fault that a command records is one of the six but
`E_ILLEGAL`, and it is recorded with that command's own word, a macro's too. -/
def Obligations.RecordedFaultNamesItsCommand : Prop :=
  ∀ i s t, Running s → exec i s = .next t → ¬ Running t →
    t.errCmd = encodeWord i ∧ t.errCode.toNat ≤ 6 ∧ t.errCode ≠ 5

/-- 60_exceptions.md R222 to R225: each fault code comes from its cause and from the commands that can raise
it. `E_IO` needs a failed call of a command that makes calls, `E_HEADER` and `E_EOF` an end of input, `E_SEQ` the
flag of that command, with nothing done before fault entry, `E_OVF` a count at `2^64 - 1`, which stays there. -/
def Obligations.FaultCodesComeFromTheirCauses : Prop :=
  ∀ i s t, Running s → exec i s = .next t →
    (t.errCode = 1 → movesBytes i = true ∧
      (.read .err ∈ newCalls s t ∨ ∃ v, .write v false ∈ newCalls s t)) ∧
    (t.errCode = 2 → .read .eof ∈ newCalls s t ∧ i ∈ [Instr.cload, .fload, .decode]) ∧
    (t.errCode = 3 → .read .eof ∈ newCalls s t ∧ i ∈ [Instr.rbit, .dsym, .decode]) ∧
    (t.errCode = 4 → outOfPhase i s = true ∧ t = faultEntry .eSeq (encodeWord i) s) ∧
    (t.errCode = 6 → ∃ sym, Counts i sym (newCalls s t) ∧
      (t.freqAt sym = BitVec.allOnes 64 ∨ t.symcnt = BitVec.allOnes 64))

/-- 60_exceptions.md R225, 10_state.md R28: a command out of its phase raises `E_SEQ` and has done nothing
before fault entry. -/
def Obligations.PhaseViolationRaisesESeq : Prop :=
  ∀ s, Running s →
    (s.fl = true →
      (∀ sym, exec (.fadd sym) s = .next (faultEntry .eSeq (encodeWord (.fadd sym)) s)) ∧
      exec .fadds s = .next (faultEntry .eSeq 0x3100 s) ∧
      exec .fload s = .next (faultEntry .eSeq 0x3300 s) ∧
      exec .tbuild s = .next (faultEntry .eSeq 0x4000 s)) ∧
    (s.tv = false →
      exec .tcodes s = .next (faultEntry .eSeq 0x4100 s) ∧
      exec .wkrst s = .next (faultEntry .eSeq 0x5000 s) ∧
      (∀ b, exec (.wkadv b) s = .next (faultEntry .eSeq (encodeWord (.wkadv b)) s)) ∧
      exec .dsym s = .next (faultEntry .eSeq 0x6300 s)) ∧
    (s.cv = false →
      (∀ sym, exec (.wcode sym) s = .next (faultEntry .eSeq (encodeWord (.wcode sym)) s)) ∧
      exec .esyms s = .next (faultEntry .eSeq 0x6200 s) ∧
      exec .trecon s = .next (faultEntry .eSeq 0x4200 s))

/-- 60_exceptions.md R228: a recorded fault is kept by every step but `INIT` and reset, also a reset that comes
while a command is taken (log entry 9), and each of these clears it. -/
def Obligations.OnlyInitAndResetClearTheFault : Prop :=
  ∀ s, ¬ Running s →
    (∀ t, step s = .next t →
      (t.errCode = s.errCode ∧ t.errCmd = s.errCmd) ∨
      (t.errCode = 0 ∧ t.errCmd = 0 ∧
        ((∃ rest, s.pending = .command 0x0100 :: rest) ∨ (∃ rest, s.pending = .reset :: rest) ∨
          ∃ w n rest, s.pending = .resetDuring w n :: rest))) ∧
    ∀ rest,
      s.pending = .command 0x0100 :: rest ∨ s.pending = .reset :: rest ∨
        (∃ w n, s.pending = .resetDuring w n :: rest) →
      ∃ t, step s = .next t ∧ t.errCode = 0 ∧ t.errCmd = 0 ∧ t.faultView = false ∧ t.pending = rest

/-- 10_state.md R38: reset, `INIT` and the start of a macro command give the re-initialisation state; the
streams are not reset, and a macro start does not write `ERR`. -/
def Obligations.ReInitialisationGivesTheResetTable : Prop :=
  ReInitialised State.reset ∧ Running State.reset ∧ State.reset.errCmd = 0 ∧
  (∀ s rest, s.pending = .reset :: rest →
    ∃ t, step s = .next t ∧ ReInitialised t ∧ Running t ∧ t.errCmd = 0 ∧ t.faultView = false ∧
      t.io = s.io ∧ t.pending = rest) ∧
  (∀ s, ∃ t, exec .init s = .next t ∧ ReInitialised t ∧ Running t ∧ t.errCmd = 0 ∧ t.faultView = false ∧
      t.tree = s.tree ∧ t.code = s.code ∧ t.io = s.io ∧ t.pending = s.pending) ∧
  ∀ s : State, ReInitialised s.sessionInit ∧ s.sessionInit.errCode = s.errCode ∧ s.sessionInit.errCmd = s.errCmd ∧
    s.sessionInit.tree = s.tree ∧ s.sessionInit.code = s.code ∧ s.sessionInit.io = s.io

/-- 70_reset_and_hazards.md R260: reset while a command runs abandons it; the bytes it already moved stay
moved, and the engine is as after reset. The calls made are the first `n` of the command's, and output, input
position and draws are as those calls leave them. The event is log entry 9. -/
def Obligations.ResetDuringCommandKeepsMovedBytes : Prop :=
  ∀ s w n rest t u, s.pending = .resetDuring w n :: rest → step s = .next t →
    takeWord w { s with pending := rest } = .next u →
    t = { State.reset with io := t.io, pending := rest } ∧
    newCalls s t = (newCalls s u).take n ∧
    t.io.outData = s.io.outData ++ acceptedBytes (newCalls s t) ∧
    t.io.inPos = positionAfter s.io.inPos (newCalls s t) ∧ t.io.inData = s.io.inData ∧
    t.io.readDraws = s.io.readDraws.drop ((newCalls s t).countP isRead) ∧
    t.io.writeDraws = s.io.writeDraws.drop ((newCalls s t).countP isWrite) ∧
    t.io.calls = (newCalls s t).reverse ++ s.io.calls ∧
    t.io.outData <+: u.io.outData ∧ (n = 0 → t.io = s.io) ∧ ((newCalls s u).length ≤ n → t.io = u.io)

/-! ### Session control -/

/-- 44_archiver.md R190. -/
def Obligations.NopChangesNothing : Prop :=
  encodeWord .nop = 0x0000 ∧ ∀ s, exec .nop s = .next s

/-- 44_archiver.md R191: executed also while a fault is recorded; it neither rewinds nor flushes. That the entries
of `HEAP` go with `HEAP_N`, where the rule keeps them unreachable, is the model's form (log entry 5). -/
def Obligations.InitStartsAFreshSession : Prop :=
  encodeWord .init = 0x0100 ∧
  ∀ s, exec .init s =
    .next { State.reset with tree := s.tree, code := s.code, io := s.io, pending := s.pending }

/-! ### Bit writer and bit reader -/

/-- 40_bitstream.md R113, R110. -/
def Obligations.WbitPutsOneBit : Prop :=
  ∀ b s, Running s →
    encodeWord (.wbit b) = 0x1000 + (BitVec.ofBool b).setWidth 16 ∧
    (s.wcnt ≠ 7 →
      exec (.wbit b) s = .next { s with wsr := s.wsr.extractLsb' 0 7 ++ BitVec.ofBool b, wcnt := s.wcnt + 1 }) ∧
    (s.wcnt = 7 → s.io.outAccepts = true →
      exec (.wbit b) s =
        .next { s with
          io := wroteBytes s.io [s.wsr.extractLsb' 0 7 ++ BitVec.ofBool b]
          wbytes := s.wbytes + 1, wsr := 0, wcnt := 0 }) ∧
    (s.wcnt = 7 → s.io.outAccepts = false →
      exec (.wbit b) s =
        .next (faultEntry .eIO (encodeWord (.wbit b))
          { s with io := s.io.afterWrite (s.wsr.extractLsb' 0 7 ++ BitVec.ofBool b) false }))

/-- 40_bitstream.md R114, R117: the codeword's bits follow the bits written before, and nothing but the
writer and the output changes. -/
def Obligations.WcodeAppendsTheCodeword : Prop :=
  ∀ s sym c, Running s → RegInv s → WritesSucceed s → s.cv = true → codeAt s.code sym = some c →
    ∃ t, exec (.wcode sym) s = .next t ∧
      writtenBits t = writtenBits s ++ c ∧
      t.wcnt.toNat = (s.wcnt.toNat + c.length) % 8 ∧ t.wsr.toNat < 2 ^ t.wcnt.toNat ∧
      t.wbytes = s.wbytes + BitVec.ofNat 64 ((s.wcnt.toNat + c.length) / 8) ∧
      t = { s with wsr := t.wsr, wcnt := t.wcnt, wbytes := t.wbytes, io := t.io } ∧
      t.io = wroteBytes s.io (t.io.outData.drop s.io.outData.length)

/-- 40_bitstream.md R115, R111. -/
def Obligations.WflushEmitsThePendingByte : Prop :=
  encodeWord .wflush = 0x1200 ∧
  ∀ s, Running s →
    (s.wcnt = 0 → exec .wflush s = .next s) ∧
    (s.wcnt ≠ 0 → s.io.outAccepts = true →
      exec .wflush s =
        .next { s with
          io := wroteBytes s.io [s.wsr <<< (8 - s.wcnt.toNat)]
          wbytes := s.wbytes + 1, wsr := 0, wcnt := 0 }) ∧
    (s.wcnt ≠ 0 → s.io.outAccepts = false →
      exec .wflush s =
        .next (faultEntry .eIO 0x1200 { s with io := s.io.afterWrite (s.wsr <<< (8 - s.wcnt.toNat)) false }))

/-- 40_bitstream.md R116, R112. -/
def Obligations.RbitDeliversTheNextBit : Prop :=
  encodeWord .rbit = 0x2000 ∧
  ∀ s, Running s →
    (s.rcnt ≠ 0 →
      exec .rbit s = .next { s with rb := s.rsr.msb, rsr := s.rsr <<< 1, rcnt := s.rcnt - 1 }) ∧
    (∀ v, s.rcnt = 0 → s.io.inAnswer = .byte v →
      exec .rbit s =
        .next { s with
          rb := v.msb, rsr := v <<< 1, rcnt := 7, rbytes := s.rbytes + 1, io := tookBytes s.io 1 }) ∧
    (s.rcnt = 0 → s.io.inAnswer = .eof →
      exec .rbit s = .next (faultEntry .eEof 0x2000 { s with io := sawEof s.io })) ∧
    (s.rcnt = 0 → s.io.inAnswer = .err →
      exec .rbit s = .next (faultEntry .eIO 0x2000 { s with io := s.io.afterRead .err }))

/-- 40_bitstream.md R118: `RBIT` delivers the bits of the input in stream order and takes a byte only when
none is buffered. -/
def Obligations.RbitReadsTheInputInStreamOrder : Prop :=
  ∀ s b rest, Running s → RegInv s → ReadsSucceed s → inputBits s = b :: rest →
    ∃ t, exec .rbit s = .next t ∧ t.rb = b ∧ inputBits t = rest ∧
      t = { s with rb := t.rb, rsr := t.rsr, rcnt := t.rcnt, rbytes := t.rbytes, io := t.io } ∧
      (s.rcnt ≠ 0 → t.io = s.io) ∧ (s.rcnt = 0 → t.io = tookBytes s.io 1)

/-! ### Frequency accumulator -/

/-- 41_frequency.md R131 with the helper of R130. -/
def Obligations.FaddCountsOneOccurrence : Prop :=
  ∀ s sym, Running s →
    encodeWord (.fadd sym) = 0x3000 + sym.setWidth 16 ∧
    (s.fl = true → exec (.fadd sym) s = .next (faultEntry .eSeq (encodeWord (.fadd sym)) s)) ∧
    (s.fl = false → s.freqAt sym ≠ BitVec.allOnes 64 → s.symcnt ≠ BitVec.allOnes 64 →
      ∃ t, exec (.fadd sym) s = .next t ∧
        t = { s with freq := t.freq, symcnt := s.symcnt + 1 } ∧ t.freqAt sym = s.freqAt sym + 1 ∧
        ∀ x, x ≠ sym → t.freqAt x = s.freqAt x) ∧
    (s.fl = false → s.freqAt sym = BitVec.allOnes 64 ∨ s.symcnt = BitVec.allOnes 64 →
      exec (.fadd sym) s = .next (faultEntry .eOvf (encodeWord (.fadd sym)) s))

/-- 41_frequency.md R132: every byte from the present position to the end is counted once. -/
def Obligations.FaddsCountsTheRestOfTheInput : Prop :=
  ∀ s, Running s → s.fl = false → ReadsSucceed s →
    (∀ sym, (s.freqAt sym).toNat + (restOfInput s).count sym < 2 ^ 64) →
    s.symcnt.toNat + (restOfInput s).length < 2 ^ 64 →
    ∃ t, exec .fadds s = .next t ∧
      t = { s with
        freq := t.freq
        symcnt := s.symcnt + BitVec.ofNat 64 (restOfInput s).length
        io := sawEof (tookBytes s.io (restOfInput s).length) } ∧
      ∀ sym, t.freqAt sym = s.freqAt sym + BitVec.ofNat 64 ((restOfInput s).count sym)

/-- 41_frequency.md R133, 20_memory.md R68: 2048 bytes, the byte at offset `8*sym + k` being bits `8*k+7` to
`8*k` of `FREQ[sym]`; the first rejected byte ends the command with `E_IO`. -/
def Obligations.FsaveWritesTheTable : Prop :=
  encodeWord .fsave = 0x3200 ∧
  ∀ s, Running s →
    ∃ bytes : List Byte, bytes.length = 2048 ∧
      (∀ sym k, k < 8 →
        bytes[8 * sym.toNat + k]? = some ((s.freqAt sym).extractLsb' (8 * k) 8)) ∧
      (WritesSucceed s → exec .fsave s = .next { s with io := wroteBytes s.io bytes }) ∧
      ∀ j v, s.io.writeDraws[j]? = some true → (∀ k < j, s.io.writeDraws[k]? = some false) →
        bytes[j]? = some v →
        exec .fsave s =
          .next (faultEntry .eIO 0x3200
            { s with io := (wroteBytes s.io (bytes.take j)).afterWrite v false })

/-- 41_frequency.md R134, 20_memory.md R68: the next 2048 bytes become the table. -/
def Obligations.FloadReadsTheTable : Prop :=
  ∀ s, Running s → s.fl = false → ReadsSucceed s → 2048 ≤ (restOfInput s).length →
    ∃ t, exec .fload s = .next t ∧ t = { s with freq := t.freq, io := tookBytes s.io 2048 } ∧
      ∀ sym k, k < 8 →
        (restOfInput s)[8 * sym.toNat + k]? = some ((t.freqAt sym).extractLsb' (8 * k) 8)

/-- 41_frequency.md R134, 60_exceptions.md R223: input that ends inside the table raises `E_HEADER`; the
entries completed before hold their new values, all others their old ones. -/
def Obligations.FloadOnShortInputIsEHeader : Prop :=
  ∀ s, Running s → s.fl = false → ReadsSucceed s → (restOfInput s).length < 2048 →
    ∃ freq, exec .fload s =
        .next (faultEntry .eHeader 0x3300
          { s with freq := freq, io := sawEof (tookBytes s.io (restOfInput s).length) }) ∧
      ∀ sym,
        ((restOfInput s).length < 8 * sym.toNat + 8 →
          ({ s with freq := freq } : State).freqAt sym = s.freqAt sym) ∧
        (8 * sym.toNat + 8 ≤ (restOfInput s).length →
          ∀ k, k < 8 → (restOfInput s)[8 * sym.toNat + k]? =
            some ((({ s with freq := freq } : State).freqAt sym).extractLsb' (8 * k) 8))

/-- 41_frequency.md R135: `FLOAD` of the bytes that `FSAVE` wrote gives the table back, whatever it holds. -/
def Obligations.FloadInvertsFsave : Prop :=
  ∀ s t u v bytes more, Running s → exec .fsave s = .next t → Running t →
    t.io.outData = s.io.outData ++ bytes →
    Running u → u.fl = false → restOfInput u = bytes ++ more → exec .fload u = .next v → Running v →
    bytes.length = 2048 ∧ v.freq = s.freq

/-! ### Tree construction, code derivation, reconstruction -/

/-- 42_tree.md R151 to R153: the array keeps the heap property and its entries, and what is extracted is a
least entry. -/
def Obligations.HeapExtractsALeastEntry : Prop :=
  (∀ h e, HeapOrdered h → HeapOrdered (heapInsert h e) ∧ (heapInsert h e).Perm (e :: h)) ∧
  ∀ h, HeapOrdered h → h ≠ [] →
    ∃ top h', heapExtractMin h = some (top, h') ∧ h.Perm (top :: h') ∧ HeapOrdered h' ∧
      ∀ x ∈ h, x.less top = false

/-- 42_tree.md R154, R157 (a), (b), (c): 511 entries, the leaves at their symbols, the root at 510 with the
sum of all counts, one live heap entry; nothing else changes. -/
def Obligations.TbuildWritesLeavesAndRoot : Prop :=
  encodeWord .tbuild = 0x4000 ∧
  ∀ s, Running s → s.fl = false →
    ∃ t w, exec .tbuild s = .next t ∧
      t = { s with
        fl := true, tv := true, root := 510, cur := 510, nextIdx := 511, heap := [⟨w, 510⟩]
        tree := t.tree } ∧
      (∀ sym : Symbol, nodeAt t.tree (leafIndex sym) =
        some ⟨true, sym, 0, 0, (s.freqAt sym).setWidth 72⟩) ∧
      (∃ n, nodeAt t.tree 510 = some n ∧ n.leaf = false ∧ n.w = w) ∧
      w.toNat = (allSymbols.map fun sym => (s.freqAt sym).toNat).sum

/-- 42_tree.md R157 (b), (d), (e), (g), R156: the entries 256 to 510 are internal nodes with two different
children of smaller index, each node but 510 is the child of exactly one, weights are exact sums and do
not decrease. -/
def Obligations.TbuildInternalNodesFormOneTree : Prop :=
  ∀ s t, Running s → s.fl = false → exec .tbuild s = .next t →
    (∀ i : NodeIndex, 256 ≤ i.toNat → i.toNat ≤ 510 →
      ∃ n l r, nodeAt t.tree i = some n ∧ n.leaf = false ∧ n.sym = 0 ∧ n.left.toNat < i.toNat ∧
        n.right.toNat < i.toNat ∧ n.left ≠ n.right ∧
        nodeAt t.tree n.left = some l ∧ nodeAt t.tree n.right = some r ∧
        n.w.toNat = l.w.toNat + r.w.toNat) ∧
    (∀ j : NodeIndex, j.toNat < 510 →
      ∃ i b n, nodeAt t.tree i = some n ∧ n.leaf = false ∧ n.child b = j ∧
        ∀ i' b' n', nodeAt t.tree i' = some n' → n'.leaf = false → n'.child b' = j → i' = i ∧ b' = b) ∧
    ∀ (i j : NodeIndex) (n m : Node), 256 ≤ i.toNat → i.toNat ≤ j.toNat →
      nodeAt t.tree i = some n → nodeAt t.tree j = some m → n.w.toNat ≤ m.w.toNat

/-- 42_tree.md R157 (i): the tree is a function of the counts alone. -/
def Obligations.TbuildDependsOnTheCountsAlone : Prop :=
  ∀ s u t v, Running s → Running u → s.fl = false → u.fl = false → s.freq = u.freq →
    exec .tbuild s = .next t → exec .tbuild u = .next v →
    t.tree = v.tree ∧ t.root = v.root ∧ t.cur = v.cur ∧ t.nextIdx = v.nextIdx ∧ t.heap = v.heap

/-- 42_tree.md R157, R158, R160: what `TBUILD` leaves is a tree in which every symbol has exactly one path,
of 1 to 255 bits. -/
def Obligations.TbuildGivesEverySymbolOnePath : Prop :=
  ∀ s t, Running s → s.fl = false → exec .tbuild s = .next t →
    TreeOk t.tree t.root ∧
    ∀ sym, ∃ p, PathIs t.tree t.root sym p ∧ 1 ≤ p.length ∧ p.length ≤ 255 ∧
      ∀ q, PathIs t.tree t.root sym q → q = p

/-- 42_tree.md R159: each symbol's codeword becomes its path; no stream is touched and the walker does not
move. -/
def Obligations.TcodesWritesEveryPath : Prop :=
  encodeWord .tcodes = 0x4100 ∧
  ∀ s, Running s → s.tv = true → TreeOk s.tree s.root →
    ∃ t, exec .tcodes s = .next t ∧ t = { s with code := t.code, cv := true } ∧
      ∀ sym p, codeAt t.code sym = some p ↔ PathIs s.tree s.root sym p

/-- 42_tree.md R160 (a) to (d): every symbol has a codeword of 1 to 255 bits, no codeword is a prefix of
another symbol's, and the code is complete. -/
def Obligations.CodeTableIsPrefixFreeAndComplete : Prop :=
  ∀ s, Good s → s.cv = true →
    (∀ sym, ∃ c, codeAt s.code sym = some c ∧ 1 ≤ c.length ∧ c.length ≤ 255) ∧
    (∀ x y c d, codeAt s.code x = some c → codeAt s.code y = some d → c <+: d → x = y) ∧
    (allSymbols.map fun sym => 2 ^ (255 - ((codeAt s.code sym).getD []).length)).sum = 2 ^ 255

/-- 42_tree.md R160 (e): with one symbol counted and all others 0, that symbol's codeword is the single
bit 1. -/
def Obligations.LoneSymbolHasCodewordOne : Prop :=
  ∀ s sym, Running s → s.fl = false → s.freqAt sym ≠ 0 → (∀ x, x ≠ sym → s.freqAt x = 0) →
    ∃ t u, exec .tbuild s = .next t ∧ exec .tcodes t = .next u ∧ codeAt u.code sym = some [true]

/-- 42_tree.md R161, R162: `TRECON` builds a tree with the same paths, root 256, leaves with the counts,
internal weights 0, and `NEXT = 511`; nothing else changes. -/
def Obligations.TreconKeepsEveryPath : Prop :=
  encodeWord .trecon = 0x4200 ∧
  ∀ s, Running s → Good s → s.cv = true →
    ∃ t, exec .trecon s = .next t ∧
      t = { s with tree := t.tree, root := 256, cur := 256, nextIdx := 511, tv := true } ∧
      TreeOk t.tree 256 ∧
      (∀ sym p, PathIs t.tree 256 sym p ↔ codeAt s.code sym = some p) ∧
      (∀ sym : Symbol, nodeAt t.tree (leafIndex sym) =
        some ⟨true, sym, 0, 0, (s.freqAt sym).setWidth 72⟩) ∧
      ∀ i : NodeIndex, 256 ≤ i.toNat → i.toNat ≤ 510 →
        ∃ n, nodeAt t.tree i = some n ∧ n.leaf = false ∧ n.sym = 0 ∧ n.w = 0 ∧
          n.left ≠ 511 ∧ n.right ≠ 511

/-! ### Walker -/

/-- 43_walker.md R182. -/
def Obligations.WkrstReturnsToTheRoot : Prop :=
  encodeWord .wkrst = 0x5000 ∧
  ∀ s, Running s →
    (s.tv = true → exec .wkrst s = .next { s with cur := s.root }) ∧
    (s.tv = false → exec .wkrst s = .next (faultEntry .eSeq 0x5000 s)) ∧
    (Good s → s.tv = true → ({ s with cur := s.root } : State).leafView = false)

/-- 43_walker.md R183, R181: the bit is applied at `CUR`, or at the root when `CUR` is a leaf. -/
def Obligations.WkadvFollowsTheBit : Prop :=
  ∀ s b, Running s →
    encodeWord (.wkadv b) = 0x5100 + (BitVec.ofBool b).setWidth 16 ∧
    (∀ n, s.tv = true → nodeAt s.tree s.cur = some n → n.leaf = false →
      exec (.wkadv b) s = .next { s with cur := if b then n.right else n.left }) ∧
    (∀ n m, s.tv = true → nodeAt s.tree s.cur = some n → n.leaf = true → nodeAt s.tree s.root = some m →
      exec (.wkadv b) s = .next { s with cur := if b then m.right else m.left }) ∧
    (s.tv = false → exec (.wkadv b) s = .next (faultEntry .eSeq (encodeWord (.wkadv b)) s))

/-- 43_walker.md R185: fed the bits of a path, from the root or from a leaf, the walker shows `LEAF = 0`
after every bit but the last, and `LEAF = 1` and the symbol after the last. -/
def Obligations.WalkerDecodesAPath : Prop :=
  ∀ s sym p, Running s → Good s → s.tv = true → s.cur = s.root ∨ s.leafView = true →
    PathIs s.tree s.root sym p →
    (∃ t, feedWalker p s = .next t ∧ t = { s with cur := t.cur } ∧ t.leafView = true ∧ t.symView = sym) ∧
    ∀ q, q <+: p → q ≠ [] → q ≠ p → ∃ t, feedWalker q s = .next t ∧ t.leafView = false

/-! ### Archiver -/

/-- 44_archiver.md R192. -/
def Obligations.CsaveWritesTheCount : Prop :=
  encodeWord .csave = 0x6000 ∧
  ∀ s, Running s →
    ∃ bytes : List Byte, bytes.length = 8 ∧
      (∀ k, k < 8 → bytes[k]? = some (s.symcnt.extractLsb' (8 * k) 8)) ∧
      (WritesSucceed s → exec .csave s = .next { s with io := wroteBytes s.io bytes }) ∧
      ∀ j v, s.io.writeDraws[j]? = some true → (∀ k < j, s.io.writeDraws[k]? = some false) →
        bytes[j]? = some v →
        exec .csave s =
          .next (faultEntry .eIO 0x6000
            { s with io := (wroteBytes s.io (bytes.take j)).afterWrite v false })

/-- 44_archiver.md R193: the next 8 bytes become `SYMCNT`; fewer raise `E_HEADER`, a failed read `E_IO`, and
`SYMCNT` keeps its value. -/
def Obligations.CloadReadsTheCount : Prop :=
  encodeWord .cload = 0x6100 ∧
  ∀ s, Running s →
    (ReadsSucceed s → 8 ≤ (restOfInput s).length →
      ∃ v, exec .cload s = .next { s with symcnt := v, io := tookBytes s.io 8 } ∧
        ∀ k, k < 8 → (restOfInput s)[k]? = some (v.extractLsb' (8 * k) 8)) ∧
    (ReadsSucceed s → (restOfInput s).length < 8 →
      exec .cload s =
        .next (faultEntry .eHeader 0x6100
          { s with io := sawEof (tookBytes s.io (restOfInput s).length) })) ∧
    ∀ j, j < 8 → j ≤ (restOfInput s).length → s.io.readDraws[j]? = some true →
      (∀ k < j, s.io.readDraws[k]? = some false) →
      exec .cload s =
        .next (faultEntry .eIO 0x6100 { s with io := (tookBytes s.io j).afterRead .err })

/-- 44_archiver.md R194: the codewords of the bytes from the present position to the end follow the bits
written before; the last partial byte stays pending. -/
def Obligations.EsymsEncodesTheRestOfTheInput : Prop :=
  ∀ s, Running s → Good s → s.cv = true → ReadsSucceed s → WritesSucceed s →
    ∃ t, exec .esyms s = .next t ∧
      writtenBits t = writtenBits s ++ codewordsOf s.code (restOfInput s) ∧
      t.wcnt.toNat = (s.wcnt.toNat + (codewordsOf s.code (restOfInput s)).length) % 8 ∧
      t.wbytes = s.wbytes +
        BitVec.ofNat 64 ((s.wcnt.toNat + (codewordsOf s.code (restOfInput s)).length) / 8) ∧
      t = { s with wsr := t.wsr, wcnt := t.wcnt, wbytes := t.wbytes, io := t.io } ∧
      t.io.inData = s.io.inData ∧ t.io.inPos = s.io.inPos + (restOfInput s).length

/-- 44_archiver.md R195: from wherever the walker stands, the bits up to the next leaf are taken, its byte is
written and `EMIT` counts it; bits behind stay to be delivered. -/
def Obligations.DsymDecodesOneSymbol : Prop :=
  ∀ s sym q p rest, Running s → Good s → s.tv = true → ReadsSucceed s → WritesSucceed s →
    WalkedBits s q → PathIs s.tree s.root sym (q ++ p) → inputBits s = p ++ rest →
    ∃ t, exec .dsym s = .next t ∧
      t = { s with
        rsr := t.rsr, rcnt := t.rcnt, rbytes := t.rbytes, cur := t.cur, emit := s.emit + 1, io := t.io } ∧
      t.leafView = true ∧ t.symView = sym ∧ inputBits t = rest ∧ t.rcnt.toNat < 8 ∧
      t.io.outData = s.io.outData ++ [sym] ∧ t.io.inData = s.io.inData

/-- 44_archiver.md R195, 60_exceptions.md R224: input that ends inside a codeword raises `E_EOF`; no byte is
written, `EMIT` is not counted, and `CUR` stays where the last `Advance` put it, or where it was if no bit was
left. -/
def Obligations.DsymInsideACodewordIsEEof : Prop :=
  ∀ s q, Running s → Good s → s.tv = true → ReadsSucceed s → WalkedBits s q →
    (∀ sym p, PathIs s.tree s.root sym (q ++ p) → ¬ p <+: inputBits s) →
    ∃ t, exec .dsym s = .next (faultEntry .eEof 0x6300 t) ∧
      t = { s with rsr := t.rsr, rcnt := t.rcnt, rbytes := t.rbytes, cur := t.cur, io := t.io } ∧
      inputBits t = [] ∧ t.io.outData = s.io.outData ∧
      (inputBits s = [] → t.cur = s.cur) ∧
      (inputBits s ≠ [] → walkFrom s.tree s.root (q ++ inputBits s) = some t.cur)

/-- 44_archiver.md R197, R200, 20_memory.md R67: `ENCODE` appends the archive of the input and reports its
sizes. -/
def Obligations.EncodeWritesTheArchive : Prop :=
  encodeWord .encode = 0x7000 ∧
  ∀ s, Running s → ReadsSucceed s → WritesSucceed s → s.io.inData.length < 2 ^ 64 →
    ∃ t payload, exec .encode s = .next t ∧
      IsPayload payload s.io.inData ∧
      t.io.outData = s.io.outData ++ headerOf s.io.inData ++ payload ∧
      (headerOf s.io.inData).length = 2056 ∧
      t.resA = BitVec.ofNat 64 s.io.inData.length ∧
      t.resB = BitVec.ofNat 64 (2056 + payload.length) ∧
      t.wbytes = BitVec.ofNat 64 payload.length ∧
      t.symcnt = t.resA ∧ t.freq = countsOf s.io.inData ∧ t.code = codeTableOf (countsOf s.io.inData) ∧
      t.fl = true ∧ t.tv = true ∧ t.cv = true ∧ t.root = 510 ∧ t.cur = 510 ∧ t.nextIdx = 511 ∧
      t.wsr = 0 ∧ t.wcnt = 0 ∧ t.rsr = 0 ∧ t.rcnt = 0 ∧ t.rbytes = 0 ∧ t.rb = false ∧ t.emit = 0 ∧
      Running t ∧ t.errCmd = s.errCmd ∧ t.pending = s.pending ∧
      t.io.inData = s.io.inData ∧ t.io.inPos = s.io.inData.length

/-- 44_archiver.md R198, R200: `DECODE` of an archive, whatever follows it, appends the input it was made from
and reports the sizes; no byte behind the archive is read. -/
def Obligations.DecodeReadsTheArchive : Prop :=
  encodeWord .decode = 0x7100 ∧
  ∀ s xs payload more, Running s → ReadsSucceed s → WritesSucceed s → xs.length < 2 ^ 64 →
    IsPayload payload xs → s.io.inData = headerOf xs ++ payload ++ more →
    ∃ t, exec .decode s = .next t ∧
      t.io.outData = s.io.outData ++ xs ∧
      t.resA = BitVec.ofNat 64 (2056 + payload.length) ∧ t.resB = BitVec.ofNat 64 xs.length ∧
      t.rbytes = BitVec.ofNat 64 payload.length ∧
      t.symcnt = t.resB ∧ t.emit = t.resB ∧ t.freq = countsOf xs ∧ t.code = codeTableOf (countsOf xs) ∧
      t.fl = true ∧ t.tv = true ∧ t.cv = true ∧ t.root = 510 ∧ t.nextIdx = 511 ∧
      t.wsr = 0 ∧ t.wcnt = 0 ∧ t.wbytes = 0 ∧ t.rb = false ∧
      Running t ∧ t.errCmd = s.errCmd ∧ t.pending = s.pending ∧
      t.io.inData = s.io.inData ∧ t.io.inPos = 2056 + payload.length

/-- 44_archiver.md R201 (a): whatever the draws, if `ENCODE` of an input ends without a fault on an empty
output and `DECODE` of what it wrote ends without a fault on an empty output, the input is given back. -/
def Obligations.DecodeInvertsEncode : Prop :=
  ∀ s t u v, Running s → s.io.outData = [] → exec .encode s = .next t → Running t →
    Running u → u.io.inData = t.io.outData → u.io.outData = [] → exec .decode u = .next v → Running v →
    v.io.outData = s.io.inData

/-- 60_exceptions.md R223: `DECODE` of fewer than 2056 bytes is the malformed-header fault; nothing is
written and no result is reported. -/
def Obligations.DecodeOfAShortHeaderIsEHeader : Prop :=
  ∀ s, Running s → ReadsSucceed s → s.io.inData.length < 2056 →
    ∃ t, exec .decode s = .next t ∧ t.errCode = 2 ∧ t.errCmd = 0x7100 ∧ t.io.outData = s.io.outData ∧
      t.resA = 0 ∧ t.resB = 0 ∧ t.fl = false ∧ t.tv = false ∧ t.cv = false

/-- 70_reset_and_hazards.md R263: the host-driven sequence has the effect of `ENCODE` on the streams, the
memories, the flags and the counters; only the results are not written. The host's rewind is log entry
14. -/
def Obligations.HostDrivenEncodeAgreesWithEncode : Prop :=
  ∀ s, Running s → ReadsSucceed s → WritesSucceed s → s.io.inData.length < 2 ^ 64 →
    ∃ t u, exec .encode s = .next t ∧
      Sys2Proof.core.run 10
        { s with
          pending := [.command 0x0100, .rewindInput, .command 0x3100, .command 0x4000, .command 0x4100,
            .command 0x6000, .command 0x3200, .rewindInput, .command 0x6200, .command 0x1200] } = .next u ∧
      u.io.outData = t.io.outData ∧ u.io.inPos = t.io.inPos ∧ u.freq = t.freq ∧ u.tree = t.tree ∧
      u.code = t.code ∧ u.fl = t.fl ∧ u.tv = t.tv ∧ u.cv = t.cv ∧ u.symcnt = t.symcnt ∧ u.emit = t.emit ∧
      u.wbytes = t.wbytes ∧ u.rbytes = t.rbytes ∧ u.resA = 0 ∧ u.resB = 0

/-- 70_reset_and_hazards.md R263: the host-driven sequence, with one `DSYM` for each symbol of the archive, has the
effect of `DECODE`; only the results are not written. The host's rewind is log entry 14. -/
def Obligations.HostDrivenDecodeAgreesWithDecode : Prop :=
  ∀ s xs payload more, Running s → ReadsSucceed s → WritesSucceed s → xs.length < 2 ^ 64 →
    IsPayload payload xs → s.io.inData = headerOf xs ++ payload ++ more →
    ∃ t u, exec .decode s = .next t ∧
      Sys2Proof.core.run (6 + xs.length)
        { s with
          pending := [.command 0x0100, .rewindInput, .command 0x6100, .command 0x3300, .command 0x4000,
            .command 0x4100] ++ List.replicate xs.length (.command 0x6300) } = .next u ∧
      u.io.outData = t.io.outData ∧ u.io.inPos = t.io.inPos ∧ u.freq = t.freq ∧ u.tree = t.tree ∧
      u.code = t.code ∧ u.fl = t.fl ∧ u.tv = t.tv ∧ u.cv = t.cv ∧ u.symcnt = t.symcnt ∧ u.emit = t.emit ∧
      u.wbytes = t.wbytes ∧ u.rbytes = t.rbytes ∧ u.cur = t.cur ∧ u.rsr = t.rsr ∧ u.rcnt = t.rcnt ∧
      u.resA = 0 ∧ u.resB = 0

/-! ### The whole machine -/

/-- 10_state.md R29, R31: `FAULT`, `LEAF` and `SYMV` as functions of `ERR.CODE`, `TV` and `TREE[CUR]`, and the
register read map that shows them. -/
def Obligations.RegisterReadMap : Prop :=
  ∀ s : State,
    (s.faultView = true ↔ s.errCode ≠ 0) ∧
    (s.leafView = true ↔ s.tv = true ∧ ∃ n, nodeAt s.tree s.cur = some n ∧ n.leaf = true) ∧
    (s.leafView = true → ∃ n, nodeAt s.tree s.cur = some n ∧ s.symView = n.sym) ∧
    (s.leafView = false → s.symView = 0) ∧
    (∀ k, (regRead s 0x0).getLsbD k =
      ([s.fl, s.tv, s.cv, s.leafView, s.rb, s.faultView][k]?).getD false) ∧
    (regRead s 0x1).extractLsb' 0 4 = s.errCode ∧ (regRead s 0x1).extractLsb' 4 12 = 0 ∧
    (regRead s 0x1).extractLsb' 16 16 = s.errCmd ∧ (regRead s 0x1).extractLsb' 32 32 = 0 ∧
    regRead s 0x2 = s.symcnt ∧ regRead s 0x3 = s.emit ∧ regRead s 0x4 = s.wbytes ∧
    regRead s 0x5 = s.rbytes ∧ regRead s 0x6 = s.resA ∧ regRead s 0x7 = s.resB ∧
    (regRead s 0x8).extractLsb' 0 8 = s.wsr ∧ (regRead s 0x8).extractLsb' 8 3 = s.wcnt ∧
    (regRead s 0x8).extractLsb' 11 53 = 0 ∧
    (regRead s 0x9).extractLsb' 0 8 = s.rsr ∧ (regRead s 0x9).extractLsb' 8 4 = s.rcnt ∧
    (regRead s 0x9).extractLsb' 12 52 = 0 ∧
    (regRead s 0xA).extractLsb' 0 9 = s.cur ∧ (regRead s 0xA).extractLsb' 9 7 = 0 ∧
    (regRead s 0xA).extractLsb' 16 9 = s.root ∧ (regRead s 0xA).extractLsb' 25 7 = 0 ∧
    (regRead s 0xA).extractLsb' 32 9 = s.nextIdx ∧ (regRead s 0xA).extractLsb' 41 23 = 0 ∧
    (regRead s 0xB).extractLsb' 0 8 = s.symView ∧ (regRead s 0xB).getLsbD 8 = s.leafView ∧
    (regRead s 0xB).extractLsb' 9 55 = 0 ∧
    ∀ a : BitVec 4, 0xC ≤ a.toNat → regRead s a = 0

/-- 10_state.md R28, R32: no command but those that start a session clears a flag, and while `FL = 1` none
writes `FREQ`; no command but `TBUILD` and `TRECON` writes `TREE` (R33) and none but `TCODES` writes
`CODE` (R34). -/
def Obligations.FlagsAndMemoriesKeepTheirLifecycle : Prop :=
  ∀ i s t, startsSession i = false → exec i s = .next t →
    (s.fl = true → t.fl = true) ∧ (s.tv = true → t.tv = true) ∧ (s.cv = true → t.cv = true) ∧
    (s.fl = true → t.freq = s.freq) ∧ (i ≠ .tbuild → i ≠ .trecon → t.tree = s.tree) ∧
    (i ≠ .tcodes → t.code = s.code)

/-- 20_memory.md R63, R60: a step only appends to the output and never changes the input's bytes; what it
wrote before, it does not read. That no event of the host connects other streams is log entry 17. -/
def Obligations.OutputIsOnlyAppendedTo : Prop :=
  ∀ s t, step s = .next t →
    s.io.outData <+: t.io.outData ∧ t.io.inData = s.io.inData ∧
    ∀ before, step { s with io := { s.io with outData := before ++ s.io.outData } } =
      .next { t with io := { t.io with outData := before ++ t.io.outData } }

/-- 20_memory.md R80: the commands that are not listed there make no stream call, unless fault entry flushes
the pending bits. -/
def Obligations.OtherCommandsTouchNoStream : Prop :=
  ∀ i s t, i ∈ [Instr.nop, .init, .tbuild, .tcodes, .trecon, .wkrst, .wkadv false, .wkadv true] ∨
      (∃ sym, i = .fadd sym) →
    exec i s = .next t → Running t ∨ s.wcnt = 0 → t.io = s.io

/-- 10_state.md R22, R23, R28, R30, R35, 20_memory.md R60: every step keeps what the registers promise at a
command boundary. -/
def Obligations.EveryStepKeepsTheRegisterInvariant : Prop :=
  ∀ s t, RegInv s → step s = .next t → RegInv t

/-- Reset is a good state. -/
def Obligations.ResetIsGood : Prop := Good State.reset

/-- 42_tree.md R157, R160, R162, 43_walker.md R180, 70_reset_and_hazards.md R275: from a good state every step
answers a next state, and that state is good: no run meets a `TREE` or `CODE` that is none. -/
def Obligations.EveryStepFromAGoodStateGoesOn : Prop :=
  ∀ s, Good s → ∃ t, step s = .next t ∧ Good t

/-! ### The merge order -/

/-- 42_tree.md R150, R154, R155: each internal node `i` of `TBUILD` joins the two least of the nodes that were
live when it was made, by weight first and index second. The left child comes before the right one in this
order, and the right one before every other node below `i` whose parent is above `i`. -/
def Obligations.TbuildMergesTheTwoLeast : Prop :=
  ∀ s, Running s → s.fl = false →
    ∃ t, exec .tbuild s = .next t ∧
      ∀ i : NodeIndex, 256 ≤ i.toNat → i.toNat ≤ 510 →
        ∃ n l r, nodeAt t.tree i = some n ∧ n.leaf = false ∧
          nodeAt t.tree n.left = some l ∧ nodeAt t.tree n.right = some r ∧
          (l.w.toNat < r.w.toNat ∨ l.w.toNat = r.w.toNat ∧ n.left.toNat < n.right.toNat) ∧
          ∀ (j k : NodeIndex) (m parent : Node) (b : Bit),
            j.toNat < i.toNat → i.toNat < k.toNat → nodeAt t.tree j = some m →
            nodeAt t.tree k = some parent → parent.leaf = false → parent.child b = j →
            r.w.toNat < m.w.toNat ∨ r.w.toNat = m.w.toNat ∧ n.right.toNat < j.toNat
end

