-- ==== Sys2Proof/Laws/State.lean ====
section
/-!
SUPPORT. One lemma per field per named update, true by rfl, so that no later proof unfolds an update; the
read-after-write lemmas of the memories; what each stream update does to each part of the streams.
-/
namespace Sys2Proof.Machine

variable (s : State) (sym : Symbol) (v : Count) (e : ErrCode) (w : CmdWord) (io : Streams)

/-! ### `FREQ[sym] <- v` -/

@[simp] theorem State.setFreq_wsr : (s.setFreq sym v).wsr = s.wsr := rfl
@[simp] theorem State.setFreq_wcnt : (s.setFreq sym v).wcnt = s.wcnt := rfl
@[simp] theorem State.setFreq_wbytes : (s.setFreq sym v).wbytes = s.wbytes := rfl
@[simp] theorem State.setFreq_rsr : (s.setFreq sym v).rsr = s.rsr := rfl
@[simp] theorem State.setFreq_rcnt : (s.setFreq sym v).rcnt = s.rcnt := rfl
@[simp] theorem State.setFreq_rbytes : (s.setFreq sym v).rbytes = s.rbytes := rfl
@[simp] theorem State.setFreq_rb : (s.setFreq sym v).rb = s.rb := rfl
@[simp] theorem State.setFreq_root : (s.setFreq sym v).root = s.root := rfl
@[simp] theorem State.setFreq_cur : (s.setFreq sym v).cur = s.cur := rfl
@[simp] theorem State.setFreq_nextIdx : (s.setFreq sym v).nextIdx = s.nextIdx := rfl
@[simp] theorem State.setFreq_symcnt : (s.setFreq sym v).symcnt = s.symcnt := rfl
@[simp] theorem State.setFreq_emit : (s.setFreq sym v).emit = s.emit := rfl
@[simp] theorem State.setFreq_resA : (s.setFreq sym v).resA = s.resA := rfl
@[simp] theorem State.setFreq_resB : (s.setFreq sym v).resB = s.resB := rfl
@[simp] theorem State.setFreq_fl : (s.setFreq sym v).fl = s.fl := rfl
@[simp] theorem State.setFreq_tv : (s.setFreq sym v).tv = s.tv := rfl
@[simp] theorem State.setFreq_cv : (s.setFreq sym v).cv = s.cv := rfl
@[simp] theorem State.setFreq_errCode : (s.setFreq sym v).errCode = s.errCode := rfl
@[simp] theorem State.setFreq_errCmd : (s.setFreq sym v).errCmd = s.errCmd := rfl
@[simp] theorem State.setFreq_tree : (s.setFreq sym v).tree = s.tree := rfl
@[simp] theorem State.setFreq_code : (s.setFreq sym v).code = s.code := rfl
@[simp] theorem State.setFreq_heap : (s.setFreq sym v).heap = s.heap := rfl
@[simp] theorem State.setFreq_io : (s.setFreq sym v).io = s.io := rfl
@[simp] theorem State.setFreq_pending : (s.setFreq sym v).pending = s.pending := rfl

/-! ### the emptied writer -/

@[simp] theorem State.writerEmptied_wsr : (s.writerEmptied).wsr = 0 := rfl
@[simp] theorem State.writerEmptied_wcnt : (s.writerEmptied).wcnt = 0 := rfl
@[simp] theorem State.writerEmptied_wbytes : (s.writerEmptied).wbytes = s.wbytes + 1 := rfl
@[simp] theorem State.writerEmptied_rsr : (s.writerEmptied).rsr = s.rsr := rfl
@[simp] theorem State.writerEmptied_rcnt : (s.writerEmptied).rcnt = s.rcnt := rfl
@[simp] theorem State.writerEmptied_rbytes : (s.writerEmptied).rbytes = s.rbytes := rfl
@[simp] theorem State.writerEmptied_rb : (s.writerEmptied).rb = s.rb := rfl
@[simp] theorem State.writerEmptied_root : (s.writerEmptied).root = s.root := rfl
@[simp] theorem State.writerEmptied_cur : (s.writerEmptied).cur = s.cur := rfl
@[simp] theorem State.writerEmptied_nextIdx : (s.writerEmptied).nextIdx = s.nextIdx := rfl
@[simp] theorem State.writerEmptied_symcnt : (s.writerEmptied).symcnt = s.symcnt := rfl
@[simp] theorem State.writerEmptied_emit : (s.writerEmptied).emit = s.emit := rfl
@[simp] theorem State.writerEmptied_resA : (s.writerEmptied).resA = s.resA := rfl
@[simp] theorem State.writerEmptied_resB : (s.writerEmptied).resB = s.resB := rfl
@[simp] theorem State.writerEmptied_fl : (s.writerEmptied).fl = s.fl := rfl
@[simp] theorem State.writerEmptied_tv : (s.writerEmptied).tv = s.tv := rfl
@[simp] theorem State.writerEmptied_cv : (s.writerEmptied).cv = s.cv := rfl
@[simp] theorem State.writerEmptied_errCode : (s.writerEmptied).errCode = s.errCode := rfl
@[simp] theorem State.writerEmptied_errCmd : (s.writerEmptied).errCmd = s.errCmd := rfl
@[simp] theorem State.writerEmptied_freq : (s.writerEmptied).freq = s.freq := rfl
@[simp] theorem State.writerEmptied_tree : (s.writerEmptied).tree = s.tree := rfl
@[simp] theorem State.writerEmptied_code : (s.writerEmptied).code = s.code := rfl
@[simp] theorem State.writerEmptied_heap : (s.writerEmptied).heap = s.heap := rfl
@[simp] theorem State.writerEmptied_io : (s.writerEmptied).io = s.io := rfl
@[simp] theorem State.writerEmptied_pending : (s.writerEmptied).pending = s.pending := rfl

/-! ### `SessionInit()` -/

@[simp] theorem State.sessionInit_wsr : (s.sessionInit).wsr = 0 := rfl
@[simp] theorem State.sessionInit_wcnt : (s.sessionInit).wcnt = 0 := rfl
@[simp] theorem State.sessionInit_wbytes : (s.sessionInit).wbytes = 0 := rfl
@[simp] theorem State.sessionInit_rsr : (s.sessionInit).rsr = 0 := rfl
@[simp] theorem State.sessionInit_rcnt : (s.sessionInit).rcnt = 0 := rfl
@[simp] theorem State.sessionInit_rbytes : (s.sessionInit).rbytes = 0 := rfl
@[simp] theorem State.sessionInit_rb : (s.sessionInit).rb = false := rfl
@[simp] theorem State.sessionInit_root : (s.sessionInit).root = 0 := rfl
@[simp] theorem State.sessionInit_cur : (s.sessionInit).cur = 0 := rfl
@[simp] theorem State.sessionInit_nextIdx : (s.sessionInit).nextIdx = 0 := rfl
@[simp] theorem State.sessionInit_symcnt : (s.sessionInit).symcnt = 0 := rfl
@[simp] theorem State.sessionInit_emit : (s.sessionInit).emit = 0 := rfl
@[simp] theorem State.sessionInit_resA : (s.sessionInit).resA = 0 := rfl
@[simp] theorem State.sessionInit_resB : (s.sessionInit).resB = 0 := rfl
@[simp] theorem State.sessionInit_fl : (s.sessionInit).fl = false := rfl
@[simp] theorem State.sessionInit_tv : (s.sessionInit).tv = false := rfl
@[simp] theorem State.sessionInit_cv : (s.sessionInit).cv = false := rfl
@[simp] theorem State.sessionInit_errCode : (s.sessionInit).errCode = s.errCode := rfl
@[simp] theorem State.sessionInit_errCmd : (s.sessionInit).errCmd = s.errCmd := rfl
@[simp] theorem State.sessionInit_freq : (s.sessionInit).freq = Vector.replicate _ 0 := rfl
@[simp] theorem State.sessionInit_tree : (s.sessionInit).tree = s.tree := rfl
@[simp] theorem State.sessionInit_code : (s.sessionInit).code = s.code := rfl
@[simp] theorem State.sessionInit_heap : (s.sessionInit).heap = [] := rfl
@[simp] theorem State.sessionInit_io : (s.sessionInit).io = s.io := rfl
@[simp] theorem State.sessionInit_pending : (s.sessionInit).pending = s.pending := rfl

/-! ### `INIT` -/

@[simp] theorem State.faultReturn_wsr : (s.faultReturn).wsr = 0 := rfl
@[simp] theorem State.faultReturn_wcnt : (s.faultReturn).wcnt = 0 := rfl
@[simp] theorem State.faultReturn_wbytes : (s.faultReturn).wbytes = 0 := rfl
@[simp] theorem State.faultReturn_rsr : (s.faultReturn).rsr = 0 := rfl
@[simp] theorem State.faultReturn_rcnt : (s.faultReturn).rcnt = 0 := rfl
@[simp] theorem State.faultReturn_rbytes : (s.faultReturn).rbytes = 0 := rfl
@[simp] theorem State.faultReturn_rb : (s.faultReturn).rb = false := rfl
@[simp] theorem State.faultReturn_root : (s.faultReturn).root = 0 := rfl
@[simp] theorem State.faultReturn_cur : (s.faultReturn).cur = 0 := rfl
@[simp] theorem State.faultReturn_nextIdx : (s.faultReturn).nextIdx = 0 := rfl
@[simp] theorem State.faultReturn_symcnt : (s.faultReturn).symcnt = 0 := rfl
@[simp] theorem State.faultReturn_emit : (s.faultReturn).emit = 0 := rfl
@[simp] theorem State.faultReturn_resA : (s.faultReturn).resA = 0 := rfl
@[simp] theorem State.faultReturn_resB : (s.faultReturn).resB = 0 := rfl
@[simp] theorem State.faultReturn_fl : (s.faultReturn).fl = false := rfl
@[simp] theorem State.faultReturn_tv : (s.faultReturn).tv = false := rfl
@[simp] theorem State.faultReturn_cv : (s.faultReturn).cv = false := rfl
@[simp] theorem State.faultReturn_errCode : (s.faultReturn).errCode = 0 := rfl
@[simp] theorem State.faultReturn_errCmd : (s.faultReturn).errCmd = 0 := rfl
@[simp] theorem State.faultReturn_freq : (s.faultReturn).freq = Vector.replicate _ 0 := rfl
@[simp] theorem State.faultReturn_tree : (s.faultReturn).tree = s.tree := rfl
@[simp] theorem State.faultReturn_code : (s.faultReturn).code = s.code := rfl
@[simp] theorem State.faultReturn_heap : (s.faultReturn).heap = [] := rfl
@[simp] theorem State.faultReturn_io : (s.faultReturn).io = s.io := rfl
@[simp] theorem State.faultReturn_pending : (s.faultReturn).pending = s.pending := rfl

/-! ### reset -/

@[simp] theorem State.resetEngine_wsr : (s.resetEngine).wsr = 0 := rfl
@[simp] theorem State.resetEngine_wcnt : (s.resetEngine).wcnt = 0 := rfl
@[simp] theorem State.resetEngine_wbytes : (s.resetEngine).wbytes = 0 := rfl
@[simp] theorem State.resetEngine_rsr : (s.resetEngine).rsr = 0 := rfl
@[simp] theorem State.resetEngine_rcnt : (s.resetEngine).rcnt = 0 := rfl
@[simp] theorem State.resetEngine_rbytes : (s.resetEngine).rbytes = 0 := rfl
@[simp] theorem State.resetEngine_rb : (s.resetEngine).rb = false := rfl
@[simp] theorem State.resetEngine_root : (s.resetEngine).root = 0 := rfl
@[simp] theorem State.resetEngine_cur : (s.resetEngine).cur = 0 := rfl
@[simp] theorem State.resetEngine_nextIdx : (s.resetEngine).nextIdx = 0 := rfl
@[simp] theorem State.resetEngine_symcnt : (s.resetEngine).symcnt = 0 := rfl
@[simp] theorem State.resetEngine_emit : (s.resetEngine).emit = 0 := rfl
@[simp] theorem State.resetEngine_resA : (s.resetEngine).resA = 0 := rfl
@[simp] theorem State.resetEngine_resB : (s.resetEngine).resB = 0 := rfl
@[simp] theorem State.resetEngine_fl : (s.resetEngine).fl = false := rfl
@[simp] theorem State.resetEngine_tv : (s.resetEngine).tv = false := rfl
@[simp] theorem State.resetEngine_cv : (s.resetEngine).cv = false := rfl
@[simp] theorem State.resetEngine_errCode : (s.resetEngine).errCode = 0 := rfl
@[simp] theorem State.resetEngine_errCmd : (s.resetEngine).errCmd = 0 := rfl
@[simp] theorem State.resetEngine_freq : (s.resetEngine).freq = Vector.replicate _ 0 := rfl
@[simp] theorem State.resetEngine_tree : (s.resetEngine).tree = Vector.replicate _ none := rfl
@[simp] theorem State.resetEngine_code : (s.resetEngine).code = Vector.replicate _ none := rfl
@[simp] theorem State.resetEngine_heap : (s.resetEngine).heap = [] := rfl
@[simp] theorem State.resetEngine_io : (s.resetEngine).io = s.io := rfl
@[simp] theorem State.resetEngine_pending : (s.resetEngine).pending = s.pending := rfl

/-! ### a presented word -/

@[simp] theorem State.presented_wsr : (s.presented w).wsr = s.wsr := rfl
@[simp] theorem State.presented_wcnt : (s.presented w).wcnt = s.wcnt := rfl
@[simp] theorem State.presented_wbytes : (s.presented w).wbytes = s.wbytes := rfl
@[simp] theorem State.presented_rsr : (s.presented w).rsr = s.rsr := rfl
@[simp] theorem State.presented_rcnt : (s.presented w).rcnt = s.rcnt := rfl
@[simp] theorem State.presented_rbytes : (s.presented w).rbytes = s.rbytes := rfl
@[simp] theorem State.presented_rb : (s.presented w).rb = s.rb := rfl
@[simp] theorem State.presented_root : (s.presented w).root = s.root := rfl
@[simp] theorem State.presented_cur : (s.presented w).cur = s.cur := rfl
@[simp] theorem State.presented_nextIdx : (s.presented w).nextIdx = s.nextIdx := rfl
@[simp] theorem State.presented_symcnt : (s.presented w).symcnt = s.symcnt := rfl
@[simp] theorem State.presented_emit : (s.presented w).emit = s.emit := rfl
@[simp] theorem State.presented_resA : (s.presented w).resA = s.resA := rfl
@[simp] theorem State.presented_resB : (s.presented w).resB = s.resB := rfl
@[simp] theorem State.presented_fl : (s.presented w).fl = s.fl := rfl
@[simp] theorem State.presented_tv : (s.presented w).tv = s.tv := rfl
@[simp] theorem State.presented_cv : (s.presented w).cv = s.cv := rfl
@[simp] theorem State.presented_errCode : (s.presented w).errCode = s.errCode := rfl
@[simp] theorem State.presented_errCmd : (s.presented w).errCmd = s.errCmd := rfl
@[simp] theorem State.presented_freq : (s.presented w).freq = s.freq := rfl
@[simp] theorem State.presented_tree : (s.presented w).tree = s.tree := rfl
@[simp] theorem State.presented_code : (s.presented w).code = s.code := rfl
@[simp] theorem State.presented_heap : (s.presented w).heap = s.heap := rfl
@[simp] theorem State.presented_io : (s.presented w).io = s.io := rfl
@[simp] theorem State.presented_pending : (s.presented w).pending = .command w :: s.pending := rfl

/-! ### fault entry -/

@[simp] theorem flushAttempt_rsr : (flushAttempt s).rsr = s.rsr := by
  unfold flushAttempt; dsimp only; split
  · rfl
  · split <;> rfl
@[simp] theorem flushAttempt_rcnt : (flushAttempt s).rcnt = s.rcnt := by
  unfold flushAttempt; dsimp only; split
  · rfl
  · split <;> rfl
@[simp] theorem flushAttempt_rbytes : (flushAttempt s).rbytes = s.rbytes := by
  unfold flushAttempt; dsimp only; split
  · rfl
  · split <;> rfl
@[simp] theorem flushAttempt_rb : (flushAttempt s).rb = s.rb := by
  unfold flushAttempt; dsimp only; split
  · rfl
  · split <;> rfl
@[simp] theorem flushAttempt_root : (flushAttempt s).root = s.root := by
  unfold flushAttempt; dsimp only; split
  · rfl
  · split <;> rfl
@[simp] theorem flushAttempt_cur : (flushAttempt s).cur = s.cur := by
  unfold flushAttempt; dsimp only; split
  · rfl
  · split <;> rfl
@[simp] theorem flushAttempt_nextIdx : (flushAttempt s).nextIdx = s.nextIdx := by
  unfold flushAttempt; dsimp only; split
  · rfl
  · split <;> rfl
@[simp] theorem flushAttempt_symcnt : (flushAttempt s).symcnt = s.symcnt := by
  unfold flushAttempt; dsimp only; split
  · rfl
  · split <;> rfl
@[simp] theorem flushAttempt_emit : (flushAttempt s).emit = s.emit := by
  unfold flushAttempt; dsimp only; split
  · rfl
  · split <;> rfl
@[simp] theorem flushAttempt_resA : (flushAttempt s).resA = s.resA := by
  unfold flushAttempt; dsimp only; split
  · rfl
  · split <;> rfl
@[simp] theorem flushAttempt_resB : (flushAttempt s).resB = s.resB := by
  unfold flushAttempt; dsimp only; split
  · rfl
  · split <;> rfl
@[simp] theorem flushAttempt_fl : (flushAttempt s).fl = s.fl := by
  unfold flushAttempt; dsimp only; split
  · rfl
  · split <;> rfl
@[simp] theorem flushAttempt_tv : (flushAttempt s).tv = s.tv := by
  unfold flushAttempt; dsimp only; split
  · rfl
  · split <;> rfl
@[simp] theorem flushAttempt_cv : (flushAttempt s).cv = s.cv := by
  unfold flushAttempt; dsimp only; split
  · rfl
  · split <;> rfl
@[simp] theorem flushAttempt_errCode : (flushAttempt s).errCode = s.errCode := by
  unfold flushAttempt; dsimp only; split
  · rfl
  · split <;> rfl
@[simp] theorem flushAttempt_errCmd : (flushAttempt s).errCmd = s.errCmd := by
  unfold flushAttempt; dsimp only; split
  · rfl
  · split <;> rfl
@[simp] theorem flushAttempt_freq : (flushAttempt s).freq = s.freq := by
  unfold flushAttempt; dsimp only; split
  · rfl
  · split <;> rfl
@[simp] theorem flushAttempt_tree : (flushAttempt s).tree = s.tree := by
  unfold flushAttempt; dsimp only; split
  · rfl
  · split <;> rfl
@[simp] theorem flushAttempt_code : (flushAttempt s).code = s.code := by
  unfold flushAttempt; dsimp only; split
  · rfl
  · split <;> rfl
@[simp] theorem flushAttempt_heap : (flushAttempt s).heap = s.heap := by
  unfold flushAttempt; dsimp only; split
  · rfl
  · split <;> rfl
@[simp] theorem flushAttempt_pending : (flushAttempt s).pending = s.pending := by
  unfold flushAttempt; dsimp only; split
  · rfl
  · split <;> rfl
@[simp] theorem faultEntry_wsr : (faultEntry e w s).wsr = (flushAttempt s).wsr := rfl
@[simp] theorem faultEntry_wcnt : (faultEntry e w s).wcnt = (flushAttempt s).wcnt := rfl
@[simp] theorem faultEntry_wbytes : (faultEntry e w s).wbytes = (flushAttempt s).wbytes := rfl
@[simp] theorem faultEntry_rsr : (faultEntry e w s).rsr = s.rsr := by
  simp [faultEntry]
@[simp] theorem faultEntry_rcnt : (faultEntry e w s).rcnt = s.rcnt := by
  simp [faultEntry]
@[simp] theorem faultEntry_rbytes : (faultEntry e w s).rbytes = s.rbytes := by
  simp [faultEntry]
@[simp] theorem faultEntry_rb : (faultEntry e w s).rb = s.rb := by
  simp [faultEntry]
@[simp] theorem faultEntry_root : (faultEntry e w s).root = s.root := by
  simp [faultEntry]
@[simp] theorem faultEntry_cur : (faultEntry e w s).cur = s.cur := by
  simp [faultEntry]
@[simp] theorem faultEntry_nextIdx : (faultEntry e w s).nextIdx = s.nextIdx := by
  simp [faultEntry]
@[simp] theorem faultEntry_symcnt : (faultEntry e w s).symcnt = s.symcnt := by
  simp [faultEntry]
@[simp] theorem faultEntry_emit : (faultEntry e w s).emit = s.emit := by
  simp [faultEntry]
@[simp] theorem faultEntry_resA : (faultEntry e w s).resA = s.resA := by
  simp [faultEntry]
@[simp] theorem faultEntry_resB : (faultEntry e w s).resB = s.resB := by
  simp [faultEntry]
@[simp] theorem faultEntry_fl : (faultEntry e w s).fl = s.fl := by
  simp [faultEntry]
@[simp] theorem faultEntry_tv : (faultEntry e w s).tv = s.tv := by
  simp [faultEntry]
@[simp] theorem faultEntry_cv : (faultEntry e w s).cv = s.cv := by
  simp [faultEntry]
@[simp] theorem faultEntry_errCode : (faultEntry e w s).errCode = e.code := rfl
@[simp] theorem faultEntry_errCmd : (faultEntry e w s).errCmd = w := rfl
@[simp] theorem faultEntry_freq : (faultEntry e w s).freq = s.freq := by
  simp [faultEntry]
@[simp] theorem faultEntry_tree : (faultEntry e w s).tree = s.tree := by
  simp [faultEntry]
@[simp] theorem faultEntry_code : (faultEntry e w s).code = s.code := by
  simp [faultEntry]
@[simp] theorem faultEntry_heap : (faultEntry e w s).heap = s.heap := by
  simp [faultEntry]
@[simp] theorem faultEntry_io : (faultEntry e w s).io = (flushAttempt s).io := rfl
@[simp] theorem faultEntry_pending : (faultEntry e w s).pending = s.pending := by
  simp [faultEntry]

theorem ErrCode.code_ne_zero : e.code ≠ 0 := by cases e <;> decide

theorem ErrCode.code_le_six : e.code.toNat ≤ 6 := by cases e <;> decide

/-! ### the streams -/

@[simp] theorem Streams.afterRead_byte_inData (b : Byte) : (io.afterRead (.byte b)).inData = io.inData := rfl
@[simp] theorem Streams.afterRead_byte_inPos (b : Byte) : (io.afterRead (.byte b)).inPos = io.inPos + 1 := rfl
@[simp] theorem Streams.afterRead_byte_outData (b : Byte) : (io.afterRead (.byte b)).outData = io.outData := rfl
@[simp] theorem Streams.afterRead_byte_readDraws (b : Byte) : (io.afterRead (.byte b)).readDraws = io.readDraws.tail := rfl
@[simp] theorem Streams.afterRead_byte_writeDraws (b : Byte) : (io.afterRead (.byte b)).writeDraws = io.writeDraws := rfl
@[simp] theorem Streams.afterRead_byte_calls (b : Byte) : (io.afterRead (.byte b)).calls = .read (.byte b) :: io.calls := rfl

@[simp] theorem Streams.afterRead_eof_inData : (io.afterRead .eof).inData = io.inData := rfl
@[simp] theorem Streams.afterRead_eof_inPos : (io.afterRead .eof).inPos = io.inPos := rfl
@[simp] theorem Streams.afterRead_eof_outData : (io.afterRead .eof).outData = io.outData := rfl
@[simp] theorem Streams.afterRead_eof_readDraws : (io.afterRead .eof).readDraws = io.readDraws.tail := rfl
@[simp] theorem Streams.afterRead_eof_writeDraws : (io.afterRead .eof).writeDraws = io.writeDraws := rfl
@[simp] theorem Streams.afterRead_eof_calls : (io.afterRead .eof).calls = .read .eof :: io.calls := rfl

@[simp] theorem Streams.afterRead_err_inData : (io.afterRead .err).inData = io.inData := rfl
@[simp] theorem Streams.afterRead_err_inPos : (io.afterRead .err).inPos = io.inPos := rfl
@[simp] theorem Streams.afterRead_err_outData : (io.afterRead .err).outData = io.outData := rfl
@[simp] theorem Streams.afterRead_err_readDraws : (io.afterRead .err).readDraws = io.readDraws.tail := rfl
@[simp] theorem Streams.afterRead_err_writeDraws : (io.afterRead .err).writeDraws = io.writeDraws := rfl
@[simp] theorem Streams.afterRead_err_calls : (io.afterRead .err).calls = .read .err :: io.calls := rfl

@[simp] theorem Streams.afterWrite_accepted_inData (b : Byte) : (io.afterWrite b true).inData = io.inData := rfl
@[simp] theorem Streams.afterWrite_accepted_inPos (b : Byte) : (io.afterWrite b true).inPos = io.inPos := rfl
@[simp] theorem Streams.afterWrite_accepted_outData (b : Byte) : (io.afterWrite b true).outData = io.outData ++ [b] := rfl
@[simp] theorem Streams.afterWrite_accepted_readDraws (b : Byte) : (io.afterWrite b true).readDraws = io.readDraws := rfl
@[simp] theorem Streams.afterWrite_accepted_writeDraws (b : Byte) : (io.afterWrite b true).writeDraws = io.writeDraws.tail := rfl
@[simp] theorem Streams.afterWrite_accepted_calls (b : Byte) : (io.afterWrite b true).calls = .write b true :: io.calls := rfl

@[simp] theorem Streams.afterWrite_rejected_inData (b : Byte) : (io.afterWrite b false).inData = io.inData := rfl
@[simp] theorem Streams.afterWrite_rejected_inPos (b : Byte) : (io.afterWrite b false).inPos = io.inPos := rfl
@[simp] theorem Streams.afterWrite_rejected_outData (b : Byte) : (io.afterWrite b false).outData = io.outData := rfl
@[simp] theorem Streams.afterWrite_rejected_readDraws (b : Byte) : (io.afterWrite b false).readDraws = io.readDraws := rfl
@[simp] theorem Streams.afterWrite_rejected_writeDraws (b : Byte) : (io.afterWrite b false).writeDraws = io.writeDraws.tail := rfl
@[simp] theorem Streams.afterWrite_rejected_calls (b : Byte) : (io.afterWrite b false).calls = .write b false :: io.calls := rfl

@[simp] theorem Streams.inRewind_inData : (io.inRewind).inData = io.inData := rfl
@[simp] theorem Streams.inRewind_inPos : (io.inRewind).inPos = 0 := rfl
@[simp] theorem Streams.inRewind_outData : (io.inRewind).outData = io.outData := rfl
@[simp] theorem Streams.inRewind_readDraws : (io.inRewind).readDraws = io.readDraws := rfl
@[simp] theorem Streams.inRewind_writeDraws : (io.inRewind).writeDraws = io.writeDraws := rfl
@[simp] theorem Streams.inRewind_calls : (io.inRewind).calls = .rewind :: io.calls := rfl

/-! ### read after write in the memories -/

@[simp] theorem freqAt_setFreq_same : (s.setFreq sym v).freqAt sym = v := by
  simp [State.freqAt, State.setFreq]

theorem freqAt_setFreq_other {x : Symbol} (h : x ≠ sym) : (s.setFreq sym v).freqAt x = s.freqAt x := by
  have : sym.toNat ≠ x.toNat := fun hn => h (BitVec.eq_of_toNat_eq hn.symm)
  simp [State.freqAt, State.setFreq, this]

@[simp] theorem codeAt_setCode_same (code : CodeRam) (c : Codeword) :
    codeAt (setCode code sym c) sym = some c := by
  simp [codeAt, setCode]

theorem codeAt_setCode_other {x : Symbol} (code : CodeRam) (c : Codeword) (h : x ≠ sym) :
    codeAt (setCode code sym c) x = codeAt code x := by
  have : sym.toNat ≠ x.toNat := fun hn => h (BitVec.eq_of_toNat_eq hn.symm)
  simp [codeAt, setCode, this]

theorem nodeAt_setNode_same (tree : TreeRam) {i : NodeIndex} (n : Node) (h : i ≠ Config.noNode) :
    nodeAt (setNode tree i n) i = some n := by
  have hi : i.toNat < Config.nnode := by
    have h1 : i.toNat ≠ 511 := fun hn => h (BitVec.eq_of_toNat_eq hn)
    have h2 := i.isLt
    simp only [Config.nnode]; omega
  simp [nodeAt, setNode, hi]

theorem nodeAt_setNode_other (tree : TreeRam) {i j : NodeIndex} (n : Node) (h : j ≠ i) :
    nodeAt (setNode tree i n) j = nodeAt tree j := by
  have : i.toNat ≠ j.toNat := fun hn => h (BitVec.eq_of_toNat_eq hn.symm)
  simp [nodeAt, setNode, this]

theorem nodeAt_noNode (tree : TreeRam) : nodeAt tree Config.noNode = none := by
  simp [nodeAt, Config.noNode, Config.nnode]

end Sys2Proof.Machine
end

