-- ==== Sys2Proof/Laws/Ops.lean ====
section
/-!
SUPPORT. One lemma per shared operation that says once what it can do: sequencing, the stream helpers, the end
of a command. Proofs about commands cite these and do not unfold the operations.
-/
namespace Sys2Proof.Machine

open Sys2Proof.Safety

variable {α β γ : Type} {s t : State}

/-! ### sequencing -/

@[simp] theorem andThen_done (a : α) (k : α → State → Body β) : (Body.done a s).andThen k = k a s := rfl

@[simp] theorem andThen_raise (e : ErrCode) (k : α → State → Body β) :
    (Body.raise e s : Body α).andThen k = .raise e s := rfl

@[simp] theorem andThen_stuck (f : Fault) (k : α → State → Body β) :
    (Body.stuck f : Body α).andThen k = .stuck f := rfl

theorem andThen_assoc (r : Body α) (k : α → State → Body β) (l : β → State → Body γ) :
    (r.andThen k).andThen l = r.andThen fun a s => (k a s).andThen l := by
  cases r <;> rfl

/-- A sequence is done only when both its parts are. -/
theorem andThen_eq_done {r : Body α} {k : α → State → Body β} {b : β} :
    r.andThen k = .done b t ↔ ∃ a u, r = .done a u ∧ k a u = .done b t := by
  cases r <;> simp

/-- A sequence raises where its first part does, or its second. -/
theorem andThen_eq_raise {r : Body α} {k : α → State → Body β} {e : ErrCode} :
    r.andThen k = .raise e t ↔ r = .raise e t ∨ ∃ a u, r = .done a u ∧ k a u = .raise e t := by
  cases r <;> simp

/-- The states in which a body can leave the machine, done or raised, all satisfy `P`. -/
def Body.Leaves (P : State → Prop) : Body α → Prop
  | .done _ s => P s
  | .raise _ s => P s
  | .stuck _ => True

@[simp] theorem leaves_done (P : State → Prop) (a : α) : (Body.done a s).Leaves P ↔ P s := Iff.rfl

@[simp] theorem leaves_raise (P : State → Prop) (e : ErrCode) :
    (Body.raise e s : Body α).Leaves P ↔ P s := Iff.rfl

@[simp] theorem leaves_stuck (P : State → Prop) (f : Fault) : (Body.stuck f : Body α).Leaves P := trivial

theorem Body.Leaves.mono {P Q : State → Prop} {r : Body α} (h : r.Leaves P) (hpq : ∀ s, P s → Q s) :
    r.Leaves Q := by
  cases r with
  | done _ s => exact hpq s h
  | raise _ s => exact hpq s h
  | stuck _ => trivial

/-- A property that the first part leaves and the second keeps is left by the sequence. -/
theorem Body.Leaves.andThen {P : State → Prop} {r : Body α} {k : α → State → Body β}
    (h : r.Leaves P) (hk : ∀ a s, P s → (k a s).Leaves P) : (r.andThen k).Leaves P := by
  cases r with
  | done a s => exact hk a s h
  | raise _ _ => exact h
  | stuck _ => trivial

theorem Body.Leaves.of_done {P : State → Prop} {r : Body α} {a : α} (h : r.Leaves P) (hr : r = .done a t) :
    P t := by
  subst hr; exact h

theorem Body.Leaves.of_raise {P : State → Prop} {r : Body α} {e : ErrCode} (h : r.Leaves P)
    (hr : r = .raise e t) : P t := by
  subst hr; exact h

/-- A `require` that fails raises `E_SEQ` at once; one that holds leaves what its body leaves. -/
theorem requireFlag_leaves {P : State → Prop} {c : Bool} {k : State → Body Unit} (h : P s)
    (hk : c = true → (k s).Leaves P) : (requireFlag c k s).Leaves P := by
  cases c with
  | false => exact h
  | true => exact hk rfl

@[simp] theorem requireFlag_true (k : State → Body Unit) : requireFlag true k s = k s := rfl

@[simp] theorem requireFlag_false (k : State → Body Unit) : requireFlag false k s = .raise .eSeq s := rfl

/-! ### the stream helpers -/

theorem inAnswer_of_failure (io : Streams) (h : io.readDraws.head?.getD false = true) : io.inAnswer = .err := by
  simp [Streams.inAnswer, h]

theorem inAnswer_of_byte (io : Streams) {v : Byte} (h : io.readDraws.head?.getD false = false)
    (hv : io.inData[io.inPos]? = some v) : io.inAnswer = .byte v := by
  simp [Streams.inAnswer, h, hv]

theorem inAnswer_of_end (io : Streams) (h : io.readDraws.head?.getD false = false)
    (hv : io.inData.length ≤ io.inPos) : io.inAnswer = .eof := by
  simp [Streams.inAnswer, h, List.getElem?_eq_none hv]

/-- A byte is answered only where the input has one. -/
theorem inPos_lt_of_byte (io : Streams) {v : Byte} (h : io.inAnswer = .byte v) :
    io.inPos < io.inData.length ∧ io.inData[io.inPos]? = some v := by
  unfold Streams.inAnswer at h
  split at h
  · cases h
  · split at h
    · rename_i u hu
      cases h
      exact ⟨(List.getElem?_eq_some_iff.mp hu).1, hu⟩
    · cases h

theorem outByte_accepted (v : Byte) (h : s.io.outAccepts = true) :
    outByte v s = .done () { s with io := s.io.afterWrite v true } := by
  simp [outByte, h]

theorem outByte_rejected (v : Byte) (h : s.io.outAccepts = false) :
    outByte v s = .raise .eIO { s with io := s.io.afterWrite v false } := by
  simp [outByte, h]

theorem inByte_byte (e : ErrCode) {v : Byte} (h : s.io.inAnswer = .byte v) :
    inByte e s = .done v { s with io := s.io.afterRead (.byte v) } := by
  simp [inByte, h]

theorem inByte_eof (e : ErrCode) (h : s.io.inAnswer = .eof) :
    inByte e s = .raise e { s with io := s.io.afterRead .eof } := by
  simp [inByte, h]

theorem inByte_err (e : ErrCode) (h : s.io.inAnswer = .err) :
    inByte e s = .raise .eIO { s with io := s.io.afterRead .err } := by
  simp [inByte, h]

theorem inByteOrStop_byte {v : Byte} (h : s.io.inAnswer = .byte v) :
    inByteOrStop s = .done (some v) { s with io := s.io.afterRead (.byte v) } := by
  simp [inByteOrStop, h]

theorem inByteOrStop_eof (h : s.io.inAnswer = .eof) :
    inByteOrStop s = .done none { s with io := s.io.afterRead .eof } := by
  simp [inByteOrStop, h]

theorem inByteOrStop_err (h : s.io.inAnswer = .err) :
    inByteOrStop s = .raise .eIO { s with io := s.io.afterRead .err } := by
  simp [inByteOrStop, h]

/-- Where no write fails, the next one is accepted. -/
theorem outAccepts_of_writesSucceed (h : WritesSucceed s) : s.io.outAccepts = true := by
  unfold Streams.outAccepts
  cases hd : s.io.writeDraws with
  | nil => rfl
  | cons d ds => simp [h d (by simp [hd])]

theorem readHead_of_readsSucceed (h : ReadsSucceed s) : s.io.readDraws.head?.getD false = false := by
  cases hd : s.io.readDraws with
  | nil => rfl
  | cons d ds => simp [h d (by simp [hd])]

theorem wroteBytes_nil (io : Streams) : wroteBytes io [] = io := by
  simp [wroteBytes]

theorem wroteBytes_cons (io : Streams) (v : Byte) (vs : List Byte) :
    wroteBytes (io.afterWrite v true) vs = wroteBytes io (v :: vs) := by
  cases io with
  | mk a b c d e f => simp [wroteBytes, Streams.afterWrite]

theorem tookBytes_zero (io : Streams) : tookBytes io 0 = io := by
  simp [tookBytes]

theorem tookBytes_succ (io : Streams) {v : Byte} {n : Nat} (h : io.inData[io.inPos]? = some v) :
    tookBytes (io.afterRead (.byte v)) n = tookBytes io (n + 1) := by
  cases io with
  | mk a b c d e f =>
    have hlt := (List.getElem?_eq_some_iff.mp h).1
    have hv : a[b] = v := (List.getElem?_eq_some_iff.mp h).2
    simp only [tookBytes, Streams.afterRead]
    rw [List.drop_eq_getElem_cons hlt]
    simp [hv, Nat.add_comm, Nat.add_left_comm]

/-- The bytes of a list go out one after the other while the host accepts. -/
theorem outBytes_of_writesSucceed (bytes : List Byte) (h : WritesSucceed s) :
    outBytes bytes s = .done () { s with io := wroteBytes s.io bytes } := by
  induction bytes generalizing s with
  | nil => simp [outBytes, wroteBytes_nil]
  | cons v vs ih =>
    rw [outBytes, outByte_accepted v (outAccepts_of_writesSucceed h), andThen_done, ih]
    · simp [wroteBytes_cons]
    · intro d hd
      exact h d (List.mem_of_mem_tail hd)

/-! ### the end of a command -/

theorem runCommand_running (i : Instr) (body : State → Body Unit) (h : Running s) :
    runCommand i body s = finish (encodeWord i) (body s) := by
  simp [runCommand, h]

theorem runCommand_faulted (i : Instr) (body : State → Body Unit) (h : ¬ Running s) :
    runCommand i body s = .next s := by
  exact if_neg h

/-- What a command that answers a next state has done. -/
theorem runCommand_eq_next {i : Instr} {body : State → Body Unit} (h : runCommand i body s = .next t) :
    (¬ Running s ∧ t = s) ∨
    (Running s ∧ body s = .done () t) ∨
    (Running s ∧ ∃ e u, body s = .raise e u ∧ t = faultEntry e (encodeWord i) u) := by
  by_cases hs : Running s
  · rw [runCommand_running i body hs] at h
    cases hb : body s with
    | done a u => rw [hb] at h; cases h; exact .inr (.inl ⟨hs, rfl⟩)
    | raise e u => rw [hb] at h; cases h; exact .inr (.inr ⟨hs, e, u, rfl, rfl⟩)
    | stuck f => rw [hb] at h; cases h
  · rw [runCommand_faulted i body hs] at h
    cases h
    exact .inl ⟨hs, rfl⟩

/-- The body of each command; `INIT` has none, it is not run through fault entry. -/
def bodyOf : Instr → State → Body Unit
  | .nop | .init => bodyNop
  | .wbit b => bodyWbit b
  | .wcode sym => bodyWcode sym
  | .wflush => bodyWflush
  | .rbit => bodyRbit
  | .fadd sym => bodyFadd sym
  | .fadds => bodyFadds
  | .fsave => bodyFsave
  | .fload => bodyFload
  | .tbuild => bodyTbuild
  | .tcodes => bodyTcodes
  | .trecon => bodyTrecon
  | .wkrst => bodyWkrst
  | .wkadv b => bodyWkadv b
  | .csave => bodyCsave
  | .cload => bodyCload
  | .esyms => bodyEsyms
  | .dsym => bodyDsym
  | .encode => bodyEncode
  | .decode => bodyDecode

/-- Every command but `INIT` is its body run as a command, where the paths of the tree are no obstacle. -/
theorem exec_eq_runCommand {i : Instr} (hi : i ≠ .init) (h : s.pathsBroken = false) :
    exec i s = runCommand i (bodyOf i) s := by
  cases i <;> first | exact absurd rfl hi | rfl | simp [exec, execTcodes, bodyOf, h]

/-- What a command that answers a next state has done: the one case split of every whole-machine proof. -/
theorem exec_eq_next {i : Instr} (h : exec i s = .next t) :
    (i = .init ∧ t = s.faultReturn) ∨
    (i ≠ .init ∧ ¬ Running s ∧ t = s) ∨
    (i ≠ .init ∧ Running s ∧ bodyOf i s = .done () t) ∨
    (i ≠ .init ∧ Running s ∧ ∃ e u, bodyOf i s = .raise e u ∧ t = faultEntry e (encodeWord i) u) := by
  by_cases hi : i = .init
  · subst hi; cases h; exact .inl ⟨rfl, rfl⟩
  · have hr : runCommand i (bodyOf i) s = .next t := by
      cases i with
      | init => exact absurd rfl hi
      | tcodes =>
        simp only [exec, execTcodes] at h
        split at h
        · cases h
        · exact h
      | _ => exact h
    obtain ⟨h1, h2⟩ | ⟨h1, h2⟩ | ⟨h1, h2⟩ := runCommand_eq_next hr
    · exact .inr (.inl ⟨hi, h1, h2⟩)
    · exact .inr (.inr (.inl ⟨hi, h1, h2⟩))
    · exact .inr (.inr (.inr ⟨hi, h1, h2⟩))

end Sys2Proof.Machine
end

