-- ==== Sys2Proof/Laws/Fields.lean ====
section
/-!
SUPPORT. The 8-byte fields and the table block as they are read from the input where no read fails
(20_memory.md R68, 41_frequency.md R134): what the reading loops give, as functions of the bytes.
-/
namespace Sys2Proof.Machine

open Sys2Proof.Safety

variable {s : State}

/-- A field assembled from bytes, the first of them at offset `k`. -/
def fieldOf : (k : Nat) → Count → List Byte → Count
  | _, t, [] => t
  | k, t, v :: vs => fieldOf (k + 1) (setFieldByte t k v) vs

/-- A table loaded from bytes, eight for each symbol. -/
def loadInto : List Symbol → List Byte → FreqRam → FreqRam
  | [], _, f => f
  | sym :: rest, bytes, f =>
    loadInto rest (bytes.drop 8) (f.set sym.toNat (fieldOf 0 0 (bytes.take 8)) sym.isLt)

theorem restOfInput_cons {v : Byte} {vs : List Byte} (h : restOfInput s = v :: vs) :
    s.io.inData[s.io.inPos]? = some v ∧ s.io.inData.drop (s.io.inPos + 1) = vs := by
  constructor
  · have := congrArg (·[0]?) h
    simpa [restOfInput] using this
  · rw [← List.drop_drop, show s.io.inData.drop s.io.inPos = v :: vs from h]
    rfl

theorem tookBytes_add (io : Streams) (n m : Nat) : tookBytes (tookBytes io n) m = tookBytes io (n + m) := by
  cases io with
  | mk a b c d e f =>
    simp only [tookBytes, List.drop_drop, ← List.append_assoc, ← List.reverse_append, ← List.map_append,
      List.take_add, Nat.add_assoc]

theorem restOfInput_tookBytes (n : Nat) :
    restOfInput { s with io := tookBytes s.io n } = (restOfInput s).drop n := by
  simp [restOfInput, tookBytes, List.drop_drop]

theorem readsSucceed_tookBytes (n : Nat) (h : ReadsSucceed s) :
    ReadsSucceed { s with io := tookBytes s.io n } :=
  fun d hd => h d (List.mem_of_mem_drop hd)

/-- `InByte` where a byte is left. -/
theorem inByte_took (e : ErrCode) {v : Byte} {vs : List Byte} (hr : ReadsSucceed s)
    (h : restOfInput s = v :: vs) : inByte e s = .done v { s with io := tookBytes s.io 1 } := by
  have hv := (restOfInput_cons h).1
  rw [inByte_byte e (inAnswer_of_byte s.io (readHead_of_readsSucceed hr) hv)]
  rw [← tookBytes_succ s.io hv, tookBytes_zero]

theorem inFieldFrom_took (n k : Nat) (t : Count) (hr : ReadsSucceed s) (h : n ≤ (restOfInput s).length) :
    inFieldFrom n k t s =
      .done (fieldOf k t ((restOfInput s).take n)) { s with io := tookBytes s.io n } := by
  induction n generalizing s k t with
  | zero => simp [inFieldFrom, fieldOf, tookBytes_zero]
  | succ n ih =>
    cases hrest : restOfInput s with
    | nil => rw [hrest] at h; cases h
    | cons v vs =>
      rw [inFieldFrom, inByte_took .eHeader hr hrest, andThen_done]
      have hd : restOfInput { s with io := tookBytes s.io 1 } = vs := by
        rw [restOfInput_tookBytes, hrest]; rfl
      rw [ih _ _ (readsSucceed_tookBytes 1 hr)]
      · rw [hd, tookBytes_add, Nat.add_comm 1 n]
        rfl
      · rw [hd]; rw [hrest] at h; simpa using h

/-- `InField` where 8 bytes are left. -/
theorem inField_took (hr : ReadsSucceed s) (h : 8 ≤ (restOfInput s).length) :
    inField s = .done (fieldOf 0 0 ((restOfInput s).take 8)) { s with io := tookBytes s.io 8 } :=
  inFieldFrom_took 8 0 0 hr h

theorem loadTable_took (l : List Symbol) (hr : ReadsSucceed s) (h : 8 * l.length ≤ (restOfInput s).length) :
    loadTable l s =
      .done () { s with
        freq := loadInto l (restOfInput s) s.freq, io := tookBytes s.io (8 * l.length) } := by
  induction l generalizing s with
  | nil => simp [loadTable, loadInto, tookBytes_zero]
  | cons sym rest ih =>
    simp only [List.length_cons] at h
    rw [loadTable, inField_took hr (by omega), andThen_done, ih]
    · have hd : restOfInput (({ s with io := tookBytes s.io 8 } : State).setFreq sym
          (fieldOf 0 0 ((restOfInput s).take 8))) = (restOfInput s).drop 8 := restOfInput_tookBytes 8
      rw [hd]
      simp only [State.setFreq, tookBytes_add, loadInto, List.length_cons]
      rw [show 8 + 8 * rest.length = 8 * (rest.length + 1) by omega]
    · exact readsSucceed_tookBytes 8 hr
    · have hd : restOfInput (({ s with io := tookBytes s.io 8 } : State).setFreq sym
          (fieldOf 0 0 ((restOfInput s).take 8))) = (restOfInput s).drop 8 := restOfInput_tookBytes 8
      rw [hd, List.length_drop]
      omega

theorem length_allSymbols : allSymbols.length = 256 := by simp [allSymbols]

/-- The body of `FLOAD` where 2048 bytes are left. -/
theorem bodyFload_took (hr : ReadsSucceed s) (hl : s.fl = false) (h : 2048 ≤ (restOfInput s).length) :
    bodyFload s =
      .done () { s with freq := loadInto allSymbols (restOfInput s) s.freq, io := tookBytes s.io 2048 } := by
  rw [bodyFload, show (!s.fl) = true by simp [hl]]
  exact (loadTable_took allSymbols hr (by rw [length_allSymbols]; exact h)).trans
    (by rw [length_allSymbols])

end Sys2Proof.Machine
end

