-- ==== Sys2Proof/Laws/Archiver.lean ====
section
/-!
SUPPORT. How the steps of `ENCODE` and `DECODE` end where they raise nothing (44_archiver.md R197, R198), so
that a proof about a macro command goes from step to step.
-/
namespace Sys2Proof.Machine

open Sys2Proof.Safety

variable {s t : State}

/-- A macro command goes on with its next step. -/
theorem doAll_next {x : State → Body Unit} {xs : List (State → Body Unit)} (h : x s = .done () t) :
    doAll (x :: xs) s = doAll xs t := by
  rw [doAll, h, andThen_done]

/-- A command whose body is done. -/
theorem runCommand_done {i : Instr} {body : State → Body Unit} (h : Running s) (hb : body s = .done () t) :
    runCommand i body s = .next t := by
  rw [runCommand_running i body h, hb]; rfl

theorem requireFlag_of {c : Bool} {k : State → Body Unit} (h : c = true) : requireFlag c k s = k s := by
  rw [h]; rfl

theorem bodyCload_done (hr : ReadsSucceed s) (h : 8 ≤ (restOfInput s).length) :
    bodyCload s =
      .done () { s with symcnt := fieldOf 0 0 ((restOfInput s).take 8), io := tookBytes s.io 8 } := by
  rw [bodyCload, inField_took hr h, andThen_done]

theorem bodyTbuild_done (h : s.fl = false) :
    bodyTbuild s = .done ()
      { s with
        fl := true, tree := (buildTree s.freq s.tree).tree, heap := (buildTree s.freq s.tree).heap
        nextIdx := (buildTree s.freq s.tree).nextIdx, root := heapTop (buildTree s.freq s.tree).heap
        cur := heapTop (buildTree s.freq s.tree).heap, tv := true } := by
  rw [bodyTbuild, requireFlag_of (by simp [h])]

theorem bodyTcodes_done (h : s.tv = true) :
    bodyTcodes s = .done ()
      { s with code := writeCodes s.code ((treeCodes s.tree s.root).getD []), cv := true } := by
  rw [bodyTcodes, requireFlag_of h]

theorem bodyCsave_done (h : WritesSucceed s) :
    bodyCsave s = .done () { s with io := wroteBytes s.io (fieldBytes s.symcnt) } :=
  outBytes_of_writesSucceed _ h

theorem bodyFsave_done (h : WritesSucceed s) :
    bodyFsave s = .done () { s with io := wroteBytes s.io (tableBytes s.freq) } :=
  outBytes_of_writesSucceed _ h

/-- `FADDS` at the end of the input. -/
theorem bodyFadds_atEnd (h : s.fl = false) (he : s.io.inAnswer = .eof) :
    bodyFadds s = .done () { s with io := s.io.afterRead .eof } := by
  rw [bodyFadds, requireFlag_of (by simp [h]), countRest, inByteOrStop_eof he, andThen_done]

/-- `ESYMS` at the end of the input. -/
theorem bodyEsyms_atEnd (h : s.cv = true) (he : s.io.inAnswer = .eof) :
    bodyEsyms s = .done () { s with io := s.io.afterRead .eof } := by
  rw [bodyEsyms, requireFlag_of h, encodeRest, inByteOrStop_eof he, andThen_done]

theorem bodyWflush_empty (h : s.wcnt = 0) : bodyWflush s = .done () s := by
  rw [bodyWflush, flush, if_pos h]

theorem decodeLoop_done (n : Nat) (h : s.emit = s.symcnt) : decodeLoop (n + 1) s = .done () s := by
  rw [decodeLoop, if_pos h]

/-- `DECODE` of a header with the count 0: what follows the header is not read. -/
theorem decode_headerOnly (hs : Running s) (hr : ReadsSucceed s) (hlen : 2056 ≤ s.io.inData.length)
    (h0 : fieldOf 0 0 (s.io.inData.take 8) = 0) : ∃ t, exec .decode s = .next t ∧ Running t := by
  obtain ⟨a, ha⟩ : ∃ a, rewindInput s.sessionInit = .done () a := ⟨_, rfl⟩
  have haIo : a.io = s.io.inRewind := by cases ha; rfl
  have hrest : restOfInput a = s.io.inData := by rw [restOfInput, haIo]; rfl
  have hra : ReadsSucceed a := by rw [ReadsSucceed, haIo]; exact hr
  obtain ⟨b, hb⟩ : ∃ b, b = ({ a with symcnt := 0, io := tookBytes a.io 8 } : State) := ⟨_, rfl⟩
  have hab : bodyCload a = .done () b := by
    rw [bodyCload_done hra (by rw [hrest]; omega), hrest, h0, hb]
  have hrb : ReadsSucceed b := by rw [hb]; exact readsSucceed_tookBytes 8 hra
  have hlb : 2048 ≤ (restOfInput b).length := by
    have h : restOfInput b = (restOfInput a).drop 8 := by rw [← restOfInput_tookBytes 8, hb]; rfl
    rw [h, hrest, List.length_drop]; omega
  have hflb : b.fl = false := by rw [hb]; cases ha; rfl
  obtain ⟨c, hc⟩ : ∃ c, bodyFload b = .done () c := ⟨_, bodyFload_took hrb hflb hlb⟩
  have hcEq := (bodyFload_took hrb hflb hlb).symm.trans hc
  have hflc : c.fl = false := by cases hcEq; exact hflb
  obtain ⟨d, hd⟩ : ∃ d, bodyTbuild c = .done () d := ⟨_, bodyTbuild_done hflc⟩
  have hdEq := (bodyTbuild_done hflc).symm.trans hd
  have htvd : d.tv = true := by cases hdEq; rfl
  obtain ⟨e, he⟩ : ∃ e, bodyTcodes d = .done () e := ⟨_, bodyTcodes_done htvd⟩
  have heEq := (bodyTcodes_done htvd).symm.trans he
  have hend : e.emit = e.symcnt := by cases heEq; cases hdEq; cases hcEq; rw [hb]; cases ha; rfl
  have hec : e.errCode = 0 := by cases heEq; cases hdEq; cases hcEq; rw [hb]; cases ha; exact hs
  have hbody : bodyDecode s =
      .done () { e with resA := headerCount + e.rbytes, resB := e.emit } := by
    rw [bodyDecode, doAll_next ha, doAll_next hab, doAll_next hc, doAll_next hd, doAll_next he, doAll,
      decodeLoop_done _ hend, andThen_done, doAll, andThen_done]
  exact ⟨_, runCommand_done hs hbody, hec⟩

/-- `ENCODE` of an empty input writes a header of zeros and no payload. -/
theorem encode_empty (hs : Running s) (hr : ReadsSucceed s) (hw : WritesSucceed s) (hin : s.io.inData = []) :
    ∃ t, exec .encode s = .next t ∧ Running t ∧
      t.io.outData = s.io.outData ++ fieldBytes 0 ++ tableBytes (Vector.replicate _ 0) := by
  obtain ⟨a, ha⟩ : ∃ a, rewindInput s.sessionInit = .done () a := ⟨_, rfl⟩
  have haIo : a.io = s.io.inRewind := by cases ha; rfl
  have hea : a.io.inAnswer = .eof := by
    rw [haIo]
    exact inAnswer_of_end _ (readHead_of_readsSucceed (s := { s with io := s.io.inRewind }) hr)
      (by show s.io.inData.length ≤ 0; rw [hin]; rfl)
  have hfla : a.fl = false := by cases ha; rfl
  obtain ⟨b, hb⟩ : ∃ b, bodyFadds a = .done () b := ⟨_, bodyFadds_atEnd hfla hea⟩
  have hbEq := (bodyFadds_atEnd hfla hea).symm.trans hb
  have hflb : b.fl = false := by cases hbEq; exact hfla
  obtain ⟨c, hc⟩ : ∃ c, bodyTbuild b = .done () c := ⟨_, bodyTbuild_done hflb⟩
  have hcEq := (bodyTbuild_done hflb).symm.trans hc
  have htvc : c.tv = true := by cases hcEq; rfl
  obtain ⟨d, hd⟩ : ∃ d, bodyTcodes c = .done () d := ⟨_, bodyTcodes_done htvc⟩
  have hdEq := (bodyTcodes_done htvc).symm.trans hd
  have hdIo : d.io = s.io.inRewind.afterRead .eof := by cases hdEq; cases hcEq; cases hbEq; cases ha; rfl
  have hcnt : d.symcnt = 0 ∧ d.freq = Vector.replicate _ 0 ∧ d.wcnt = 0 ∧ d.cv = true ∧ d.errCode = 0 := by
    cases hdEq; cases hcEq; cases hbEq; cases ha; exact ⟨rfl, rfl, rfl, rfl, hs⟩
  have hwd : WritesSucceed d := by rw [WritesSucceed, hdIo]; exact hw
  obtain ⟨e, he⟩ : ∃ e, e = ({ d with io := wroteBytes d.io (fieldBytes d.symcnt) } : State) := ⟨_, rfl⟩
  have hwe : WritesSucceed e := by
    rw [he]; exact fun x hx => hwd x (List.mem_of_mem_drop hx)
  obtain ⟨f, hf⟩ : ∃ f, f = ({ e with io := wroteBytes e.io (tableBytes e.freq) } : State) := ⟨_, rfl⟩
  obtain ⟨g, hg⟩ : ∃ g, rewindInput f = .done () g := ⟨_, rfl⟩
  have hgIo : g.io = f.io.inRewind := by cases hg; rfl
  have hgFlags : g.cv = true ∧ g.wcnt = 0 ∧ g.errCode = 0 := by
    cases hg; rw [hf, he]; exact ⟨hcnt.2.2.2.1, hcnt.2.2.1, hcnt.2.2.2.2⟩
  have heg : g.io.inAnswer = .eof := by
    apply inAnswer_of_end
    · rw [hgIo, hf, he]
      show (d.io.readDraws.head?.getD false) = false
      rw [hdIo]
      exact readHead_of_readsSucceed (s := { s with io := { s.io with readDraws := s.io.readDraws.tail } })
        fun x hx => hr x (List.mem_of_mem_tail hx)
    · rw [hgIo, hf, he]
      show d.io.inData.length ≤ 0
      rw [hdIo]
      show s.io.inData.length ≤ 0
      rw [hin]; rfl
  obtain ⟨k, hk⟩ : ∃ k, k = ({ g with io := g.io.afterRead .eof } : State) := ⟨_, rfl⟩
  have hbody : bodyEncode s = .done () { k with resA := k.symcnt, resB := headerCount + k.wbytes } := by
    rw [bodyEncode, doAll_next ha, doAll_next hb, doAll_next hc, doAll_next hd, doAll_next (bodyCsave_done hwd), ← he,
      doAll_next (bodyFsave_done hwe), ← hf, doAll_next hg, doAll_next (bodyEsyms_atEnd hgFlags.1 heg), ← hk,
      doAll_next (bodyWflush_empty (by rw [hk]; exact hgFlags.2.1)), doAll, andThen_done]
  refine ⟨_, runCommand_done hs hbody, by rw [hk]; exact hgFlags.2.2, ?_⟩
  show k.io.outData = _
  rw [hk]
  show g.io.outData = _
  rw [hgIo]
  show f.io.outData = _
  rw [hf, he]
  show d.io.outData ++ fieldBytes d.symcnt ++ tableBytes d.freq = _
  rw [hdIo, hcnt.1, hcnt.2.1]
  rfl

end Sys2Proof.Machine
end

