-- ==== Sys2Proof/Laws/Bits.lean ====
section
/-!
SUPPORT. The writer and the reader as bit streams: one `PutBit` appends one bit to what is written, one
`GetBit` takes the first bit of what is left (40_bitstream.md R110, R112).
-/
namespace Sys2Proof.Machine

open Sys2Proof.Safety

variable {s : State}

theorem length_byteBits (v : Byte) : (byteBits v).length = 8 := by simp [byteBits]

theorem bytesBits_append (a b : List Byte) : bytesBits (a ++ b) = bytesBits a ++ bytesBits b := by
  simp [bytesBits]

theorem length_bytesBits (l : List Byte) : (bytesBits l).length = 8 * l.length := by
  induction l with
  | nil => rfl
  | cons v vs ih =>
    rw [show bytesBits (v :: vs) = byteBits v ++ bytesBits vs from rfl]
    simp [length_byteBits, ih]; omega

/-- The pending bits of a shift register that has just taken a bit. -/
theorem pendingBits_shift (r : BitVec 8) (b : Bit) (n : Nat) :
    ((List.range (n + 1)).map fun k => (r.shiftConcat b).getLsbD (n - k)) =
      ((List.range n).map fun k => decide (n - k < 8) && r.getLsbD (n - 1 - k)) ++ [b] := by
  rw [List.range_succ, List.map_append]
  congr 1
  · apply List.map_congr_left
    intro k hk
    have hk : k < n := List.mem_range.mp hk
    rw [BitVec.getLsbD_shiftConcat]
    rw [if_neg (by omega)]
    rw [show n - k - 1 = n - 1 - k by omega]
  · simp [BitVec.getLsbD_shiftConcat]

/-- `PutBit` where the byte does not complete. -/
theorem putBit_pending (b : Bit) (h : s.wcnt ≠ 7) :
    putBit b s = .done () { s with wsr := s.wsr.shiftConcat b, wcnt := s.wcnt + 1 } := by
  exact if_neg h

/-- `PutBit` where the byte completes and is accepted. -/
theorem putBit_completes (b : Bit) (h : s.wcnt = 7) (ha : s.io.outAccepts = true) :
    putBit b s =
      .done () (State.writerEmptied { s with io := s.io.afterWrite (s.wsr.shiftConcat b) true }) := by
  simp [putBit, h, outByte_accepted _ ha]

/-- `PutBit` where the byte completes and is rejected: the bit is lost. -/
theorem putBit_rejected (b : Bit) (h : s.wcnt = 7) (ha : s.io.outAccepts = false) :
    putBit b s = .raise .eIO { s with io := s.io.afterWrite (s.wsr.shiftConcat b) false } := by
  simp [putBit, h, outByte_rejected _ ha]

theorem writtenBits_shift (b : Bit) (h : s.wcnt ≠ 7) :
    writtenBits { s with wsr := s.wsr.shiftConcat b, wcnt := s.wcnt + 1 } = writtenBits s ++ [b] := by
  have hlt : s.wcnt.toNat < 7 := by
    have h1 := s.wcnt.isLt
    have h2 : s.wcnt.toNat ≠ 7 := fun hn => h (BitVec.eq_of_toNat_eq hn)
    omega
  have hadd : (s.wcnt + 1).toNat = s.wcnt.toNat + 1 := by
    rw [BitVec.toNat_add]; simp; omega
  simp only [writtenBits, writerBits, hadd, List.append_assoc]
  congr 1
  have := pendingBits_shift s.wsr b s.wcnt.toNat
  simp only [Nat.add_sub_cancel]
  rw [this]
  congr 1
  apply List.map_congr_left
  intro k hk
  have : s.wcnt.toNat - k < 8 := by omega
  simp [this]

theorem writtenBits_complete (b : Bit) (h : s.wcnt = 7) :
    writtenBits (State.writerEmptied { s with io := s.io.afterWrite (s.wsr.shiftConcat b) true }) =
      writtenBits s ++ [b] := by
  have h7 : s.wcnt.toNat = 7 := by rw [h]; rfl
  simp only [writtenBits, writerBits, State.writerEmptied, Streams.afterWrite, if_true, h7]
  rw [bytesBits_append]
  simp only [List.append_assoc]
  congr 1
  have := pendingBits_shift s.wsr b 7
  simp only [bytesBits, List.flatMap_cons, List.flatMap_nil, List.append_nil]
  have hb : byteBits (s.wsr.shiftConcat b) =
      (List.range (7 + 1)).map fun k => (s.wsr.shiftConcat b).getLsbD (7 - k) := by
    apply List.map_congr_left
    intro k hk
    have : k < 8 := List.mem_range.mp hk
    simp [BitVec.getMsbD, this]
  simp only [BitVec.ofNat_eq_ofNat, BitVec.toNat_ofNat, Nat.zero_mod, List.range_zero, List.map_nil,
    List.append_nil]
  rw [hb, this]
  congr 1

/-- `PutBit` appends its bit to the written stream while the host accepts (40_bitstream.md R110). -/
theorem putBit_writtenBits (b : Bit) (hw : WritesSucceed s) :
    ∃ u, putBit b s = .done () u ∧ writtenBits u = writtenBits s ++ [b] ∧ WritesSucceed u ∧
      u.code = s.code ∧ u.io.inData = s.io.inData ∧ u.io.inPos = s.io.inPos ∧
      u.io.readDraws = s.io.readDraws := by
  by_cases h : s.wcnt = 7
  · refine ⟨_, putBit_completes b h (outAccepts_of_writesSucceed hw), writtenBits_complete b h, ?_, rfl, rfl,
      rfl, rfl⟩
    exact fun d hd => hw d (List.mem_of_mem_tail hd)
  · exact ⟨_, putBit_pending b h, writtenBits_shift b h, hw, rfl, rfl, rfl, rfl⟩

/-- A run of `PutBit` appends its bits in order (40_bitstream.md R117). -/
theorem putBits_writtenBits (c : Codeword) (hw : WritesSucceed s) :
    ∃ u, putBits c s = .done () u ∧ writtenBits u = writtenBits s ++ c ∧ WritesSucceed u ∧
      u.code = s.code ∧ u.io.inData = s.io.inData ∧ u.io.inPos = s.io.inPos ∧
      u.io.readDraws = s.io.readDraws := by
  induction c generalizing s with
  | nil => exact ⟨s, rfl, by simp, hw, rfl, rfl, rfl, rfl⟩
  | cons b bs ih =>
    obtain ⟨u, hu, hb, hwu, h1, h2, h3, h4⟩ := putBit_writtenBits b hw
    obtain ⟨v, hv, hbs, hwv, g1, g2, g3, g4⟩ := ih hwu
    refine ⟨v, ?_, ?_, hwv, g1.trans h1, g2.trans h2, g3.trans h3, g4.trans h4⟩
    · rw [putBits, hu]; exact hv
    · rw [hbs, hb, List.append_assoc]; rfl

/-- The bits of a shift register, the next one first: it is the top bit, the rest are those of the shifted
register. -/
theorem registerBits_cons (r : BitVec 8) (n : Nat) :
    (List.range (n + 1)).map r.getMsbD = r.msb :: (List.range n).map (r <<< 1).getMsbD := by
  rw [List.range_succ_eq_map, List.map_cons, List.map_map]
  congr 1
  apply List.map_congr_left
  intro k hk
  have hk : k < n := List.mem_range.mp hk
  show r.getMsbD (k + 1) = (r <<< 1).getMsbD k
  rw [BitVec.getMsbD_shiftLeft, Nat.add_comm]

theorem readerBits_shift (r : BitVec 8) (c : BitVec 4) (h0 : c ≠ 0) (h8 : c.toNat ≤ 8) :
    (List.range c.toNat).map r.getMsbD = r.msb :: (List.range (c - 1).toNat).map (r <<< 1).getMsbD := by
  have hpos : c.toNat ≠ 0 := fun hn => h0 (BitVec.eq_of_toNat_eq hn)
  have hsub : (c - 1).toNat = c.toNat - 1 := by
    have := c.isLt
    rw [BitVec.toNat_sub]; simp; omega
  rw [hsub, ← registerBits_cons r _, Nat.sub_add_cancel (by omega)]

/-- `GetBit` with a bit buffered. -/
theorem getBit_buffered (h : s.rcnt ≠ 0) :
    getBit s = .done s.rsr.msb { s with rsr := s.rsr <<< 1, rcnt := s.rcnt - 1 } := by
  unfold getBit refill
  rw [if_neg h]
  rfl

/-- `GetBit` with nothing buffered and a byte to take. -/
theorem getBit_refilled {v : Byte} (h : s.rcnt = 0) (ha : s.io.inAnswer = .byte v) :
    getBit s = .done v.msb
      { s with rsr := v <<< 1, rcnt := 7, rbytes := s.rbytes + 1, io := s.io.afterRead (.byte v) } := by
  unfold getBit refill
  rw [if_pos h, inByte_byte .eEof ha]
  simp [Body.andThen]

/-- `GetBit` takes the first bit of what is left, and a byte only when none is buffered
(40_bitstream.md R112, R118). -/
theorem getBit_inputBits {b : Bit} {rest : List Bit} (hr : ReadsSucceed s) (h8 : s.rcnt.toNat ≤ 8)
    (hb : inputBits s = b :: rest) :
    ∃ u, getBit s = .done b u ∧ inputBits u = rest ∧ u.rcnt.toNat < 8 ∧ ReadsSucceed u := by
  by_cases h0 : s.rcnt = 0
  · have hz : s.rcnt.toNat = 0 := by rw [h0]; rfl
    have hin : bytesBits (restOfInput s) = b :: rest := by
      simpa [inputBits, readerBits, hz] using hb
    cases hrest : restOfInput s with
    | nil => rw [hrest] at hin; cases hin
    | cons v vs =>
      have hv : s.io.inData[s.io.inPos]? = some v := by
        have := congrArg (·[0]?) hrest
        simpa [restOfInput] using this
      have hvs : s.io.inData.drop (s.io.inPos + 1) = vs := by
        rw [← List.drop_drop, show s.io.inData.drop s.io.inPos = v :: vs from hrest]
        rfl
      have hbits : byteBits v = v.msb :: (List.range 7).map (v <<< 1).getMsbD :=
        registerBits_cons v 7
      rw [hrest, show bytesBits (v :: vs) = byteBits v ++ bytesBits vs from rfl, hbits,
        List.cons_append] at hin
      obtain ⟨h1, h2⟩ := List.cons.inj hin
      refine ⟨_, (getBit_refilled h0 (inAnswer_of_byte s.io (readHead_of_readsSucceed hr) hv)).trans
        (by rw [h1]), ?_, (by show (7 : BitVec 4).toNat < 8; decide), fun d hd => hr d (List.mem_of_mem_tail hd)⟩
      rw [← h2, ← hvs]
      rfl
  · have hcons := readerBits_shift s.rsr s.rcnt h0 h8
    rw [inputBits, readerBits, hcons, List.cons_append] at hb
    obtain ⟨h1, h2⟩ := List.cons.inj hb
    subst h1
    refine ⟨_, getBit_buffered h0, ?_, ?_, hr⟩
    · exact h2
    have hpos : s.rcnt.toNat ≠ 0 := fun hn => h0 (BitVec.eq_of_toNat_eq hn)
    have hlt := s.rcnt.isLt
    have hlast : (s.rcnt - 1).toNat < 8 := by
      rw [BitVec.toNat_sub]; simp; omega
    exact hlast

end Sys2Proof.Machine
end

