-- ==== Sys2Proof/Laws/Frame.lean ====
section
/-!
SUPPORT. What each helper and each body leaves unchanged, done or raised. A unit's erasure blanks the fields
that the unit may write; an operation of the unit keeps the erasure.
-/
namespace Sys2Proof.Machine

variable {s t : State}

/-- All but what the bit writer and the streams write. -/
def writerErased (s : State) : State := { s with wsr := 0, wcnt := 0, wbytes := 0, io := Streams.start }

/-- All but what the bit reader, the walker and the streams write. -/
def readerErased (s : State) : State :=
  { s with rsr := 0, rcnt := 0, rbytes := 0, rb := false, cur := 0, emit := 0, io := Streams.start }

/-- All but what the frequency accumulator and the streams write. -/
def countsErased (s : State) : State :=
  { s with freq := Vector.replicate _ 0, symcnt := 0, io := Streams.start }

theorem eq_of_writerErased (h : writerErased t = writerErased s) :
    t = { s with wsr := t.wsr, wcnt := t.wcnt, wbytes := t.wbytes, io := t.io } := by
  cases s; cases t; simp_all [writerErased]

theorem eq_of_readerErased (h : readerErased t = readerErased s) :
    t = { s with
      rsr := t.rsr, rcnt := t.rcnt, rbytes := t.rbytes, rb := t.rb, cur := t.cur, emit := t.emit
      io := t.io } := by
  cases s; cases t; simp_all [readerErased]

theorem eq_of_countsErased (h : countsErased t = countsErased s) :
    t = { s with freq := t.freq, symcnt := t.symcnt, io := t.io } := by
  cases s; cases t; simp_all [countsErased]

/-- A sequence keeps an erasure that its parts keep. -/
theorem leaves_erased_andThen {α β : Type} (f : State → State) {r : Body α} {k : α → State → Body β}
    (h : r.Leaves fun u => f u = f s) (hk : ∀ a u, (k a u).Leaves fun v => f v = f u) :
    (r.andThen k).Leaves fun u => f u = f s :=
  h.andThen fun a u hu => (hk a u).mono fun _ hv => hv.trans hu

/-! ### operations that write the streams only -/

/-- An erasure that the streams do not show through. -/
def BlindToStreams (f : State → State) : Prop := ∀ s io, f { s with io := io } = f s

theorem writerErased_blind : BlindToStreams writerErased := fun _ _ => rfl

theorem readerErased_blind : BlindToStreams readerErased := fun _ _ => rfl

theorem countsErased_blind : BlindToStreams countsErased := fun _ _ => rfl

variable {f : State → State}

theorem outByte_keeps (hf : BlindToStreams f) (v : Byte) (s : State) :
    (outByte v s).Leaves fun u => f u = f s := by
  unfold outByte; split <;> exact hf _ _

theorem outBytes_keeps (hf : BlindToStreams f) (bytes : List Byte) (s : State) :
    (outBytes bytes s).Leaves fun u => f u = f s := by
  induction bytes generalizing s with
  | nil => rfl
  | cons v vs ih => exact leaves_erased_andThen f (outByte_keeps hf v s) fun _ u => ih u

theorem inByte_keeps (hf : BlindToStreams f) (e : ErrCode) (s : State) :
    (inByte e s).Leaves fun u => f u = f s := by
  unfold inByte; dsimp only; split <;> exact hf _ _

theorem inByteOrStop_keeps (hf : BlindToStreams f) (s : State) :
    (inByteOrStop s).Leaves fun u => f u = f s := by
  unfold inByteOrStop; dsimp only; split <;> exact hf _ _

theorem inFieldFrom_keeps (hf : BlindToStreams f) (n k : Nat) (t : Count) (s : State) :
    (inFieldFrom n k t s).Leaves fun u => f u = f s := by
  induction n generalizing k t s with
  | zero => rfl
  | succ n ih => exact leaves_erased_andThen f (inByte_keeps hf .eHeader s) fun v u => ih _ _ u

theorem inField_keeps (hf : BlindToStreams f) (s : State) :
    (inField s).Leaves fun u => f u = f s := inFieldFrom_keeps hf _ _ _ s

theorem rewindInput_keeps (hf : BlindToStreams f) (s : State) :
    (rewindInput s).Leaves fun u => f u = f s := hf _ _

/-! ### the bit writer -/

theorem putBit_keeps (b : Bit) (s : State) :
    (putBit b s).Leaves fun u => writerErased u = writerErased s := by
  unfold putBit
  dsimp only
  split
  · exact leaves_erased_andThen writerErased (outByte_keeps writerErased_blind _ s) fun _ _ => rfl
  · rfl

theorem putBits_keeps (c : Codeword) (s : State) :
    (putBits c s).Leaves fun u => writerErased u = writerErased s := by
  induction c generalizing s with
  | nil => rfl
  | cons b bs ih => exact leaves_erased_andThen writerErased (putBit_keeps b s) fun _ u => ih u

theorem flush_keeps (s : State) : (flush s).Leaves fun u => writerErased u = writerErased s := by
  unfold flush
  split
  · rfl
  · exact leaves_erased_andThen writerErased (outByte_keeps writerErased_blind _ s) fun _ _ => rfl

theorem putSymbol_keeps (sym : Symbol) (s : State) :
    (putSymbol sym s).Leaves fun u => writerErased u = writerErased s := by
  unfold putSymbol
  split
  · exact putBits_keeps _ s
  · trivial

theorem encodeRest_keeps (n : Nat) (s : State) :
    (encodeRest n s).Leaves fun u => writerErased u = writerErased s := by
  induction n generalizing s with
  | zero => rfl
  | succ n ih =>
    refine leaves_erased_andThen writerErased (inByteOrStop_keeps writerErased_blind s) fun v u => ?_
    cases v with
    | none => rfl
    | some sym => exact leaves_erased_andThen writerErased (putSymbol_keeps sym u) fun _ v => ih v

/-! ### the bit reader and the walker -/

theorem refill_keeps (s : State) : (refill s).Leaves fun u => readerErased u = readerErased s := by
  unfold refill
  split
  · exact leaves_erased_andThen readerErased (inByte_keeps readerErased_blind .eEof s) fun _ _ => rfl
  · rfl

theorem getBit_keeps (s : State) : (getBit s).Leaves fun u => readerErased u = readerErased s :=
  leaves_erased_andThen readerErased (refill_keeps s) fun _ _ => rfl

theorem advance_keeps (b : Bit) (s : State) :
    (advance b s).Leaves fun u => readerErased u = readerErased s := by
  unfold advance
  split
  · trivial
  · split
    · trivial
    · rfl

theorem walkToLeaf_keeps (n : Nat) (s : State) :
    (walkToLeaf n s).Leaves fun u => readerErased u = readerErased s := by
  induction n generalizing s with
  | zero => trivial
  | succ n ih =>
    refine leaves_erased_andThen readerErased (getBit_keeps s) fun b u => ?_
    refine leaves_erased_andThen readerErased (advance_keeps b u) fun _ v => ?_
    split
    · trivial
    · split
      · rfl
      · exact ih v

/-! ### the frequency accumulator -/

theorem countSym_keeps (sym : Symbol) (s : State) :
    (countSym sym s).Leaves fun u => countsErased u = countsErased s := by
  unfold countSym; split <;> rfl

theorem countRest_keeps (n : Nat) (s : State) :
    (countRest n s).Leaves fun u => countsErased u = countsErased s := by
  induction n generalizing s with
  | zero => rfl
  | succ n ih =>
    refine leaves_erased_andThen countsErased (inByteOrStop_keeps countsErased_blind s) fun v u => ?_
    cases v with
    | none => rfl
    | some sym => exact leaves_erased_andThen countsErased (countSym_keeps sym u) fun _ v => ih v

theorem loadTable_keeps (l : List Symbol) (s : State) :
    (loadTable l s).Leaves fun u => countsErased u = countsErased s := by
  induction l generalizing s with
  | nil => rfl
  | cons sym rest ih =>
    exact leaves_erased_andThen countsErased (inField_keeps countsErased_blind s) fun v u => ih _

/-! ### the bodies -/

theorem bodyWbit_keeps (b : Bit) (s : State) :
    (bodyWbit b s).Leaves fun u => writerErased u = writerErased s := putBit_keeps b s

theorem bodyWcode_keeps (sym : Symbol) (s : State) :
    (bodyWcode sym s).Leaves fun u => writerErased u = writerErased s :=
  requireFlag_leaves rfl fun _ => putSymbol_keeps sym s

theorem bodyWflush_keeps (s : State) :
    (bodyWflush s).Leaves fun u => writerErased u = writerErased s := flush_keeps s

theorem bodyEsyms_keeps (s : State) :
    (bodyEsyms s).Leaves fun u => writerErased u = writerErased s :=
  requireFlag_leaves rfl fun _ => encodeRest_keeps _ s

theorem bodyCsave_keeps (hf : BlindToStreams f) (s : State) :
    (bodyCsave s).Leaves fun u => f u = f s := outBytes_keeps hf _ s

theorem bodyFsave_keeps (hf : BlindToStreams f) (s : State) :
    (bodyFsave s).Leaves fun u => f u = f s := outBytes_keeps hf _ s

theorem bodyRbit_keeps (s : State) : (bodyRbit s).Leaves fun u => readerErased u = readerErased s :=
  leaves_erased_andThen readerErased (getBit_keeps s) fun _ _ => rfl

theorem bodyWkrst_keeps (s : State) : (bodyWkrst s).Leaves fun u => readerErased u = readerErased s :=
  requireFlag_leaves rfl fun _ => rfl

theorem bodyWkadv_keeps (b : Bit) (s : State) :
    (bodyWkadv b s).Leaves fun u => readerErased u = readerErased s :=
  requireFlag_leaves rfl fun _ => advance_keeps b s

theorem bodyDsym_keeps (s : State) : (bodyDsym s).Leaves fun u => readerErased u = readerErased s := by
  refine requireFlag_leaves rfl fun _ => ?_
  refine leaves_erased_andThen readerErased (walkToLeaf_keeps _ s) fun sym u => ?_
  exact leaves_erased_andThen readerErased (outByte_keeps readerErased_blind sym u) fun _ _ => rfl

theorem bodyFadd_keeps (sym : Symbol) (s : State) :
    (bodyFadd sym s).Leaves fun u => countsErased u = countsErased s :=
  requireFlag_leaves rfl fun _ => countSym_keeps sym s

theorem bodyFadds_keeps (s : State) : (bodyFadds s).Leaves fun u => countsErased u = countsErased s :=
  requireFlag_leaves rfl fun _ => countRest_keeps _ s

theorem bodyFload_keeps (s : State) : (bodyFload s).Leaves fun u => countsErased u = countsErased s :=
  requireFlag_leaves rfl fun _ => loadTable_keeps _ s

theorem bodyCload_keeps (s : State) : (bodyCload s).Leaves fun u => countsErased u = countsErased s :=
  leaves_erased_andThen countsErased (inField_keeps countsErased_blind s) fun _ _ => rfl

end Sys2Proof.Machine
end

