-- ==== Sys2Proof/Laws/Heap.lean ====
section
/-!
SUPPORT. The heap operations move entries and lose none (42_tree.md R151, R152).
-/
namespace Sys2Proof.Machine

theorem swapAt_perm (h : List HeapEntry) (i j : Nat) : (swapAt h i j).Perm h := by
  unfold swapAt
  split
  · rename_i x y hx hy
    obtain ⟨hi, rfl⟩ := List.getElem?_eq_some_iff.mp hx
    obtain ⟨hj, rfl⟩ := List.getElem?_eq_some_iff.mp hy
    exact List.set_set_perm hi hj
  · exact List.Perm.refl _

@[simp] theorem length_swapAt (h : List HeapEntry) (i j : Nat) : (swapAt h i j).length = h.length :=
  (swapAt_perm h i j).length_eq

theorem siftUp_perm (n : Nat) (h : List HeapEntry) (i : Nat) : (siftUp n h i).Perm h := by
  induction n generalizing h i with
  | zero => exact List.Perm.refl _
  | succ n ih =>
    unfold siftUp
    dsimp only
    split
    · exact List.Perm.refl _
    · split
      · exact (ih _ _).trans (swapAt_perm _ _ _)
      · exact List.Perm.refl _

/-- `HeapInsert` adds the entry and keeps the others. -/
theorem heapInsert_perm (h : List HeapEntry) (e : HeapEntry) : (heapInsert h e).Perm (e :: h) :=
  (siftUp_perm _ _ _).trans (List.perm_append_singleton e h)

@[simp] theorem length_heapInsert (h : List HeapEntry) (e : HeapEntry) :
    (heapInsert h e).length = h.length + 1 := by
  simpa using (heapInsert_perm h e).length_eq

theorem siftDown_perm (n : Nat) (h : List HeapEntry) (i : Nat) : (siftDown n h i).Perm h := by
  induction n generalizing h i with
  | zero => exact List.Perm.refl _
  | succ n ih =>
    unfold siftDown
    dsimp only
    split
    · exact List.Perm.refl _
    · exact (ih _ _).trans (swapAt_perm _ _ _)

/-- `HeapExtractMin` takes one entry, the top, and keeps the others. -/
theorem heapExtractMin_perm {h h' : List HeapEntry} {top : HeapEntry}
    (heq : heapExtractMin h = some (top, h')) : h.Perm (top :: h') ∧ h.head? = some top := by
  match h with
  | [] => cases heq
  | [x] => cases heq; exact ⟨List.Perm.refl _, rfl⟩
  | x :: y :: rest =>
    simp only [heapExtractMin, Option.some.injEq, Prod.mk.injEq] at heq
    obtain ⟨rfl, rfl⟩ := heq
    refine ⟨List.Perm.cons _ ?_, rfl⟩
    refine List.Perm.trans ?_ (siftDown_perm _ _ _).symm
    have h1 := List.perm_append_singleton ((y :: rest).getLast (by simp)) (y :: rest).dropLast
    rw [List.dropLast_append_getLast] at h1
    exact h1

theorem heapExtractMin_isSome {h : List HeapEntry} (hne : h ≠ []) :
    ∃ top h', heapExtractMin h = some (top, h') := by
  match h with
  | [] => exact absurd rfl hne
  | [x] => exact ⟨_, _, rfl⟩
  | x :: y :: rest => exact ⟨_, _, rfl⟩

theorem length_of_heapExtractMin {h h' : List HeapEntry} {top : HeapEntry}
    (heq : heapExtractMin h = some (top, h')) : h.length = h'.length + 1 := by
  simpa using (heapExtractMin_perm heq).1.length_eq

/-- A merge round takes two entries and puts one (42_tree.md R154). -/
theorem mergeStep_eq_some {b b' : Builder} (h : mergeStep b = some b') :
    ∃ x y h1 h2, heapExtractMin b.heap = some (x, h1) ∧ heapExtractMin h1 = some (y, h2) ∧
      b' = { tree := setNode b.tree b.nextIdx ⟨false, 0, x.n, y.n, x.w + y.w⟩
             heap := heapInsert h2 ⟨x.w + y.w, b.nextIdx⟩
             nextIdx := b.nextIdx + 1 } ∧
      b'.heap.length + 1 = b.heap.length := by
  unfold mergeStep at h
  split at h
  · cases h
  · rename_i x h1 hx
    split at h
    · cases h
    · rename_i y h2 hy
      cases h
      refine ⟨x, y, h1, h2, hx, hy, rfl, ?_⟩
      have l1 := length_of_heapExtractMin hx
      have l2 := length_of_heapExtractMin hy
      simp only [length_heapInsert]
      omega

/-- A merge round is possible exactly while two entries are live (42_tree.md R154). -/
theorem mergeStep_eq_none {b : Builder} : mergeStep b = none ↔ b.heap.length ≤ 1 := by
  constructor
  · intro h
    by_contra hlen
    obtain ⟨x, h1, hx⟩ := heapExtractMin_isSome (h := b.heap) (by intro he; simp [he] at hlen)
    have l1 := length_of_heapExtractMin hx
    obtain ⟨y, h2, hy⟩ := heapExtractMin_isSome (h := h1) (by intro he; simp [he] at l1; omega)
    simp [mergeStep, hx, hy] at h
  · intro h
    cases hb : mergeStep b with
    | none => rfl
    | some b' =>
      obtain ⟨x, y, h1, h2, hx, hy, -, -⟩ := mergeStep_eq_some hb
      have l1 := length_of_heapExtractMin hx
      have l2 := length_of_heapExtractMin hy
      omega

end Sys2Proof.Machine
end

