-- ==== Sys2Proof/Laws/PerInstr.lean ====
section
/-!
SUPPORT. One fact of every command as syntax: its word carries its opcode and its operand, and the operand
is legal for its format (30_encoding.md R90, R91, R92).
-/
namespace Sys2Proof.Laws.OperandField

/-- The fields of the command's word are its opcode and its operand, and its format admits the operand. -/
def Statement (i : Instr) : Prop :=
  wordOp (encodeWord i) = i.opcode ∧ wordArg (encodeWord i) = i.operand ∧ i.wellFormed = true

theorem nop : Statement .nop := by unfold Statement; decide
theorem init : Statement .init := by unfold Statement; decide
theorem wbit (b : Bit) : Statement (.wbit b) := by unfold Statement; revert b; decide
theorem wcode (s : Symbol) : Statement (.wcode s) := by unfold Statement; revert s; decide +kernel
theorem wflush : Statement .wflush := by unfold Statement; decide
theorem rbit : Statement .rbit := by unfold Statement; decide
theorem fadd (s : Symbol) : Statement (.fadd s) := by unfold Statement; revert s; decide +kernel
theorem fadds : Statement .fadds := by unfold Statement; decide
theorem fsave : Statement .fsave := by unfold Statement; decide
theorem fload : Statement .fload := by unfold Statement; decide
theorem tbuild : Statement .tbuild := by unfold Statement; decide
theorem tcodes : Statement .tcodes := by unfold Statement; decide
theorem trecon : Statement .trecon := by unfold Statement; decide
theorem wkrst : Statement .wkrst := by unfold Statement; decide
theorem wkadv (b : Bit) : Statement (.wkadv b) := by unfold Statement; revert b; decide
theorem csave : Statement .csave := by unfold Statement; decide
theorem cload : Statement .cload := by unfold Statement; decide
theorem esyms : Statement .esyms := by unfold Statement; decide
theorem dsym : Statement .dsym := by unfold Statement; decide
theorem encode : Statement .encode := by unfold Statement; decide
theorem decode : Statement .decode := by unfold Statement; decide

end Sys2Proof.Laws.OperandField
end

