-- ==== Sys2Proof/Laws/Streams.lean ====
section
/-!
SUPPORT. How the streams evolve: every operation reaches its streams from those it found by stream calls that
it records, and by nothing else.
-/
namespace Sys2Proof.Machine

open Sys2Proof.Safety

theorem replay_append (io : Streams) (cs ds : List StreamCall) :
    io.replay (cs ++ ds) = (io.replay cs).replay ds := by
  induction cs generalizing io with
  | nil => rfl
  | cons c cs ih => cases c <;> exact ih _

theorem replay_calls (io : Streams) (cs : List StreamCall) :
    (io.replay cs).calls = cs.reverse ++ io.calls := by
  induction cs generalizing io with
  | nil => rfl
  | cons c cs ih => cases c <;> simp [Streams.replay, ih, Streams.afterRead, Streams.afterWrite, Streams.inRewind]

theorem replay_inData (io : Streams) (cs : List StreamCall) : (io.replay cs).inData = io.inData := by
  induction cs generalizing io with
  | nil => rfl
  | cons c cs ih => cases c <;> simp [Streams.replay, ih, Streams.afterRead, Streams.afterWrite, Streams.inRewind]

/-- Calls only append to the output (20_memory.md R63). -/
theorem replay_outData (io : Streams) (cs : List StreamCall) : io.outData <+: (io.replay cs).outData := by
  induction cs generalizing io with
  | nil => exact List.prefix_refl _
  | cons c cs ih =>
    cases c with
    | write v accepted =>
      refine List.IsPrefix.trans ?_ (ih (io.afterWrite v accepted))
      cases accepted <;> simp [Streams.afterWrite]
    | read answer => exact ih (io.afterRead answer)
    | rewind => exact ih io.inRewind

/-- Replayed calls append the bytes they had accepted. -/
theorem replay_outData_eq (io : Streams) (cs : List StreamCall) :
    (io.replay cs).outData = io.outData ++ acceptedBytes cs := by
  induction cs generalizing io with
  | nil => exact (List.append_nil _).symm
  | cons c cs ih =>
    cases c with
    | read answer => exact ih _
    | rewind => exact ih _
    | write v accepted =>
      rw [Streams.replay, ih]
      cases accepted <;> simp [Streams.afterWrite, acceptedBytes]

/-- Replayed calls move the input as they did. -/
theorem replay_inPos (io : Streams) (cs : List StreamCall) :
    (io.replay cs).inPos = positionAfter io.inPos cs := by
  induction cs generalizing io with
  | nil => rfl
  | cons c cs ih =>
    cases c with
    | read answer => cases answer <;> exact ih _
    | rewind => exact ih _
    | write v accepted => exact ih _

/-- Each replayed `InRead` takes one draw. -/
theorem replay_readDraws (io : Streams) (cs : List StreamCall) :
    (io.replay cs).readDraws = io.readDraws.drop (cs.countP isRead) := by
  induction cs generalizing io with
  | nil => rfl
  | cons c cs ih => cases c <;>
      simp [Streams.replay, ih, isRead, Streams.afterRead, Streams.afterWrite, Streams.inRewind, List.countP_cons]

/-- Each replayed `OutWrite` takes one draw. -/
theorem replay_writeDraws (io : Streams) (cs : List StreamCall) :
    (io.replay cs).writeDraws = io.writeDraws.drop (cs.countP isWrite) := by
  induction cs generalizing io with
  | nil => rfl
  | cons c cs ih => cases c <;>
      simp [Streams.replay, ih, isWrite, Streams.afterRead, Streams.afterWrite, Streams.inRewind, List.countP_cons]

/-- The later streams come from the earlier ones by recorded calls. -/
def Reaches (io io' : Streams) : Prop := ∃ cs, io' = io.replay cs

theorem Reaches.refl (io : Streams) : Reaches io io := ⟨[], rfl⟩

theorem Reaches.trans {a b c : Streams} (h : Reaches a b) (h' : Reaches b c) : Reaches a c := by
  obtain ⟨cs, rfl⟩ := h
  obtain ⟨ds, rfl⟩ := h'
  exact ⟨cs ++ ds, (replay_append a cs ds).symm⟩

theorem reaches_afterRead (io : Streams) (a : ReadAnswer) : Reaches io (io.afterRead a) := ⟨[.read a], rfl⟩

theorem reaches_afterWrite (io : Streams) (v : Byte) (b : Bool) : Reaches io (io.afterWrite v b) :=
  ⟨[.write v b], rfl⟩

theorem reaches_inRewind (io : Streams) : Reaches io io.inRewind := ⟨[.rewind], rfl⟩

/-- The recorded calls between two streams are those that lead from the one to the other. -/
theorem callsSince_replay (io : Streams) (cs : List StreamCall) : (io.replay cs).callsSince io = cs := by
  simp [Streams.callsSince, replay_calls]

/-- Streams reached, by their own recorded calls. -/
theorem Reaches.eq_replay_callsSince {io io' : Streams} (h : Reaches io io') :
    io' = io.replay (io'.callsSince io) := by
  obtain ⟨cs, rfl⟩ := h
  rw [callsSince_replay]

/-- A body whose final streams are reached from those it found. -/
abbrev LeavesReached {α : Type} (s : State) (r : Body α) : Prop := r.Leaves fun u => Reaches s.io u.io

theorem LeavesReached.andThen {α β : Type} {s : State} {r : Body α} {k : α → State → Body β}
    (h : LeavesReached s r) (hk : ∀ a u, LeavesReached u (k a u)) : LeavesReached s (r.andThen k) :=
  Body.Leaves.andThen h fun a u hu => (hk a u).mono fun _ hv => hu.trans hv

theorem outByte_reaches (v : Byte) (s : State) : LeavesReached s (outByte v s) := by
  unfold outByte; split <;> exact reaches_afterWrite _ _ _

theorem outBytes_reaches (bytes : List Byte) (s : State) : LeavesReached s (outBytes bytes s) := by
  induction bytes generalizing s with
  | nil => exact Reaches.refl _
  | cons v vs ih => exact (outByte_reaches v s).andThen fun _ u => ih u

theorem inByte_reaches (e : ErrCode) (s : State) : LeavesReached s (inByte e s) := by
  unfold inByte; dsimp only; split <;> exact reaches_afterRead _ _

theorem inByteOrStop_reaches (s : State) : LeavesReached s (inByteOrStop s) := by
  unfold inByteOrStop; dsimp only; split <;> exact reaches_afterRead _ _

theorem inFieldFrom_reaches (n k : Nat) (t : Count) (s : State) :
    LeavesReached s (inFieldFrom n k t s) := by
  induction n generalizing k t s with
  | zero => exact Reaches.refl _
  | succ n ih => exact (inByte_reaches .eHeader s).andThen fun v u => ih _ _ u

theorem putBit_reaches (b : Bit) (s : State) : LeavesReached s (putBit b s) := by
  unfold putBit
  dsimp only
  split
  · exact (outByte_reaches _ s).andThen fun _ u => Reaches.refl _
  · exact Reaches.refl _

theorem putBits_reaches (c : Codeword) (s : State) : LeavesReached s (putBits c s) := by
  induction c generalizing s with
  | nil => exact Reaches.refl _
  | cons b bs ih => exact (putBit_reaches b s).andThen fun _ u => ih u

theorem flush_reaches (s : State) : LeavesReached s (flush s) := by
  unfold flush
  split
  · exact Reaches.refl _
  · exact (outByte_reaches _ s).andThen fun _ u => Reaches.refl _

theorem putSymbol_reaches (sym : Symbol) (s : State) : LeavesReached s (putSymbol sym s) := by
  unfold putSymbol
  split
  · exact putBits_reaches _ s
  · trivial

theorem getBit_reaches (s : State) : LeavesReached s (getBit s) := by
  refine LeavesReached.andThen ?_ fun _ u => Reaches.refl _
  unfold refill
  split
  · exact (inByte_reaches .eEof s).andThen fun _ u => Reaches.refl _
  · exact Reaches.refl _

theorem encodeRest_reaches (n : Nat) (s : State) : LeavesReached s (encodeRest n s) := by
  induction n generalizing s with
  | zero => exact Reaches.refl _
  | succ n ih =>
    refine (inByteOrStop_reaches s).andThen fun v u => ?_
    cases v with
    | none => exact Reaches.refl _
    | some sym => exact (putSymbol_reaches sym u).andThen fun _ v => ih v

theorem countSym_reaches (sym : Symbol) (s : State) : LeavesReached s (countSym sym s) := by
  unfold countSym; split <;> exact Reaches.refl _

theorem countRest_reaches (n : Nat) (s : State) : LeavesReached s (countRest n s) := by
  induction n generalizing s with
  | zero => exact Reaches.refl _
  | succ n ih =>
    refine (inByteOrStop_reaches s).andThen fun v u => ?_
    cases v with
    | none => exact Reaches.refl _
    | some sym => exact (countSym_reaches sym u).andThen fun _ v => ih v

theorem loadTable_reaches (l : List Symbol) (s : State) : LeavesReached s (loadTable l s) := by
  induction l generalizing s with
  | nil => exact Reaches.refl _
  | cons sym rest ih => exact (inFieldFrom_reaches _ _ _ s).andThen fun v u => ih (u.setFreq sym v)

theorem advance_reaches (b : Bit) (s : State) : LeavesReached s (advance b s) := by
  unfold advance
  split
  · trivial
  · split
    · trivial
    · exact Reaches.refl _

theorem walkToLeaf_reaches (n : Nat) (s : State) : LeavesReached s (walkToLeaf n s) := by
  induction n generalizing s with
  | zero => trivial
  | succ n ih =>
    refine (getBit_reaches s).andThen fun b u => (advance_reaches b u).andThen fun _ v => ?_
    split
    · trivial
    · split
      · exact Reaches.refl _
      · exact ih v

theorem requireFlag_reaches {c : Bool} {k : State → Body Unit} {s : State} (h : LeavesReached s (k s)) :
    LeavesReached s (requireFlag c k s) :=
  requireFlag_leaves (Reaches.refl _) fun _ => h

theorem bodyDsym_reaches (s : State) : LeavesReached s (bodyDsym s) :=
  requireFlag_reaches <|
    (walkToLeaf_reaches _ s).andThen fun sym u => (outByte_reaches sym u).andThen fun _ _ => Reaches.refl _

theorem decodeLoop_reaches (n : Nat) (s : State) : LeavesReached s (decodeLoop n s) := by
  induction n generalizing s with
  | zero => trivial
  | succ n ih =>
    unfold decodeLoop
    split
    · exact Reaches.refl _
    · exact (bodyDsym_reaches s).andThen fun _ u => ih u

theorem doAll_reaches {l : List (State → Body Unit)} (h : ∀ x ∈ l, ∀ s, LeavesReached s (x s)) (s : State) :
    LeavesReached s (doAll l s) := by
  induction l generalizing s with
  | nil => exact Reaches.refl _
  | cons x xs ih =>
    exact (h x (by simp) s).andThen fun _ u => ih (fun y hy => h y (by simp [hy])) u

theorem bodyTbuild_reaches (s : State) : LeavesReached s (bodyTbuild s) :=
  requireFlag_reaches (Reaches.refl _)

theorem bodyTcodes_reaches (s : State) : LeavesReached s (bodyTcodes s) :=
  requireFlag_reaches (Reaches.refl _)

theorem bodyTrecon_reaches (s : State) : LeavesReached s (bodyTrecon s) := by
  refine requireFlag_reaches ?_
  split
  · trivial
  · exact Reaches.refl _

theorem rewindInput_reaches (s : State) : LeavesReached s (rewindInput s) := reaches_inRewind _

theorem bodyCload_reaches (s : State) : LeavesReached s (bodyCload s) :=
  (inFieldFrom_reaches _ _ _ s).andThen fun _ _ => Reaches.refl _

theorem bodyEncode_reaches (s : State) : LeavesReached s (bodyEncode s) := by
  refine LeavesReached.andThen (doAll_reaches ?_ s.sessionInit) fun _ _ => Reaches.refl _
  simp only [List.forall_mem_cons, List.not_mem_nil, false_imp_iff, implies_true, and_true]
  exact ⟨rewindInput_reaches, fun s => requireFlag_reaches (countRest_reaches _ s), bodyTbuild_reaches,
    bodyTcodes_reaches, fun s => outBytes_reaches _ s, fun s => outBytes_reaches _ s, rewindInput_reaches,
    fun s => requireFlag_reaches (encodeRest_reaches _ s), flush_reaches⟩

theorem bodyDecode_reaches (s : State) : LeavesReached s (bodyDecode s) := by
  refine LeavesReached.andThen (doAll_reaches ?_ s.sessionInit) fun _ _ => Reaches.refl _
  simp only [List.forall_mem_cons, List.not_mem_nil, false_imp_iff, implies_true, and_true]
  exact ⟨rewindInput_reaches, bodyCload_reaches, fun s => requireFlag_reaches (loadTable_reaches _ s),
    bodyTbuild_reaches, bodyTcodes_reaches, fun s => decodeLoop_reaches _ s⟩

/-- Whatever a command does to the streams, it does by recorded calls (20_memory.md R65). -/
theorem bodyOf_reaches (i : Instr) (s : State) : LeavesReached s (bodyOf i s) := by
  cases i with
  | nop => exact Reaches.refl _
  | init => exact Reaches.refl _
  | wbit b => exact putBit_reaches b s
  | wcode sym => exact requireFlag_reaches (putSymbol_reaches sym s)
  | wflush => exact flush_reaches s
  | rbit => exact (getBit_reaches s).andThen fun _ _ => Reaches.refl _
  | fadd sym => exact requireFlag_reaches (countSym_reaches sym s)
  | fadds => exact requireFlag_reaches (countRest_reaches _ s)
  | fsave => exact outBytes_reaches _ s
  | fload => exact requireFlag_reaches (loadTable_reaches _ s)
  | tbuild => exact bodyTbuild_reaches s
  | tcodes => exact bodyTcodes_reaches s
  | trecon => exact bodyTrecon_reaches s
  | wkrst => exact requireFlag_reaches (k := fun s => .done () { s with cur := s.root }) (Reaches.refl s.io)
  | wkadv b => exact requireFlag_reaches (advance_reaches b s)
  | csave => exact outBytes_reaches _ s
  | cload => exact bodyCload_reaches s
  | esyms => exact requireFlag_reaches (encodeRest_reaches _ s)
  | dsym => exact bodyDsym_reaches s
  | encode => exact bodyEncode_reaches s
  | decode => exact bodyDecode_reaches s

theorem flushAttempt_reaches (s : State) : Reaches s.io (flushAttempt s).io := by
  unfold flushAttempt
  dsimp only
  split
  · exact Reaches.refl _
  · split <;> exact reaches_afterWrite _ _ _

theorem faultEntry_reaches (e : ErrCode) (w : CmdWord) (s : State) : Reaches s.io (faultEntry e w s).io :=
  flushAttempt_reaches s

/-- A command that answers a next state has reached its streams by recorded calls. -/
theorem exec_reaches {i : Instr} {s t : State} (h : exec i s = .next t) : Reaches s.io t.io := by
  obtain ⟨-, rfl⟩ | ⟨-, -, rfl⟩ | ⟨-, -, hb⟩ | ⟨-, -, e, u, hb, rfl⟩ := exec_eq_next h
  · exact Reaches.refl _
  · exact Reaches.refl _
  · exact (bodyOf_reaches i s).of_done hb
  · exact ((bodyOf_reaches i s).of_raise hb).trans (faultEntry_reaches e _ u)

/-- So has the port with any word it takes. -/
theorem takeWord_reaches {w : CmdWord} {s t : State} (h : takeWord w s = .next t) : Reaches s.io t.io := by
  unfold takeWord at h
  split at h
  · split at h
    · exact exec_reaches h
    · cases h; exact Reaches.refl _
  · split at h
    · cases h; exact faultEntry_reaches _ _ _
    · exact exec_reaches h

end Sys2Proof.Machine
end

