-- ==== Sys2Proof/Tests/Slice0.lean ====
section
/-!
SUPPORT. Tests: words written out from the encoding (30_encoding.md R90 to R92), small steps whose results
are those of the vectors V<n> of 95_test_vectors.md, and for each obligation with hypotheses a witness that
meets them.
-/
namespace Sys2Proof.Tests

open Sys2Proof.Machine Sys2Proof.Safety

/-! ### Ill-formed words are refused (30_encoding.md R91, R94) -/

theorem test_c0_admits_only_zero : Format.c0.admits 0 = true ∧ Format.c0.admits 1 = false := by decide
theorem test_c1_admits_only_bit0 : Format.c1.admits 1 = true ∧ Format.c1.admits 2 = false := by decide
theorem test_c8_admits_all : Format.c8.admits 0xFF = true := by decide
theorem test_c0_word_with_argument_is_illegal : decodeWord 0b0000000100000001 = none := by decide
theorem test_c1_word_with_high_argument_is_illegal : decodeWord 0b0001000000000010 = none := by decide
theorem test_unassigned_opcode_is_illegal : decodeWord 0b0000001000000000 = none := by decide

/-! ### Words written out bit by bit (30_encoding.md R92) -/

theorem test_decode_session :
    decodeWord 0b0000000000000000 = some .nop ∧ decodeWord 0b0000000100000000 = some .init := by decide
theorem test_decode_writer :
    decodeWord 0b0001000000000000 = some (.wbit false) ∧ decodeWord 0b0001000000000001 = some (.wbit true) ∧
    decodeWord 0b0001000101100011 = some (.wcode 0x63) ∧ decodeWord 0b0001001000000000 = some .wflush := by
  decide
theorem test_decode_reader : decodeWord 0b0010000000000000 = some .rbit := by decide
theorem test_decode_frequency :
    decodeWord 0b0011000001000001 = some (.fadd 0x41) ∧ decodeWord 0b0011000100000000 = some .fadds ∧
    decodeWord 0b0011001000000000 = some .fsave ∧ decodeWord 0b0011001100000000 = some .fload := by decide
theorem test_decode_tree :
    decodeWord 0b0100000000000000 = some .tbuild ∧ decodeWord 0b0100000100000000 = some .tcodes ∧
    decodeWord 0b0100001000000000 = some .trecon := by decide
theorem test_decode_walker :
    decodeWord 0b0101000000000000 = some .wkrst ∧ decodeWord 0b0101000100000000 = some (.wkadv false) ∧
    decodeWord 0b0101000100000001 = some (.wkadv true) := by decide
theorem test_decode_archiver :
    decodeWord 0b0110000000000000 = some .csave ∧ decodeWord 0b0110000100000000 = some .cload ∧
    decodeWord 0b0110001000000000 = some .esyms ∧ decodeWord 0b0110001100000000 = some .dsym ∧
    decodeWord 0b0111000000000000 = some .encode ∧ decodeWord 0b0111000100000000 = some .decode := by decide
theorem test_decode_table_word : decodeTableWord 16 0x3041 = some (.fadd 0x41) := by decide

/-! ### Small steps -/

/-- The outcome is a next state with the property. -/
def leads (o : Host.Outcome State Fault Refusal) (p : State → Bool) : Bool :=
  match o with
  | .next t => p t
  | .fault _ => false
  | .refused _ => false

theorem exists_of_leads {o : Host.Outcome State Fault Refusal} {p : State → Bool} (h : leads o p = true) :
    ∃ t, o = .next t ∧ p t = true := by
  cases o with
  | next t => exact ⟨t, rfl, h⟩
  | fault f => cases h
  | refused r => cases h

/-- `ERR = (c, w)`. -/
def faulted (c : BitVec 4) (w : CmdWord) (t : State) : Bool := t.errCode == c && t.errCmd == w

/-- The reset state with an input. -/
def withInput (bytes : List Byte) : State := { State.reset with io := { Streams.start with inData := bytes } }

/-- The reset state with draws for the `OutWrite` calls. -/
def withWriteDraws (draws : List Bool) : State :=
  { State.reset with io := { Streams.start with writeDraws := draws } }

/-- The reset state with the upper part of the tree of V5: 510 over 509 and the leaf of C, 509 over 508 and
the leaf of B, 508 over 507 and the leaf of A. -/
def treeV5 : TreeRam :=
  let leaf (s : Symbol) : Node := ⟨true, s, 0, 0, 1⟩
  let t := setNode (Vector.replicate _ none) 510 ⟨false, 0, 509, 67, 7⟩
  let t := setNode t 509 ⟨false, 0, 508, 66, 3⟩
  let t := setNode t 508 ⟨false, 0, 507, 65, 1⟩
  setNode (setNode (setNode t 65 (leaf 0x41)) 66 (leaf 0x42)) 67 (leaf 0x43)

/-- A session with `treeV5`, the walker at `cur`. -/
def walkingV5 (cur : NodeIndex) (bytes : List Byte) : State :=
  { withInput bytes with fl := true, tv := true, root := 510, cur := cur, nextIdx := 511, tree := treeV5 }

/-- A session whose code table holds the codewords of A, B, C in V5. -/
def codedV5 (bytes : List Byte) : State :=
  { walkingV5 510 bytes with
    cv := true
    code := setCode (setCode (setCode (Vector.replicate _ none) 0x41 [false, false, true]) 0x42 [false, true])
      0x43 [true] }

/-- V31. -/
theorem test_reset_registers_read_zero : ∀ a, regRead State.reset a = 0 := by decide
theorem test_reset_lines :
    State.reset.busyLine = false ∧ State.reset.cmdReadyLine = true ∧ State.reset.faultLine = false := by decide

/-- The registers after V4's `DECODE`: `STATUS`, `WALK`, `SYM`. -/
theorem test_registers_after_v4 :
    let s : State :=
      { State.reset with
        fl := true, tv := true, cv := true, cur := 97, root := 510, nextIdx := 511
        tree := setNode State.reset.tree 97 ⟨true, 0x61, 0, 0, 5⟩ }
    regRead s 0x0 = 0x0F ∧ regRead s 0xA = 0x01FF01FE0061 ∧ regRead s 0xB = 0x161 := by decide +kernel
/-- V8: register `WRITER` at its end. -/
theorem test_register_writer : regRead { State.reset with wsr := 1, wcnt := 1 } 0x8 = 0x101 := by decide

/-- V8: the third `WBIT`. -/
theorem test_wbit_shifts_in :
    leads (exec (.wbit true) { State.reset with wsr := 0b10, wcnt := 2 })
      (fun t => t.wsr == 0b101 && t.wcnt == 3 && t.io.outData == []) = true := by decide
/-- V24. -/
theorem test_wbit_rejected_byte_loses_the_bit :
    leads (exec (.wbit true) { withWriteDraws [true] with wsr := 0b1010101, wcnt := 7 })
      (fun t => t.io.outData == [0xAA] && t.wbytes == 1 && t.wcnt == 0 && faulted 1 0x1001 t) = true := by
  decide
/-- V9: the second `WCODE 0x63`. -/
theorem test_wcode_completes_a_byte :
    leads (exec (.wcode 0x63)
        { State.reset with
          cv := true, wsr := 0b1011, wcnt := 4, wbytes := 3
          code := setCode (Vector.replicate _ none) 0x63 [true, false, true, true] })
      (fun t => t.io.outData == [0xBB] && t.wsr == 0 && t.wcnt == 0 && t.wbytes == 4) = true := by
  decide
/-- V22. -/
theorem test_wcode_without_codes_is_seq :
    leads (exec (.wcode 0x41) State.reset) (faulted 4 0x1141) = true := by decide
/-- V8. -/
theorem test_wflush_pads_low :
    leads (exec .wflush { State.reset with wsr := 0b101, wcnt := 3 })
      (fun t => t.io.outData == [0xA0] && t.wsr == 0 && t.wcnt == 0 && t.wbytes == 1) = true := by decide
/-- V23. -/
theorem test_wflush_rejected_twice :
    leads (exec .wflush { withWriteDraws [true, true] with wsr := 1, wcnt := 1 })
      (fun t => t.io.outData == [] && t.wsr == 1 && t.wcnt == 1 && t.wbytes == 0 && faulted 1 0x1200 t &&
        t.io.calls.length == 2) = true := by decide
/-- V10: the first bit of `A5`. -/
theorem test_rbit_takes_the_top_bit :
    leads (exec .rbit (withInput [0xA5, 0x80]))
      (fun t => t.rb == true && t.rsr == 0x4A && t.rcnt == 7 && t.rbytes == 1 && t.io.inPos == 1) = true := by
  decide
/-- V10: the last `RBIT`; register `ERR` reads 0x2000_0003, and of `STATUS` only bit 5, `FAULT`, is 1. -/
theorem test_rbit_at_the_end_is_eof :
    leads (exec .rbit State.reset)
      (fun t => faulted 3 0x2000 t && regRead t 0x1 == 0x20000003 && regRead t 0x0 == 0x20) = true := by decide
/-- V11. -/
theorem test_fadd_counts :
    leads (exec (.fadd 0x41) State.reset)
      (fun t => t.freqAt 0x41 == 1 && t.freqAt 0x42 == 0 && t.symcnt == 1) = true := by decide
/-- V13. -/
theorem test_fadd_overflow :
    leads (exec (.fadd 0) (State.reset.setFreq 0 (BitVec.allOnes 64)))
      (fun t => faulted 6 0x3000 t && t.freqAt 0 == BitVec.allOnes 64 && t.symcnt == 0) = true := by
  decide
/-- V11. -/
theorem test_fadds_counts_the_input :
    leads (exec .fadds (withInput [0x41, 0x42, 0x42]))
      (fun t => t.freqAt 0x41 == 1 && t.freqAt 0x42 == 2 && t.symcnt == 3 && t.io.inPos == 3 &&
        t.io.calls.length == 4) = true := by decide
/-- V12: the byte order of a saved entry. -/
theorem test_fsave_is_little_endian :
    fieldBytes 0x0102030405060708 = [8, 7, 6, 5, 4, 3, 2, 1] := by decide
/-- V12: byte 520 of the table after four `FADD 0x41`. -/
theorem test_fsave_places_the_entry :
    let bytes := tableBytes (State.reset.setFreq 0x41 4).freq
    bytes.length = 2048 ∧ bytes[520]? = some 4 ∧ bytes[519]? = some 0 := by decide +kernel
/-- V26: the first byte of the table is missing. -/
theorem test_fload_of_nothing_is_header :
    leads (exec .fload State.reset) (fun t => faulted 2 0x3300 t && t.io.calls.length == 1) = true := by
  decide
/-- V13: the first entry of the table. -/
theorem test_fload_reads_the_first_entry :
    (match loadTable [0] (withInput (List.replicate 8 0xFF)) with
      | .done _ t => t.freqAt 0 == BitVec.allOnes 64 && t.freqAt 1 == 0 && t.symcnt == 0
      | _ => false) = true := by decide
/-- V7, the last three merges with their ties: node 508 takes 65 as its right child and leaves 66, of the same
weight, to 509 above it; 509 takes 508 as its right child and leaves 67 to 510. -/
theorem test_tbuild_merges_of_v7 :
    (mergeLoop 3
        ⟨Vector.replicate _ none, [⟨0, 507⟩, ⟨1, 65⟩, ⟨1, 66⟩, ⟨2, 67⟩], 508⟩).nextIdx = 511 ∧
    let t := (mergeLoop 3
        ⟨Vector.replicate _ none, [⟨0, 507⟩, ⟨1, 65⟩, ⟨1, 66⟩, ⟨2, 67⟩], 508⟩).tree
    nodeAt t 508 = some ⟨false, 0, 507, 65, 1⟩ ∧ nodeAt t 509 = some ⟨false, 0, 66, 508, 2⟩ ∧
      nodeAt t 510 = some ⟨false, 0, 67, 509, 4⟩ := by decide +kernel
/-- V15, the last five merges. -/
theorem test_tbuild_merges_of_v15 :
    let t := (mergeLoop 5
        ⟨Vector.replicate _ none, [⟨0, 505⟩, ⟨1, 99⟩, ⟨1, 100⟩, ⟨2, 98⟩, ⟨2, 114⟩, ⟨5, 97⟩], 506⟩).tree
    nodeAt t 506 = some ⟨false, 0, 505, 99, 1⟩ ∧ nodeAt t 507 = some ⟨false, 0, 100, 506, 2⟩ ∧
      nodeAt t 508 = some ⟨false, 0, 98, 114, 4⟩ ∧ nodeAt t 509 = some ⟨false, 0, 507, 508, 6⟩ ∧
      nodeAt t 510 = some ⟨false, 0, 97, 509, 11⟩ := by decide +kernel
/-- V5 and V15: the codewords of A, B, C, down to the entry 507. -/
theorem test_tcodes_paths_of_v5 :
    codesFrom (setNode treeV5 507 ⟨true, 0, 0, 0, 0⟩) 5 510 [] =
      some [(0, [false, false, false]), (0x41, [false, false, true]), (0x42, [false, true]), (0x43, [true])] := by
  decide +kernel
/-- V22: with bits pending. -/
theorem test_tcodes_without_tree_is_seq :
    leads (exec .tcodes { State.reset with wsr := 1, wcnt := 1 })
      (fun t => faulted 4 0x4100 t && t.io.outData == [0x80] && t.wbytes == 1 && t.wcnt == 0) = true := by
  decide
/-- V16 with the codewords of V15: the paths of five symbols. -/
theorem test_trecon_paths_of_v16 :
    let bit (c : Char) : Bit := c == '1'
    let code := setCode (setCode (codedV5 []).code 0 ("00000000110".toList.map bit))
      1 ("00000000111".toList.map bit)
    let r := reconSymbols (Vector.replicate _ 0) code [0, 1, 0x41, 0x42, 0x43]
      ⟨setNode (Vector.replicate _ none) 256 bareNode, 257, 256⟩
    r.isSome = true ∧
    ∀ x ∈ r, nodeAt x.tree 256 = some ⟨false, 0, 257, 67, 0⟩ ∧ nodeAt x.tree 257 = some ⟨false, 0, 258, 66, 0⟩ ∧
      nodeAt x.tree 258 = some ⟨false, 0, 259, 65, 0⟩ ∧ nodeAt x.tree 266 = some ⟨false, 0, 0, 1, 0⟩ := by
  decide +kernel
/-- V22. -/
theorem test_trecon_without_codes_is_seq :
    leads (exec .trecon { State.reset with fl := true, tv := true }) (faulted 4 0x4200) = true := by decide
/-- V19. -/
theorem test_wkrst_returns :
    leads (exec .wkrst (walkingV5 507 [])) (fun t => t.cur == 510) = true := by decide
/-- V19: from the leaf 67, bit 0 goes to 510 and left. -/
theorem test_wkadv_leaves_a_leaf :
    leads (exec (.wkadv false) (walkingV5 67 []))
      (fun t => t.cur == 509 && t.leafView == false && t.symView == 0) = true := by decide +kernel
/-- V19: from 509, bit 1 reaches the leaf of B. -/
theorem test_wkadv_reaches_a_leaf :
    leads (exec (.wkadv true) (walkingV5 509 []))
      (fun t => t.cur == 66 && t.leafView == true && t.symView == 0x42) = true := by decide +kernel
/-- V20. -/
theorem test_csave_writes_the_count :
    leads (exec .csave { State.reset with symcnt := 11 })
      (fun t => t.io.outData == [0x0B, 0, 0, 0, 0, 0, 0, 0]) = true := by decide
/-- V20. -/
theorem test_cload_reads_the_count :
    leads (exec .cload (withInput [8, 7, 6, 5, 4, 3, 2, 1])) (fun t => t.symcnt == 0x0102030405060708) =
      true := by decide
/-- V26: seven bytes. -/
theorem test_cload_of_seven_bytes_is_header :
    leads (exec .cload (withInput (List.replicate 7 1)))
      (fun t => faulted 2 0x6100 t && t.symcnt == 0 && t.io.calls.length == 8) = true := by decide
/-- V5: the payload bits of ABBCCCC; `ESYMS` leaves the last three pending. -/
theorem test_esyms_encodes_v5 :
    leads (exec .esyms (codedV5 [0x41, 0x42, 0x42, 0x43, 0x43, 0x43, 0x43]))
      (fun t => t.io.outData == [0x2B] && t.wsr == 0b111 && t.wcnt == 3 && t.io.inPos == 7) = true := by
  decide
/-- V5: the first codeword of the payload `2B E0` is that of A. -/
theorem test_dsym_decodes_v5 :
    leads (exec .dsym (walkingV5 510 [0x2B, 0xE0]))
      (fun t => t.io.outData == [0x41] && t.emit == 1 && t.cur == 65 && t.rsr == 0x58 && t.rcnt == 5) =
      true := by decide +kernel
/-- V22. -/
theorem test_dsym_without_tree_is_seq :
    leads (exec .dsym State.reset) (fun t => faulted 4 0x6300 t && t.io.calls == []) = true := by decide
/-- V2. -/
theorem test_encode_of_nothing :
    leads (exec .encode State.reset)
      (fun t => t.io.calls.length == 2058 + 2 && t.resA == 0 && t.resB == 2056 && t.errCode == 0) = true := by
  decide +kernel
/-- V26, n = 0. -/
theorem test_decode_of_nothing_is_header :
    leads (exec .decode State.reset)
      (fun t => faulted 2 0x7100 t && t.io.calls.length == 2 && regRead t 0x1 == 0x71000002) = true := by
  decide
/-- 44_archiver.md R190. -/
theorem test_nop_keeps_pending_bits :
    leads (exec .nop { State.reset with wsr := 1, wcnt := 1 }) (fun t => t.wsr == 1 && t.wcnt == 1) = true := by
  decide
/-- 44_archiver.md R191. -/
theorem test_init_clears_the_fault :
    leads (exec .init { State.reset with errCode := 3, errCmd := 0x2000, wsr := 1, wcnt := 1, symcnt := 9 })
      (fun t => faulted 0 0 t && regRead t 0x0 == 0 && t.wcnt == 0 && t.symcnt == 0 && t.io.outData == []) =
      true := by decide
/-- V29. -/
theorem test_illegal_word_flushes :
    leads (step ({ State.reset with wsr := 1, wcnt := 1 }.presented 0xFFFF))
      (fun t => faulted 5 0xFFFF t && t.io.outData == [0x80]) = true := by decide
/-- Program P5: a faulted engine ignores a word that is not `INIT`. -/
theorem test_faulted_engine_ignores_nop_words :
    leads (step ({ State.reset with errCode := 2, errCmd := 0x7100 }.presented 0x3041))
      (fun t => faulted 2 0x7100 t && t.symcnt == 0) = true := by decide

/-! ### Witnesses: each obligation with hypotheses has a state and operands that meet them all -/

theorem noDraws : ∀ d ∈ ([] : List Bool), d = false := by simp

theorem restOfInput_withInput (bytes : List Byte) : restOfInput (withInput bytes) = bytes := rfl

theorem freqAt_reset (s : State) (h : s.freq = State.reset.freq) (sym : Symbol) : s.freqAt sym = 0 := by
  simp [State.freqAt, h, State.reset]

theorem walkedBits_atRoot {s : State} (h : s.cur = s.root) : WalkedBits s [] := by
  unfold WalkedBits
  split
  · rfl
  · rw [h]; rfl

/-- A writer, a reader and a session in the middle of their work; no memory is written. -/
def busySession : State :=
  { State.reset with
    fl := true, tv := true, cv := true, wsr := 0b101, wcnt := 3, rsr := 0x80, rcnt := 1
    code := setCode State.reset.code 0x41 [true] }

theorem regInv_busySession : RegInv busySession where
  writer := by decide
  readerCount := by decide
  readerLow := by decide
  codesNeedTree := by decide
  treeNeedsLock := by decide
  errRange := by decide
  errEmpty := by decide
  heapSize := by decide
  inputPos := by decide

theorem witness_encodedWordIsTheOnlyWordDecoded : decodeWord 0x1163 = some (.wcode 0x63) := by decide
theorem witness_wordIsLegalIffOneRowCoversIt :
    ⟨0x1100, 0xFF00⟩ ∈ opcodeTable ∧ (⟨0x1100, 0xFF00⟩ : OpcodeRow).covers 0x11FF = true := by decide
theorem witness_stepRunsTheDecodedCommand :
    (State.reset.presented 0x1001).pending = [.command 0x1001] ∧ decodeWord 0x1001 = some (.wbit true) := by
  decide
theorem witness_illegalWordRaisesEIllegal :
    Running (State.reset.presented 0x0101) ∧
    (State.reset.presented 0x0101).pending = [.command 0x0101] ∧ decodeWord 0x0101 = none ∧
    (State.reset.presented 0x0101).wcnt = 0 := by decide
theorem witness_faultedEngineIgnoresAllButInit :
    let s : State := { State.reset with errCode := 2, errCmd := 0x7100 }
    ¬ Running s ∧ (s.presented 0x0101).pending = [.command 0x0101] ∧ (0x0101 : CmdWord) ≠ 0x0100 ∧
    (s.presented 0x0100).pending = [.command 0x0100] ∧ Instr.nop ≠ .init := by decide
theorem witness_idleEngineHoldsItsState : State.reset.pending = [] := by decide
theorem witness_faultEntryFlushesAndRecords :
    State.reset.wcnt = 0 ∧ busySession.wcnt ≠ 0 ∧ busySession.io.outAccepts = true ∧
    ({ withWriteDraws [true] with wcnt := 1 } : State).io.outAccepts = false := by decide
theorem witness_recordedFaultNamesItsCommand :
    Running State.reset ∧ ∃ t, exec .rbit State.reset = .next t ∧ ¬ Running t := by
  refine ⟨by decide, ?_⟩
  obtain ⟨t, ht, hp⟩ := exists_of_leads (o := exec .rbit State.reset) (p := fun t => t.errCode == 3) (by decide)
  exact ⟨t, ht, by simp [show t.errCode = 3 by simpa using hp]⟩
/-- Each of the five codes is recorded by some command. -/
theorem witness_faultCodesComeFromTheirCauses :
    Running (withWriteDraws [true]) ∧
    leads (exec .csave (withWriteDraws [true])) (fun t => t.errCode == 1) = true ∧
    leads (exec .cload State.reset) (fun t => t.errCode == 2) = true ∧
    leads (exec .rbit State.reset) (fun t => t.errCode == 3) = true ∧
    leads (exec .wkrst State.reset) (fun t => t.errCode == 4) = true ∧
    leads (exec .fadds { withInput [0x41] with symcnt := BitVec.allOnes 64 }) (fun t => t.errCode == 6) = true ∧
    leads (exec (.fadd 0) { State.reset with symcnt := BitVec.allOnes 64 }) (fun t => t.errCode == 6) = true := by
  decide
theorem witness_phaseViolationRaisesESeq :
    Running busySession ∧ busySession.fl = true ∧ State.reset.tv = false ∧ State.reset.cv = false := by decide
/-- Each clause: a step that keeps the fault, and the three events that clear it. -/
theorem witness_onlyInitAndResetClearTheFault :
    let s (events : List HostEvent) : State :=
      { State.reset with errCode := 3, errCmd := 0x2000, pending := events }
    (∀ events, ¬ Running (s events)) ∧ step (s [.command 0x2000]) = .next (s []) ∧
    ∀ e ∈ [HostEvent.command 0x0100, .reset, .resetDuring 0x0100 0, .resetDuring 0x2000 1],
      step (s [e]) = .next State.reset := by
  refine ⟨fun _ => by simp, rfl, fun e he => ?_⟩
  simp only [List.mem_cons, List.not_mem_nil, or_false] at he
  obtain rfl | rfl | rfl | rfl := he <;> rfl
theorem witness_reInitialisationGivesTheResetTable :
    ({ busySession with pending := [.reset] } : State).pending = [.reset] := rfl
/-- `CLOAD` makes eight calls: it is abandoned before the first, after the second, or after the last. -/
theorem witness_resetDuringCommandKeepsMovedBytes :
    let s := withInput (List.replicate 9 1)
    leads (takeWord 0x6100 s) (fun u => (newCalls s u).length == 8) = true ∧
    leads (step { s with pending := [.resetDuring 0x6100 0] }) (fun t => t.io.inPos == 0) = true ∧
    leads (step { s with pending := [.resetDuring 0x6100 2] }) (fun t => t.io.inPos == 2 && t.symcnt == 0) = true ∧
    leads (step { s with pending := [.resetDuring 0x6100 8] }) (fun t => t.io.inPos == 8 && t.symcnt == 0) =
      true := by decide
theorem witness_wbitPutsOneBit :
    Running busySession ∧ busySession.wcnt ≠ 7 ∧ ({ busySession with wcnt := 6 } : State).wcnt ≠ 7 ∧
    ({ busySession with wcnt := 7 } : State).io.outAccepts = true ∧
    (withWriteDraws [true]).io.outAccepts = false := by decide
theorem witness_wcodeAppendsTheCodeword :
    Running busySession ∧ RegInv busySession ∧ WritesSucceed busySession ∧ busySession.cv = true ∧
    codeAt busySession.code 0x41 = some [true] :=
  ⟨by decide, regInv_busySession, noDraws, by decide, by decide⟩
theorem witness_wflushEmitsThePendingByte :
    Running State.reset ∧ State.reset.wcnt = 0 ∧ Running busySession ∧ busySession.wcnt ≠ 0 ∧
    busySession.io.outAccepts = true ∧
    ({ withWriteDraws [true] with wcnt := 7 } : State).wcnt ≠ 0 ∧
    ({ withWriteDraws [true] with wcnt := 7 } : State).io.outAccepts = false := by decide
theorem witness_rbitDeliversTheNextBit :
    busySession.rcnt ≠ 0 ∧ State.reset.rcnt = 0 ∧ (withInput [0xA5]).io.inAnswer = .byte 0xA5 ∧
    State.reset.io.inAnswer = .eof ∧ ({ Streams.start with readDraws := [true] } : Streams).inAnswer = .err := by
  decide
theorem witness_rbitReadsTheInputInStreamOrder :
    Running busySession ∧ RegInv busySession ∧ ReadsSucceed busySession ∧ inputBits busySession = [true] ∧
    inputBits (withInput [0xA5]) = [true, false, true, false, false, true, false, true] :=
  ⟨by decide, regInv_busySession, noDraws, by decide, by decide⟩
theorem witness_faddCountsOneOccurrence :
    Running State.reset ∧ busySession.fl = true ∧ State.reset.fl = false ∧
    State.reset.freqAt 0xFF ≠ BitVec.allOnes 64 ∧ State.reset.symcnt ≠ BitVec.allOnes 64 ∧
    (State.reset.setFreq 0 (BitVec.allOnes 64)).freqAt 0 = BitVec.allOnes 64 ∧
    ({ State.reset with symcnt := BitVec.allOnes 64 } : State).symcnt = BitVec.allOnes 64 := by
  decide
theorem witness_faddsCountsTheRestOfTheInput :
    let s := withInput [0x41, 0x42, 0x42]
    Running s ∧ s.fl = false ∧ ReadsSucceed s ∧
    (∀ sym, (s.freqAt sym).toNat + (restOfInput s).count sym < 2 ^ 64) ∧
    s.symcnt.toNat + (restOfInput s).length < 2 ^ 64 := by
  refine ⟨rfl, rfl, noDraws, fun sym => ?_, by decide⟩
  rw [freqAt_reset (withInput [0x41, 0x42, 0x42]) rfl, restOfInput_withInput]
  have h := List.count_le_length (a := sym) (l := [0x41, 0x42, 0x42])
  have hz : (0 : Count).toNat = 0 := rfl
  rw [hz, Nat.zero_add]
  exact Nat.lt_of_le_of_lt h (by decide)
/-- The second byte is rejected: `j = 1` in the failing clause. -/
theorem witness_fsaveWritesTheTable :
    Running State.reset ∧ WritesSucceed State.reset ∧ (withWriteDraws [false, true]).io.writeDraws[1]? = some true ∧
    (∀ k < 1, (withWriteDraws [false, true]).io.writeDraws[k]? = some false) ∧
    (tableBytes State.reset.freq)[1]? = some 0 :=
  ⟨by decide, noDraws, by decide, by decide, by decide⟩
theorem witness_floadReadsTheTable :
    let s := withInput (List.replicate 2048 7)
    Running s ∧ s.fl = false ∧ ReadsSucceed s ∧ 2048 ≤ (restOfInput s).length :=
  ⟨rfl, rfl, noDraws, by rw [restOfInput_withInput, List.length_replicate]⟩
/-- One byte short: the entry 254 is whole, the entry 255 is not. -/
theorem witness_floadOnShortInputIsEHeader :
    let s := withInput (List.replicate 2047 7)
    Running s ∧ s.fl = false ∧ ReadsSucceed s ∧ (restOfInput s).length < 2048 ∧
    8 * (254 : Symbol).toNat + 8 ≤ (restOfInput s).length ∧
    (restOfInput s).length < 8 * (255 : Symbol).toNat + 8 := by
  refine ⟨rfl, rfl, noDraws, ?_⟩
  rw [restOfInput_withInput, List.length_replicate]
  decide
theorem length_tableBytes_reset : (tableBytes State.reset.freq).length = 2048 := by decide +kernel

theorem fsave_next {s : State} (h : Running s) (hw : WritesSucceed s) :
    exec .fsave s = .next { s with io := wroteBytes s.io (tableBytes s.freq) } :=
  (runCommand_running .fsave bodyFsave h).trans (congrArg (finish _) (outBytes_of_writesSucceed _ hw))

theorem fload_next {s : State} (h : Running s) (hl : s.fl = false) (hr : ReadsSucceed s)
    (hlen : 2048 ≤ (restOfInput s).length) :
    exec .fload s =
      .next { s with freq := loadInto allSymbols (restOfInput s) s.freq, io := tookBytes s.io 2048 } :=
  (runCommand_running .fload bodyFload h).trans (congrArg (finish _) (bodyFload_took hr hl hlen))

/-- `FSAVE` of the reset table, and `FLOAD` of the 2048 bytes. -/
theorem witness_floadInvertsFsave :
    let bytes := tableBytes State.reset.freq
    Running State.reset ∧
    (∃ t, exec .fsave State.reset = .next t ∧ Running t ∧ t.io.outData = State.reset.io.outData ++ bytes) ∧
    Running (withInput bytes) ∧ (withInput bytes).fl = false ∧ restOfInput (withInput bytes) = bytes ++ [] ∧
    ∃ v, exec .fload (withInput bytes) = .next v ∧ Running v := by
  refine ⟨rfl, ⟨_, fsave_next rfl noDraws, rfl, rfl⟩, rfl, rfl, (List.append_nil _).symm, _,
    fload_next (s := withInput (tableBytes State.reset.freq)) rfl rfl noDraws ?_, rfl⟩
  rw [restOfInput_withInput, length_tableBytes_reset]
theorem witness_heapExtractsALeastEntry :
    HeapOrdered [⟨1, 3⟩, ⟨1, 4⟩, ⟨2, 0⟩] ∧ ([⟨1, 3⟩, ⟨1, 4⟩, ⟨2, 0⟩] : List HeapEntry) ≠ [] := by
  refine ⟨?_, by simp⟩
  intro i x y h0 hx hy
  have hi : i < 3 := by
    by_contra hge
    rw [List.getElem?_eq_none (by simp; omega)] at hx
    cases hx
  obtain rfl | rfl : i = 1 ∨ i = 2 := by omega
  · simp at hx hy; subst hx hy; decide
  · simp at hx hy; subst hx hy; decide
/-- `TBUILD` from reset: the hypotheses of `TbuildWritesLeavesAndRoot`, `TbuildInternalNodesFormOneTree`,
`TbuildGivesEverySymbolOnePath` and `TbuildMergesTheTwoLeast`. -/
theorem witness_tbuild :
    Running State.reset ∧ State.reset.fl = false ∧ ∃ t, exec .tbuild State.reset = .next t :=
  ⟨by decide, by decide, _, rfl⟩
/-- Two states that differ, with the same counts. -/
theorem witness_tbuildDependsOnTheCountsAlone :
    let u : State := { State.reset with root := 9, tree := treeV5, wsr := 1, wcnt := 1 }
    Running u ∧ u.fl = false ∧ State.reset.freq = u.freq ∧ (∃ t, exec .tbuild State.reset = .next t) ∧
    ∃ v, exec .tbuild u = .next v := ⟨rfl, rfl, rfl, ⟨_, rfl⟩, _, rfl⟩
theorem witness_loneSymbolHasCodewordOne :
    let s := State.reset.setFreq 0x41 4
    Running s ∧ s.fl = false ∧ s.freqAt 0x41 ≠ 0 ∧ ∀ x, x ≠ 0x41 → s.freqAt x = 0 := by
  refine ⟨rfl, rfl, by decide, fun x hx => ?_⟩
  have hne : (0x41 : Symbol).toNat ≠ x.toNat := fun h => hx (BitVec.eq_of_toNat_eq h).symm
  simp only [State.freqAt, State.setFreq]
  rw [Vector.getElem_set_ne _ _ hne]
  simp [State.reset]

/-! The tree of V14, which all counts equal to 0 give: node 256 + k has the children 2k and 2k + 1. -/

/-- The entry `k` of the tree of V14. -/
def evenNode (k : Nat) : Node :=
  if k < 256 then ⟨true, BitVec.ofNat 8 k, 0, 0, 0⟩
  else ⟨false, 0, BitVec.ofNat 9 (2 * (k - 256)), BitVec.ofNat 9 (2 * (k - 256) + 1), 0⟩

def evenTree : TreeRam := Vector.ofFn fun i => some (evenNode i.val)

/-- `CODE[s]` is s as 8 bits (V14). -/
def evenCode : CodeRam := Vector.ofFn fun i => some (byteBits (BitVec.ofNat 8 i.val))

def evenCodes : List (Symbol × Codeword) := allSymbols.map fun s => (s, byteBits s)

theorem codeAt_even (s : Symbol) : codeAt evenCode s = some (byteBits s) := by
  simp [codeAt, evenCode]

/-- `nodeAt evenTree`, as the kernel evaluates it quickly. -/
def evenLookup (i : NodeIndex) : Option Node := if i.toNat < 511 then some (evenNode i.toNat) else none

theorem nodeAt_evenTree : nodeAt evenTree = evenLookup := by
  funext i
  unfold evenLookup
  split <;> simp [nodeAt, evenTree, *]

/-- `codesFrom` over a function. -/
def codesBy (f : NodeIndex → Option Node) : (n : Nat) → NodeIndex → Codeword → Option (List (Symbol × Codeword))
  | 0, _, _ => none
  | n + 1, i, p =>
    match f i with
    | none => none
    | some nd =>
      if nd.leaf then some [(nd.sym, p)]
      else
        match codesBy f n nd.left (p ++ [false]), codesBy f n nd.right (p ++ [true]) with
        | some l, some r => some (l ++ r)
        | _, _ => none

theorem codesFrom_eq (tree : TreeRam) (n : Nat) (i : NodeIndex) (p : Codeword) :
    codesFrom tree n i p = codesBy (nodeAt tree) n i p := by
  induction n generalizing i p with
  | zero => rfl
  | succ n ih =>
    rw [codesFrom, codesBy]
    cases nodeAt tree i with
    | none => rfl
    | some nd => simp only [ih]; first | done | rfl

/-- `walkFrom` over a function. -/
def walkBy (f : NodeIndex → Option Node) : NodeIndex → List Bit → Option NodeIndex
  | i, [] => some i
  | i, b :: bs =>
    match f i with
    | none => none
    | some n => if n.leaf then none else walkBy f (n.child b) bs

theorem walkFrom_eq (tree : TreeRam) (bits : List Bit) (i : NodeIndex) :
    walkFrom tree i bits = walkBy (nodeAt tree) i bits := by
  induction bits generalizing i with
  | nil => rfl
  | cons b bs ih =>
    rw [walkFrom, walkBy]
    cases nodeAt tree i with
    | none => rfl
    | some n => simp only [ih]

theorem treeCodes_even : treeCodes evenTree 510 = some evenCodes := by
  rw [treeCodes, codesFrom_eq, nodeAt_evenTree]
  decide +kernel

theorem treeOk_even : TreeOk evenTree 510 := by
  refine ⟨evenCodes, treeCodes_even, ?_, ?_⟩
  · have h : evenCodes.map Prod.fst = allSymbols := by
      simp [evenCodes, Function.comp_def]
    rw [h]
  · intro sp h
    obtain ⟨s, -, rfl⟩ := List.mem_map.mp h
    simp [byteBits]

theorem pathIs_even {sym : Symbol} {p : Codeword} : PathIs evenTree 510 sym p ↔ p = byteBits sym := by
  constructor
  · rintro ⟨l, hl, hm⟩
    rw [← Option.some.inj (treeCodes_even.symm.trans hl)] at hm
    obtain ⟨s, -, h⟩ := List.mem_map.mp hm
    rw [← (Prod.mk.inj h).1]
    exact (Prod.mk.inj h).2.symm
  · rintro rfl
    refine ⟨_, treeCodes_even, List.mem_map.mpr ⟨sym, ?_, rfl⟩⟩
    exact List.mem_map.mpr ⟨sym.toNat, List.mem_range.mpr sym.isLt, by simp⟩

/-- A session on the tree of V14 with the walker at `cur` and an input. -/
def evenSession (cur : NodeIndex) (bytes : List Byte) : State :=
  { withInput bytes with
    fl := true, tv := true, cv := true, root := 510, cur := cur, nextIdx := 511, tree := evenTree
    code := evenCode }

theorem good_evenSession {cur : NodeIndex} (bytes : List Byte)
    (h : ∃ q, walkFrom evenTree 510 q = some cur) : Good (evenSession cur bytes) where
  regs :=
    { writer := by show (0 : BitVec 8).toNat < 1; decide
      readerCount := by show (0 : BitVec 4).toNat ≤ 8; decide
      readerLow := by show (0 : BitVec 8).toNat % _ = 0; simp
      codesNeedTree := fun _ => rfl
      treeNeedsLock := fun _ => rfl
      errRange := by show (0 : BitVec 4).toNat ≤ 6; decide
      errEmpty := fun _ => rfl
      heapSize := Nat.zero_le _
      inputPos := Nat.zero_le _ }
  tree :=
    { tree := fun _ => treeOk_even
      root := fun _ => .inl rfl
      next := fun _ => rfl
      cursor := fun _ => h
      codes := fun _ sym p hp => by
        rw [pathIs_even.mp hp]
        exact codeAt_even sym }

theorem good_atRoot (bytes : List Byte) : Good (evenSession 510 bytes) := good_evenSession bytes ⟨[], rfl⟩
/-- The walker stands at the leaf of the symbol 1. -/
theorem good_atLeaf (bytes : List Byte) : Good (evenSession 1 bytes) := by
  refine good_evenSession bytes ⟨byteBits 1, ?_⟩
  rw [walkFrom_eq, nodeAt_evenTree]
  decide

theorem leafView_atLeaf (bytes : List Byte) : (evenSession 1 bytes).leafView = true := by
  simp [State.leafView, State.atLeaf, evenSession, nodeAt_evenTree, evenLookup, evenNode]

theorem witness_tcodesWritesEveryPath :
    Running (evenSession 510 []) ∧ (evenSession 510 []).tv = true ∧
    TreeOk (evenSession 510 []).tree (evenSession 510 []).root := ⟨rfl, rfl, treeOk_even⟩
/-- The hypotheses of `CodeTableIsPrefixFreeAndComplete`, `TreconKeepsEveryPath`, `WkrstReturnsToTheRoot` (its
clause for a good state) and `EsymsEncodesTheRestOfTheInput`. -/
theorem witness_codedSession :
    Running (evenSession 510 [0x41]) ∧ Good (evenSession 510 [0x41]) ∧ (evenSession 510 [0x41]).tv = true ∧
    (evenSession 510 [0x41]).cv = true ∧ ReadsSucceed (evenSession 510 [0x41]) ∧
    WritesSucceed (evenSession 510 [0x41]) ∧ codeAt (evenSession 510 [0x41]).code 0x41 = some (byteBits 0x41) :=
  ⟨rfl, good_atRoot _, rfl, rfl, noDraws, noDraws, codeAt_even _⟩
theorem witness_wkrstReturnsToTheRoot : Running State.reset ∧ State.reset.tv = false := ⟨rfl, rfl⟩
theorem witness_wkadvFollowsTheBit :
    Running (walkingV5 509 []) ∧ (walkingV5 509 []).tv = true ∧
    nodeAt (walkingV5 509 []).tree 509 = some ⟨false, 0, 508, 66, 3⟩ ∧
    nodeAt (walkingV5 67 []).tree 67 = some ⟨true, 0x43, 0, 0, 1⟩ ∧
    nodeAt (walkingV5 67 []).tree 510 = some ⟨false, 0, 509, 67, 7⟩ ∧ State.reset.tv = false := by
  decide +kernel
/-- From the root, from a leaf, and a proper part of the path. -/
theorem witness_walkerDecodesAPath :
    Good (evenSession 510 []) ∧ (evenSession 510 []).cur = (evenSession 510 []).root ∧
    Good (evenSession 1 []) ∧ (evenSession 1 []).leafView = true ∧
    PathIs (evenSession 510 []).tree (evenSession 510 []).root 0x41 (byteBits 0x41) ∧
    [false] <+: byteBits 0x41 ∧ [false] ≠ ([] : List Bit) ∧ [false] ≠ byteBits 0x41 :=
  ⟨good_atRoot _, rfl, good_atLeaf _, leafView_atLeaf _, pathIs_even.mpr rfl, by decide, by decide, by decide⟩
theorem witness_csaveWritesTheCount :
    WritesSucceed State.reset ∧ (withWriteDraws [false, true]).io.writeDraws[1]? = some true ∧
    (∀ k < 1, (withWriteDraws [false, true]).io.writeDraws[k]? = some false) ∧
    (fieldBytes 11)[1]? = some 0 :=
  ⟨noDraws, by decide, by decide, by decide⟩
theorem witness_cloadReadsTheCount :
    let failing : State :=
      { State.reset with io := { Streams.start with inData := [1], readDraws := [false, true] } }
    ReadsSucceed (withInput (List.replicate 8 1)) ∧ 8 ≤ (restOfInput (withInput (List.replicate 8 1))).length ∧
    (restOfInput (withInput (List.replicate 7 1))).length < 8 ∧
    Running failing ∧ 1 ≤ (restOfInput failing).length ∧ failing.io.readDraws[1]? = some true ∧
    ∀ k < 1, failing.io.readDraws[k]? = some false :=
  ⟨noDraws, by decide, by decide, rfl, by decide, by decide, by decide⟩
/-- At the root with a whole codeword in the input. -/
theorem witness_dsymDecodesOneSymbol (s : State) (hs : s = evenSession 510 [0x41]) :
    Running s ∧ Good s ∧ s.tv = true ∧ ReadsSucceed s ∧ WritesSucceed s ∧ WalkedBits s [] ∧
    PathIs s.tree s.root 0x41 ([] ++ byteBits 0x41) ∧ inputBits s = byteBits 0x41 ++ [] := by
  have hw : WalkedBits s [] := walkedBits_atRoot (by rw [hs]; rfl)
  refine ⟨?_, ?_, ?_, ?_, ?_, hw, ?_, ?_⟩ <;> subst hs
  · rfl
  · exact good_atRoot _
  · rfl
  · exact noDraws
  · exact noDraws
  · exact pathIs_even.mpr rfl
  · decide
/-- At the root with three bits, then nothing, in the reader. -/
theorem witness_dsymInsideACodewordIsEEof (s : State)
    (hs : s = { evenSession 510 [] with rsr := 0xE0, rcnt := 3 }) :
    Running s ∧ Good s ∧ s.tv = true ∧ ReadsSucceed s ∧ WalkedBits s [] ∧ inputBits s = [true, true, true] ∧
    ∀ sym p, PathIs s.tree s.root sym ([] ++ p) → ¬ p <+: inputBits s := by
  have hw : WalkedBits s [] := walkedBits_atRoot (by rw [hs]; rfl)
  have hb : inputBits s = [true, true, true] := by rw [hs]; decide
  refine ⟨?_, ?_, ?_, ?_, hw, hb, ?_⟩
  · rw [hs]
    rfl
  · have hg := good_atRoot []
    rw [hs]
    refine ⟨{ hg.regs with readerCount := ?_, readerLow := ?_ },
      ⟨hg.tree.tree, hg.tree.root, hg.tree.next, hg.tree.cursor, hg.tree.codes⟩⟩
    · show (3 : BitVec 4).toNat ≤ 8
      decide
    · show (0xE0 : BitVec 8).toNat % 2 ^ (8 - (3 : BitVec 4).toNat) = 0
      decide
  · rw [hs]
    rfl
  · rw [hs]
    exact noDraws
  · intro sym p hp hpre
    have ht : s.tree = evenTree ∧ s.root = 510 := by rw [hs]; exact ⟨rfl, rfl⟩
    have h8 : p.length = 8 := by
      rw [ht.1, ht.2] at hp
      rw [show p = byteBits sym from pathIs_even.mp hp]
      simp [byteBits]
    have h3 : p.length ≤ 3 := by
      rw [hb] at hpre
      exact hpre.length_le
    omega
/-- At the root with no bit left. -/
theorem witness_dsymInsideACodewordIsEEof_noBits (s : State) (hs : s = evenSession 510 []) :
    Good s ∧ s.tv = true ∧ WalkedBits s [] ∧ inputBits s = [] ∧
    ∀ sym p, PathIs s.tree s.root sym ([] ++ p) → ¬ p <+: inputBits s := by
  have hw : WalkedBits s [] := walkedBits_atRoot (by rw [hs]; rfl)
  have hb : inputBits s = [] := by rw [hs]; decide
  refine ⟨?_, ?_, hw, hb, fun sym p hp hpre => ?_⟩
  · rw [hs]
    exact good_atRoot []
  · rw [hs]
    rfl
  · have ht : s.tree = evenTree ∧ s.root = 510 := by rw [hs]; exact ⟨rfl, rfl⟩
    rw [ht.1, ht.2] at hp
    have h8 : p.length = 8 := by
      rw [show p = byteBits sym from pathIs_even.mp hp]
      simp [byteBits]
    rw [hb] at hpre
    have h0 : p.length ≤ 0 := hpre.length_le
    omega
/-- Also for `HostDrivenEncodeAgreesWithEncode`, which has the same hypotheses. -/
theorem witness_encodeWritesTheArchive :
    let s := withInput [0x41, 0x42, 0x42]
    Running s ∧ ReadsSucceed s ∧ WritesSucceed s ∧ s.io.inData.length < 2 ^ 64 :=
  ⟨rfl, noDraws, noDraws, by decide⟩

theorem byte_of_bits (a b c d e f g h : Bit) :
    byteBits (BitVec.ofBoolListBE [a, b, c, d, e, f, g, h]) = [a, b, c, d, e, f, g, h] := by
  revert a b c d e f g h
  decide

/-- Every bit string can be packed. -/
theorem exists_packed (n : Nat) : ∀ bits : List Bit, bits.length ≤ n → ∃ bytes, Packed bytes bits := by
  induction n with
  | zero => exact fun bits h => ⟨[], 0, by decide, by simp [List.length_eq_zero_iff.mp (Nat.le_zero.mp h), bytesBits]⟩
  | succ n ih =>
    intro bits h
    match bits, h with
    | a :: b :: c :: d :: e :: f :: g :: i :: rest, h =>
      obtain ⟨bytes, k, hk, hb⟩ := ih rest (by simp at h; omega)
      refine ⟨BitVec.ofBoolListBE [a, b, c, d, e, f, g, i] :: bytes, k, hk, ?_⟩
      show byteBits _ ++ bytesBits bytes = _
      rw [byte_of_bits, hb]
      rfl
    | [], _ => exact ⟨[], 0, by decide, rfl⟩
    | [a], _ => exact ⟨[_], 7, by decide, (byte_of_bits a false false false false false false false)⟩
    | [a, b], _ => exact ⟨[_], 6, by decide, (byte_of_bits a b false false false false false false)⟩
    | [a, b, c], _ => exact ⟨[_], 5, by decide, (byte_of_bits a b c false false false false false)⟩
    | [a, b, c, d], _ => exact ⟨[_], 4, by decide, (byte_of_bits a b c d false false false false)⟩
    | [a, b, c, d, e], _ => exact ⟨[_], 3, by decide, (byte_of_bits a b c d e false false false)⟩
    | [a, b, c, d, e, f], _ => exact ⟨[_], 2, by decide, (byte_of_bits a b c d e f false false)⟩
    | [a, b, c, d, e, f, g], _ => exact ⟨[_], 1, by decide, (byte_of_bits a b c d e f g false)⟩

/-- Any input has an archive to decode; also for `HostDrivenDecodeAgreesWithDecode`, which has the same
hypotheses. -/
theorem witness_decodeReadsTheArchive :
    ∃ payload, IsPayload payload [0x41, 0x42, 0x42] ∧
      let s := withInput (headerOf [0x41, 0x42, 0x42] ++ payload ++ [0xDE])
      Running s ∧ ReadsSucceed s ∧ WritesSucceed s ∧ [0x41, 0x42, (0x42 : Byte)].length < 2 ^ 64 ∧
      s.io.inData = headerOf [0x41, 0x42, 0x42] ++ payload ++ [0xDE] := by
  obtain ⟨payload, h⟩ := exists_packed _ (payloadBitsOf [0x41, 0x42, 0x42]) le_rfl
  exact ⟨payload, h, rfl, noDraws, noDraws, by decide, rfl⟩
/-- `ENCODE` of the empty input, then `DECODE` of its archive; both end without a fault. -/
theorem witness_decodeInvertsEncode :
    Running State.reset ∧ State.reset.io.outData = [] ∧
    ∃ t v, exec .encode State.reset = .next t ∧ Running t ∧ Running (withInput t.io.outData) ∧
      (withInput t.io.outData).io.inData = t.io.outData ∧ (withInput t.io.outData).io.outData = [] ∧
      exec .decode (withInput t.io.outData) = .next v ∧ Running v := by
  obtain ⟨t, ht, hrun, hout⟩ := encode_empty (s := State.reset) rfl noDraws noDraws rfl
  have hlen : (tableBytes State.reset.freq).length = 2048 := length_tableBytes_reset
  have hdata : t.io.outData = fieldBytes 0 ++ tableBytes State.reset.freq := hout
  obtain ⟨v, hv, hrun'⟩ := decode_headerOnly (s := withInput t.io.outData) rfl noDraws
    (by show 2056 ≤ t.io.outData.length; rw [hdata, List.length_append, hlen]; decide)
    (by show fieldOf 0 0 (t.io.outData.take 8) = 0; rw [hdata, List.take_left' (i := 8) (by decide)]; decide)
  exact ⟨rfl, rfl, t, v, ht, hrun, rfl, rfl, rfl, hv, hrun'⟩
theorem witness_decodeOfAShortHeaderIsEHeader :
    let s := withInput (List.replicate 2055 0)
    Running s ∧ ReadsSucceed s ∧ s.io.inData.length < 2056 :=
  ⟨rfl, noDraws, by
    show (List.replicate 2055 _).length < 2056
    rw [List.length_replicate]
    decide⟩
/-- A walker at a leaf, one without a tree, and the ends of the unused addresses. -/
theorem witness_registerReadMap :
    (evenSession 1 []).leafView = true ∧ State.reset.leafView = false ∧ 0xC ≤ (0xC : BitVec 4).toNat ∧
    0xC ≤ (0xF : BitVec 4).toNat := ⟨leafView_atLeaf [], by decide, by decide, by decide⟩
theorem witness_flagsAndMemoriesKeepTheirLifecycle :
    startsSession .wflush = false ∧ busySession.fl = true ∧ busySession.tv = true ∧ busySession.cv = true ∧
    ∃ t, exec .wflush busySession = .next t := ⟨rfl, rfl, rfl, rfl, _, rfl⟩
theorem witness_outputIsOnlyAppendedTo : ∃ t, step (busySession.presented 0x1200) = .next t := ⟨_, rfl⟩
theorem witness_otherCommandsTouchNoStream :
    Instr.wkadv true ∈ [Instr.nop, .init, .tbuild, .tcodes, .trecon, .wkrst, .wkadv false, .wkadv true] ∧
    ∃ t, exec (.wkadv true) State.reset = .next t ∧ State.reset.wcnt = 0 := ⟨by decide, _, rfl, rfl⟩
theorem witness_everyStepKeepsTheRegisterInvariant :
    RegInv busySession ∧ ∃ t, step busySession = .next t := ⟨regInv_busySession, _, rfl⟩
theorem witness_everyStepFromAGoodStateGoesOn : Good (evenSession 1 [0x41]) := good_atLeaf _

end Sys2Proof.Tests
end

namespace Sys2Proof.Machine

/-! ### The register invariant while a command runs

A reset may fall between any two stream calls of a command (log entry 9), so what is carried through a body is
the register invariant together with the claim that no call made so far left `IN.pos` beyond the input. -/

open Sys2Proof.Safety

variable {base io : Streams} {s t u : State}

/-- The later streams come from the earlier ones by recorded calls, and after none of them was `IN.pos` beyond
the end of the input (20_memory.md R60). -/
def ReachesInside (io io' : Streams) : Prop :=
  ∃ cs, io' = io.replay cs ∧ ∀ ds, ds <+: cs → positionAfter io.inPos ds ≤ io.inData.length

theorem ReachesInside.refl (h : io.inPos ≤ io.inData.length) : ReachesInside io io :=
  ⟨[], rfl, fun ds hds => by rw [List.prefix_nil.mp hds]; exact h⟩

/-- One more call, which leaves `IN.pos` inside the input. -/
theorem ReachesInside.call (h : ReachesInside base io) (c : StreamCall)
    (hc : (io.replay [c]).inPos ≤ io.inData.length) : ReachesInside base (io.replay [c]) := by
  obtain ⟨cs, rfl, hcs⟩ := h
  refine ⟨cs ++ [c], (replay_append base cs [c]).symm, fun ds hds => ?_⟩
  obtain rfl | hds := List.prefix_concat_iff.mp hds
  · rw [← replay_inPos, replay_append]
    exact hc.trans (by rw [replay_inData])
  · exact hcs ds hds

theorem ReachesInside.replay_take (h : ReachesInside base io) (n : Nat) :
    (base.replay ((io.callsSince base).take n)).inPos ≤ base.inData.length := by
  obtain ⟨cs, rfl, hcs⟩ := h
  rw [callsSince_replay, replay_inPos]
  exact hcs _ (List.take_prefix n cs)

theorem ReachesInside.inPos_le (h : ReachesInside base io) : io.inPos ≤ io.inData.length := by
  obtain ⟨cs, rfl, hcs⟩ := h
  rw [replay_inPos, replay_inData]
  exact hcs cs (List.prefix_refl cs)

/-- What every helper of a command keeps: the register invariant, and calls that stayed inside the input since
the streams were `base`. -/
structure RunInv (base : Streams) (s : State) : Prop where
  regs : RegInv s
  calls : ReachesInside base s.io

theorem runInv_of_regInv (h : RegInv s) : RunInv s.io s := ⟨h, .refl h.inputPos⟩

/-! What each update of the state does to the invariant. Where an update writes only fields of which the
invariant does not speak, its parts hold as they stand: `{ h.regs with }`. -/

theorem RunInv.call (h : RunInv base s) (c : StreamCall)
    (hc : (s.io.replay [c]).inPos ≤ s.io.inData.length) : RunInv base { s with io := s.io.replay [c] } :=
  have hcalls := h.calls.call c hc
  ⟨{ h.regs with inputPos := hcalls.inPos_le }, hcalls⟩

theorem RunInv.afterWrite (h : RunInv base s) (v : Byte) (accepted : Bool) :
    RunInv base { s with io := s.io.afterWrite v accepted } :=
  h.call (.write v accepted) h.regs.inputPos

theorem RunInv.inRewind (h : RunInv base s) : RunInv base { s with io := s.io.inRewind } :=
  h.call .rewind (Nat.zero_le _)

/-- Only a byte moves `IN.pos`, and a byte is answered only before the end (20_memory.md R61). -/
theorem RunInv.afterRead (h : RunInv base s) : RunInv base { s with io := s.io.afterRead s.io.inAnswer } := by
  refine h.call (.read s.io.inAnswer) ?_
  cases ha : s.io.inAnswer with
  | byte v => exact (inPos_lt_of_byte s.io ha).1
  | eof => exact h.regs.inputPos
  | err => exact h.regs.inputPos

theorem RunInv.shiftIn (h : RunInv base s) (b : Bit) (h7 : s.wcnt ≠ 7) :
    RunInv base { s with wsr := s.wsr.shiftConcat b, wcnt := s.wcnt + 1 } := by
  have hlt : s.wcnt.toNat < 7 := by bv_omega
  have hadd : (s.wcnt + 1).toNat = s.wcnt.toNat + 1 := by bv_omega
  refine ⟨{ h.regs with writer := ?_ }, h.calls⟩
  show (s.wsr.shiftConcat b).toNat < 2 ^ (s.wcnt + 1).toNat
  rw [hadd]
  exact BitVec.toNat_shiftConcat_lt_of_lt (by omega) h.regs.writer

theorem RunInv.writerEmptied (h : RunInv base s) : RunInv base s.writerEmptied :=
  ⟨{ h.regs with writer := Nat.two_pow_pos _ }, h.calls⟩

theorem RunInv.refilled (h : RunInv base s) (v : Byte) :
    RunInv base { s with rsr := v, rcnt := 8, rbytes := s.rbytes + 1 } :=
  ⟨{ h.regs with readerCount := le_refl 8, readerLow := Nat.mod_one _ }, h.calls⟩

theorem RunInv.shiftOut (h : RunInv base s) (h0 : s.rcnt ≠ 0) :
    RunInv base { s with rsr := s.rsr <<< 1, rcnt := s.rcnt - 1 } := by
  have h8 := h.regs.readerCount
  have hsub : (s.rcnt - 1).toNat = s.rcnt.toNat - 1 := by bv_omega
  have hpos : 1 ≤ s.rcnt.toNat := by bv_omega
  refine ⟨{ h.regs with readerCount := ?_, readerLow := ?_ }, h.calls⟩
  · show (s.rcnt - 1).toNat ≤ 8
    omega
  · show (s.rsr <<< 1).toNat % 2 ^ (8 - (s.rcnt - 1).toNat) = 0
    have hexp : 8 - (s.rcnt - 1).toNat = (8 - s.rcnt.toNat) + 1 := by omega
    rw [BitVec.toNat_shiftLeft, Nat.shiftLeft_eq, hexp,
      Nat.mod_mod_of_dvd _ (Nat.pow_dvd_pow 2 (by omega)), pow_one, pow_succ, Nat.mul_mod_mul_right,
      h.regs.readerLow, zero_mul]

theorem RunInv.sessionInit (h : RunInv base s) : RunInv base s.sessionInit :=
  ⟨{ h.regs with
      writer := Nat.two_pow_pos _, readerCount := Nat.zero_le _, readerLow := Nat.zero_mod _
      codesNeedTree := nofun, treeNeedsLock := nofun, heapSize := Nat.zero_le _ }, h.calls⟩

theorem RunInv.flushAttempted (h : RunInv base s) : RunInv base (flushAttempt s) := by
  unfold flushAttempt
  dsimp only
  split
  · exact h
  · split
    · exact (h.afterWrite s.paddedByte s.io.outAccepts).writerEmptied
    · exact h.afterWrite s.paddedByte s.io.outAccepts

theorem RunInv.faulted (h : RunInv base s) (e : ErrCode) (w : CmdWord) :
    RunInv base (faultEntry e w s) :=
  ⟨{ h.flushAttempted.regs with
      errRange := e.code_le_six, errEmpty := fun h0 => absurd h0 e.code_ne_zero }, h.flushAttempted.calls⟩

/-! The helpers of the bodies. -/

theorem outByte_keepsRunInv (v : Byte) (h : RunInv base s) : (outByte v s).Leaves (RunInv base) := by
  unfold outByte
  split
  · exact h.afterWrite v true
  · exact h.afterWrite v false

theorem outBytes_keepsRunInv (bytes : List Byte) (h : RunInv base s) :
    (outBytes bytes s).Leaves (RunInv base) := by
  induction bytes generalizing s with
  | nil => exact h
  | cons v vs ih => exact (outByte_keepsRunInv v h).andThen fun _ _ hu => ih hu

theorem inByte_keepsRunInv (e : ErrCode) (h : RunInv base s) : (inByte e s).Leaves (RunInv base) := by
  unfold inByte
  dsimp only
  split <;> exact h.afterRead

theorem inByteOrStop_keepsRunInv (h : RunInv base s) : (inByteOrStop s).Leaves (RunInv base) := by
  unfold inByteOrStop
  dsimp only
  split <;> exact h.afterRead

theorem inFieldFrom_keepsRunInv (n k : Nat) (v : Count) (h : RunInv base s) :
    (inFieldFrom n k v s).Leaves (RunInv base) := by
  induction n generalizing k v s with
  | zero => exact h
  | succ n ih => exact (inByte_keepsRunInv .eHeader h).andThen fun _ _ hu => ih _ _ hu

theorem inField_keepsRunInv (h : RunInv base s) : (inField s).Leaves (RunInv base) :=
  inFieldFrom_keepsRunInv _ _ _ h

theorem putBit_keepsRunInv (b : Bit) (h : RunInv base s) : (putBit b s).Leaves (RunInv base) := by
  by_cases h7 : s.wcnt = 7
  · unfold putBit
    rw [if_pos h7]
    exact (outByte_keepsRunInv _ h).andThen fun _ _ hu => hu.writerEmptied
  · rw [putBit_pending b h7]
    exact h.shiftIn b h7

theorem putBits_keepsRunInv (c : Codeword) (h : RunInv base s) : (putBits c s).Leaves (RunInv base) := by
  induction c generalizing s with
  | nil => exact h
  | cons b bs ih => exact (putBit_keepsRunInv b h).andThen fun _ _ hu => ih hu

theorem putSymbol_keepsRunInv (sym : Symbol) (h : RunInv base s) :
    (putSymbol sym s).Leaves (RunInv base) := by
  unfold putSymbol
  split
  · exact putBits_keepsRunInv _ h
  · trivial

theorem flush_keepsRunInv (h : RunInv base s) : (flush s).Leaves (RunInv base) := by
  unfold flush
  split
  · exact h
  · exact (outByte_keepsRunInv _ h).andThen fun _ _ hu => hu.writerEmptied

theorem encodeRest_keepsRunInv (n : Nat) (h : RunInv base s) : (encodeRest n s).Leaves (RunInv base) := by
  induction n generalizing s with
  | zero => exact h
  | succ n ih =>
    refine (inByteOrStop_keepsRunInv h).andThen fun v _ hu => ?_
    cases v with
    | none => exact hu
    | some sym => exact (putSymbol_keepsRunInv sym hu).andThen fun _ _ hv => ih hv

/-- A bit is shifted out only where one is buffered: the refill has just put eight, or some were left. -/
theorem getBit_keepsRunInv (h : RunInv base s) : (getBit s).Leaves (RunInv base) := by
  by_cases h0 : s.rcnt = 0
  · unfold getBit refill
    rw [if_pos h0, andThen_assoc]
    exact (inByte_keepsRunInv .eEof h).andThen fun v _ hu => (hu.refilled v).shiftOut (by simp)
  · rw [getBit_buffered h0]
    exact h.shiftOut h0

theorem advance_keepsRunInv (b : Bit) (h : RunInv base s) : (advance b s).Leaves (RunInv base) := by
  unfold advance
  split
  · trivial
  · split
    · trivial
    · exact ⟨{ h.regs with }, h.calls⟩

theorem walkToLeaf_keepsRunInv (n : Nat) (h : RunInv base s) : (walkToLeaf n s).Leaves (RunInv base) := by
  induction n generalizing s with
  | zero => trivial
  | succ n ih =>
    refine (getBit_keepsRunInv h).andThen fun b _ hu => (advance_keepsRunInv b hu).andThen fun _ _ hv => ?_
    split
    · trivial
    · split
      · exact hv
      · exact ih hv

theorem countSym_keepsRunInv (sym : Symbol) (h : RunInv base s) : (countSym sym s).Leaves (RunInv base) := by
  unfold countSym
  split
  · exact h
  · exact ⟨{ h.regs with }, h.calls⟩

theorem countRest_keepsRunInv (n : Nat) (h : RunInv base s) : (countRest n s).Leaves (RunInv base) := by
  induction n generalizing s with
  | zero => exact h
  | succ n ih =>
    refine (inByteOrStop_keepsRunInv h).andThen fun v _ hu => ?_
    cases v with
    | none => exact hu
    | some sym => exact (countSym_keepsRunInv sym hu).andThen fun _ _ hv => ih hv

theorem loadTable_keepsRunInv (l : List Symbol) (h : RunInv base s) :
    (loadTable l s).Leaves (RunInv base) := by
  induction l generalizing s with
  | nil => exact h
  | cons sym rest ih =>
    exact (inField_keepsRunInv h).andThen fun _ _ hu => ih ⟨{ hu.regs with }, hu.calls⟩

theorem doAll_keepsRunInv {l : List (State → Body Unit)}
    (hl : ∀ x ∈ l, ∀ s, RunInv base s → (x s).Leaves (RunInv base)) (h : RunInv base s) :
    (doAll l s).Leaves (RunInv base) := by
  induction l generalizing s with
  | nil => exact h
  | cons x xs ih =>
    exact (hl x (by simp) s h).andThen fun _ _ hu => ih (fun y hy => hl y (by simp [hy])) hu

/-! The heap that `TBUILD` leaves (10_state.md R35). -/

theorem length_heap_seedLeaves (freq : FreqRam) (l : List Symbol) (b : Builder) :
    (l.foldl (seedLeaf freq) b).heap.length = b.heap.length + l.length := by
  induction l generalizing b with
  | nil => rfl
  | cons sym rest ih =>
    rw [List.foldl_cons, ih, seedLeaf, length_heapInsert, List.length_cons]
    omega

theorem length_heap_seedBuilder (freq : FreqRam) (tree : TreeRam) :
    (seedBuilder freq tree).heap.length = Config.heapCap := by
  rw [seedBuilder, length_heap_seedLeaves, length_allSymbols]
  rfl

theorem length_heap_mergeLoop_le (n : Nat) (b : Builder) : (mergeLoop n b).heap.length ≤ b.heap.length := by
  induction n generalizing b with
  | zero => exact le_rfl
  | succ n ih =>
    unfold mergeLoop
    split
    · rename_i b' hb
      obtain ⟨-, -, -, -, -, -, -, hlen⟩ := mergeStep_eq_some hb
      exact (ih b').trans (by omega)
    · exact le_rfl

theorem length_heap_buildTree_le (freq : FreqRam) (tree : TreeRam) :
    (buildTree freq tree).heap.length ≤ Config.heapCap :=
  (length_heap_mergeLoop_le _ _).trans (length_heap_seedBuilder freq tree).le

/-! The bodies. -/

theorem bodyTbuild_keepsRunInv (h : RunInv base s) : (bodyTbuild s).Leaves (RunInv base) := by
  refine requireFlag_leaves h fun _ => ?_
  have hlen := length_heap_buildTree_le s.freq s.tree
  generalize buildTree s.freq s.tree = b at hlen ⊢
  exact ⟨{ h.regs with
    codesNeedTree := fun _ => rfl, treeNeedsLock := fun _ => rfl, heapSize := hlen }, h.calls⟩

theorem bodyTcodes_keepsRunInv (h : RunInv base s) : (bodyTcodes s).Leaves (RunInv base) :=
  requireFlag_leaves h fun htv => ⟨{ h.regs with codesNeedTree := fun _ => htv }, h.calls⟩

/-- `TRECON` needs `CV`, and with it the table is locked (10_state.md R28). -/
theorem bodyTrecon_keepsRunInv (h : RunInv base s) : (bodyTrecon s).Leaves (RunInv base) := by
  refine requireFlag_leaves h fun hcv => ?_
  have hfl : s.fl = true := h.regs.treeNeedsLock (h.regs.codesNeedTree hcv)
  split
  · trivial
  · exact ⟨{ h.regs with codesNeedTree := fun _ => rfl, treeNeedsLock := fun _ => hfl }, h.calls⟩

theorem bodyWkrst_keepsRunInv (h : RunInv base s) : (bodyWkrst s).Leaves (RunInv base) :=
  requireFlag_leaves h fun _ => ⟨{ h.regs with }, h.calls⟩

theorem bodyCload_keepsRunInv (h : RunInv base s) : (bodyCload s).Leaves (RunInv base) :=
  (inField_keepsRunInv h).andThen fun _ _ hu => ⟨{ hu.regs with }, hu.calls⟩

theorem bodyDsym_keepsRunInv (h : RunInv base s) : (bodyDsym s).Leaves (RunInv base) :=
  requireFlag_leaves h fun _ =>
    (walkToLeaf_keepsRunInv _ h).andThen fun sym _ hu =>
      (outByte_keepsRunInv sym hu).andThen fun _ _ hv => ⟨{ hv.regs with }, hv.calls⟩

theorem decodeLoop_keepsRunInv (n : Nat) (h : RunInv base s) : (decodeLoop n s).Leaves (RunInv base) := by
  induction n generalizing s with
  | zero => trivial
  | succ n ih =>
    unfold decodeLoop
    split
    · exact h
    · exact (bodyDsym_keepsRunInv h).andThen fun _ _ hu => ih hu

theorem bodyEncode_keepsRunInv (h : RunInv base s) : (bodyEncode s).Leaves (RunInv base) := by
  refine Body.Leaves.andThen (doAll_keepsRunInv ?_ h.sessionInit) fun _ _ hu => ⟨{ hu.regs with }, hu.calls⟩
  simp only [List.forall_mem_cons, List.not_mem_nil, false_imp_iff, implies_true, and_true]
  exact ⟨fun _ h => h.inRewind, fun _ h => requireFlag_leaves h fun _ => countRest_keepsRunInv _ h,
    fun _ => bodyTbuild_keepsRunInv, fun _ => bodyTcodes_keepsRunInv, fun _ => outBytes_keepsRunInv _,
    fun _ => outBytes_keepsRunInv _, fun _ h => h.inRewind,
    fun _ h => requireFlag_leaves h fun _ => encodeRest_keepsRunInv _ h, fun _ => flush_keepsRunInv⟩

theorem bodyDecode_keepsRunInv (h : RunInv base s) : (bodyDecode s).Leaves (RunInv base) := by
  refine Body.Leaves.andThen (doAll_keepsRunInv ?_ h.sessionInit) fun _ _ hu => ⟨{ hu.regs with }, hu.calls⟩
  simp only [List.forall_mem_cons, List.not_mem_nil, false_imp_iff, implies_true, and_true]
  exact ⟨fun _ h => h.inRewind, fun _ => bodyCload_keepsRunInv,
    fun _ h => requireFlag_leaves h fun _ => loadTable_keepsRunInv _ h, fun _ => bodyTbuild_keepsRunInv,
    fun _ => bodyTcodes_keepsRunInv, fun _ => decodeLoop_keepsRunInv _⟩

theorem bodyOf_keepsRunInv (i : Instr) (h : RunInv base s) : (bodyOf i s).Leaves (RunInv base) := by
  cases i with
  | nop => exact h
  | init => exact h
  | wbit b => exact putBit_keepsRunInv b h
  | wcode sym => exact requireFlag_leaves h fun _ => putSymbol_keepsRunInv sym h
  | wflush => exact flush_keepsRunInv h
  | rbit => exact (getBit_keepsRunInv h).andThen fun _ _ hu => ⟨{ hu.regs with }, hu.calls⟩
  | fadd sym => exact requireFlag_leaves h fun _ => countSym_keepsRunInv sym h
  | fadds => exact requireFlag_leaves h fun _ => countRest_keepsRunInv _ h
  | fsave => exact outBytes_keepsRunInv _ h
  | fload => exact requireFlag_leaves h fun _ => loadTable_keepsRunInv _ h
  | tbuild => exact bodyTbuild_keepsRunInv h
  | tcodes => exact bodyTcodes_keepsRunInv h
  | trecon => exact bodyTrecon_keepsRunInv h
  | wkrst => exact bodyWkrst_keepsRunInv h
  | wkadv b => exact requireFlag_leaves h fun _ => advance_keepsRunInv b h
  | csave => exact outBytes_keepsRunInv _ h
  | cload => exact bodyCload_keepsRunInv h
  | esyms => exact requireFlag_leaves h fun _ => encodeRest_keepsRunInv _ h
  | dsym => exact bodyDsym_keepsRunInv h
  | encode => exact bodyEncode_keepsRunInv h
  | decode => exact bodyDecode_keepsRunInv h

/-! Commands, words and events. -/

theorem exec_keepsRunInv {i : Instr} (h : RunInv base s) (he : exec i s = .next t) : RunInv base t := by
  obtain ⟨-, rfl⟩ | ⟨-, -, rfl⟩ | ⟨-, -, hb⟩ | ⟨-, -, e, u, hb, rfl⟩ := exec_eq_next he
  · exact ⟨{ h.sessionInit.regs with errRange := Nat.zero_le _, errEmpty := fun _ => rfl }, h.calls⟩
  · exact h
  · exact (bodyOf_keepsRunInv i h).of_done hb
  · exact ((bodyOf_keepsRunInv i h).of_raise hb).faulted e _

theorem takeWord_keepsRunInv {w : CmdWord} (h : RunInv base s) (hw : takeWord w s = .next t) :
    RunInv base t := by
  unfold takeWord at hw
  split at hw
  · split at hw
    · exact exec_keepsRunInv h hw
    · cases hw; exact h
  · split at hw
    · cases hw; exact h.faulted _ _
    · exact exec_keepsRunInv h hw

/-- Reset gives the register invariant whatever the engine held (10_state.md R38). -/
theorem regInv_resetEngine (h : s.io.inPos ≤ s.io.inData.length) : RegInv s.resetEngine where
  writer := Nat.two_pow_pos _
  readerCount := Nat.zero_le _
  readerLow := Nat.zero_mod _
  codesNeedTree := nofun
  treeNeedsLock := nofun
  errRange := Nat.zero_le _
  errEmpty := fun _ => rfl
  heapSize := Nat.zero_le _
  inputPos := h

/-- Reset during a command finds `IN.pos` inside the input after however many of its calls. -/
theorem regInv_abandonAfter (n : Nat) (h : RunInv s.io t) : RegInv (abandonAfter n s t) := by
  refine regInv_resetEngine ?_
  show (s.io.replay _).inPos ≤ (s.io.replay _).inData.length
  rw [replay_inData]
  exact h.calls.replay_take n

/-- What a step that answers a next state has done, by the event that the host presented. -/
theorem step_eq_next (h : step s = .next t) :
    (s.pending = [] ∧ t = s) ∨
    (∃ w rest, s.pending = .command w :: rest ∧ takeWord w { s with pending := rest } = .next t) ∨
    (∃ rest, s.pending = .reset :: rest ∧ t = ({ s with pending := rest } : State).resetEngine) ∨
    (∃ w n rest u, s.pending = .resetDuring w n :: rest ∧ takeWord w { s with pending := rest } = .next u ∧
      t = abandonAfter n { s with pending := rest } u) ∨
    (∃ rest, s.pending = .rewindInput :: rest ∧
      t = { s with pending := rest, io := { s.io with inPos := 0 } }) := by
  unfold step hostStep at h
  split at h
  case h_1 hp => cases h; exact .inl ⟨hp, rfl⟩
  case h_2 w rest hp => exact .inr (.inl ⟨w, rest, hp, h⟩)
  case h_3 rest hp => cases h; exact .inr (.inr (.inl ⟨rest, hp, rfl⟩))
  case h_4 w n rest hp =>
    unfold resetWhileRunning at h
    split at h
    case h_1 u hu => cases h; exact .inr (.inr (.inr (.inl ⟨w, n, rest, u, hp, hu, rfl⟩)))
    case h_2 => cases h
    case h_3 => cases h
  case h_5 rest hp => cases h; exact .inr (.inr (.inr (.inr ⟨rest, hp, rfl⟩)))

theorem step_keepsRegInv (h : RegInv s) (hs : step s = .next t) : RegInv t := by
  have hrest : ∀ rest, RegInv { s with pending := rest } := fun _ => { h with }
  obtain ⟨-, rfl⟩ | ⟨w, rest, -, hw⟩ | ⟨rest, -, rfl⟩ | ⟨w, n, rest, u, -, hw, rfl⟩ | ⟨rest, -, rfl⟩ :=
    step_eq_next hs
  · exact h
  · exact (takeWord_keepsRunInv (runInv_of_regInv (hrest rest)) hw).regs
  · exact regInv_resetEngine h.inputPos
  · exact regInv_abandonAfter n (takeWord_keepsRunInv (runInv_of_regInv (hrest rest)) hw)
  · exact { h with inputPos := Nat.zero_le _ }

end Sys2Proof.Machine

namespace Sys2Proof.Machine

/-! ### The life of the flags and the memories within a session -/

open Sys2Proof.Safety

variable {s t : State} {i : Instr}

/-- What a command that starts no session keeps (10_state.md R28, R32 to R34). -/
structure KeepsLifecycle (i : Instr) (s t : State) : Prop where
  locked : s.fl = true → t.fl = true
  treeValid : s.tv = true → t.tv = true
  codesValid : s.cv = true → t.cv = true
  freq : s.fl = true → t.freq = s.freq
  tree : i ≠ .tbuild → i ≠ .trecon → t.tree = s.tree
  code : i ≠ .tcodes → t.code = s.code

namespace KeepsLifecycle

theorem refl (s : State) : KeepsLifecycle i s s := ⟨id, id, id, fun _ => rfl, fun _ _ => rfl, fun _ => rfl⟩

/-- It speaks of the flags and of the three memories alone. -/
theorem of_eq (hfl : t.fl = s.fl) (htv : t.tv = s.tv) (hcv : t.cv = s.cv) (hfreq : s.fl = true → t.freq = s.freq)
    (htree : t.tree = s.tree) (hcode : t.code = s.code) : KeepsLifecycle i s t :=
  ⟨hfl.trans, htv.trans, hcv.trans, hfreq, fun _ _ => htree, fun _ => hcode⟩

theorem of_writerErased (h : writerErased t = writerErased s) : KeepsLifecycle i s t := by
  rw [eq_of_writerErased h]
  exact of_eq rfl rfl rfl (fun _ => rfl) rfl rfl

theorem of_readerErased (h : readerErased t = readerErased s) : KeepsLifecycle i s t := by
  rw [eq_of_readerErased h]
  exact of_eq rfl rfl rfl (fun _ => rfl) rfl rfl

/-- The frequency accumulator, where the table is not locked. -/
theorem of_countsErased (hfl : s.fl = false) (h : countsErased t = countsErased s) : KeepsLifecycle i s t := by
  rw [eq_of_countsErased h]
  exact of_eq rfl rfl rfl (fun hl => absurd hl (by simp [hfl])) rfl rfl

theorem faulted (h : KeepsLifecycle i s t) (e : ErrCode) (w : CmdWord) :
    KeepsLifecycle i s (faultEntry e w t) := by
  obtain ⟨hfl, htv, hcv, hfreq, htree, hcode⟩ := h
  constructor <;> simpa

end KeepsLifecycle

/-- The unlocked table's writers: out of phase they change nothing. -/
theorem requireUnlocked_keepsLifecycle {k : State → Body Unit}
    (hk : (k s).Leaves fun u => countsErased u = countsErased s) :
    (requireFlag (!s.fl) k s).Leaves (KeepsLifecycle i s) :=
  requireFlag_leaves (.refl s) fun hfl => hk.mono fun _ => .of_countsErased (by simpa using hfl)

/-- Locked or not, `CLOAD` writes only `SYMCNT` beside the streams (44_archiver.md R193). -/
theorem bodyCload_keepsLifecycle (s : State) : (bodyCload s).Leaves (KeepsLifecycle i s) :=
  Body.Leaves.andThen ((inField_keeps writerErased_blind s).mono fun _ => .of_writerErased)
    fun _ _ hu => { hu with }

theorem bodyTbuild_keepsLifecycle (s : State) : (bodyTbuild s).Leaves (KeepsLifecycle .tbuild s) :=
  requireFlag_leaves (.refl s) fun _ =>
    ⟨fun _ => rfl, fun _ => rfl, id, fun _ => rfl, fun h => absurd rfl h, fun _ => rfl⟩

theorem bodyTcodes_keepsLifecycle (s : State) : (bodyTcodes s).Leaves (KeepsLifecycle .tcodes s) :=
  requireFlag_leaves (.refl s) fun _ =>
    ⟨id, id, fun _ => rfl, fun _ => rfl, fun _ _ => rfl, fun h => absurd rfl h⟩

theorem bodyTrecon_keepsLifecycle (s : State) : (bodyTrecon s).Leaves (KeepsLifecycle .trecon s) := by
  refine requireFlag_leaves (.refl s) fun _ => ?_
  split
  · trivial
  · exact ⟨id, fun _ => rfl, id, fun _ => rfl, fun _ h => absurd rfl h, fun _ => rfl⟩

theorem bodyOf_keepsLifecycle (hi : startsSession i = false) (s : State) :
    (bodyOf i s).Leaves (KeepsLifecycle i s) := by
  have hwriter {r : Body Unit} (h : r.Leaves fun u => writerErased u = writerErased s) :
      r.Leaves (KeepsLifecycle i s) := h.mono fun _ => .of_writerErased
  have hreader {r : Body Unit} (h : r.Leaves fun u => readerErased u = readerErased s) :
      r.Leaves (KeepsLifecycle i s) := h.mono fun _ => .of_readerErased
  cases i with
  | init | encode | decode => cases hi
  | nop => exact .refl s
  | wbit b => exact hwriter (bodyWbit_keeps b s)
  | wcode sym => exact hwriter (bodyWcode_keeps sym s)
  | wflush => exact hwriter (bodyWflush_keeps s)
  | fsave => exact hwriter (bodyFsave_keeps writerErased_blind s)
  | csave => exact hwriter (bodyCsave_keeps writerErased_blind s)
  | esyms => exact hwriter (bodyEsyms_keeps s)
  | rbit => exact hreader (bodyRbit_keeps s)
  | wkrst => exact hreader (bodyWkrst_keeps s)
  | wkadv b => exact hreader (bodyWkadv_keeps b s)
  | dsym => exact hreader (bodyDsym_keeps s)
  | fadd sym => exact requireUnlocked_keepsLifecycle (countSym_keeps sym s)
  | fadds => exact requireUnlocked_keepsLifecycle (countRest_keeps _ s)
  | fload => exact requireUnlocked_keepsLifecycle (loadTable_keeps _ s)
  | cload => exact bodyCload_keepsLifecycle s
  | tbuild => exact bodyTbuild_keepsLifecycle s
  | tcodes => exact bodyTcodes_keepsLifecycle s
  | trecon => exact bodyTrecon_keepsLifecycle s

theorem exec_keepsLifecycle (hi : startsSession i = false) (h : exec i s = .next t) : KeepsLifecycle i s t := by
  obtain ⟨rfl, -⟩ | ⟨-, -, rfl⟩ | ⟨-, -, hb⟩ | ⟨-, -, e, u, hb, rfl⟩ := exec_eq_next h
  · cases hi
  · exact .refl _
  · exact (bodyOf_keepsLifecycle hi s).of_done hb
  · exact ((bodyOf_keepsLifecycle hi s).of_raise hb).faulted e _

/-! ### Re-initialisation -/

theorem reInitialised_sessionInit (s : State) : ReInitialised s.sessionInit where
  writer := ⟨rfl, rfl, rfl⟩
  reader := ⟨rfl, rfl, rfl, rfl⟩
  pointers := ⟨rfl, rfl, rfl⟩
  archiver := ⟨rfl, rfl, rfl, rfl⟩
  flags := ⟨rfl, rfl, rfl⟩
  freq _ := by simp [State.freqAt]
  heap := ⟨rfl, rfl⟩
  views := ⟨rfl, rfl⟩

/-- `INIT` is `SessionInit()` with the fault record cleared (44_archiver.md R191). -/
theorem reInitialised_faultReturn (s : State) : ReInitialised s.faultReturn :=
  reInitialised_sessionInit { s with errCode := 0, errCmd := 0 }

/-- What reset writes beyond `INIT` is `TREE` and `CODE`. -/
theorem reInitialised_resetEngine (s : State) : ReInitialised s.resetEngine :=
  reInitialised_sessionInit
    { s with
      errCode := 0, errCmd := 0, tree := Vector.replicate _ none, code := Vector.replicate _ none }

theorem step_reset {rest : List HostEvent} (h : s.pending = .reset :: rest) :
    step s = .next ({ s with pending := rest } : State).resetEngine := by
  simp [step, hostStep, h]

end Sys2Proof.Machine

namespace Sys2Proof.Machine

/-! ### The views and the register read map (10_state.md R29, R31) -/

open Sys2Proof.Safety

variable {s : State}

theorem faultView_iff : s.faultView = true ↔ s.errCode ≠ 0 := by simp [State.faultView]

theorem atLeaf_iff : s.atLeaf = true ↔ ∃ n, nodeAt s.tree s.cur = some n ∧ n.leaf = true := by
  unfold State.atLeaf
  split <;> simp [*]

theorem leafView_iff :
    s.leafView = true ↔ s.tv = true ∧ ∃ n, nodeAt s.tree s.cur = some n ∧ n.leaf = true := by
  rw [State.leafView, Bool.and_eq_true, atLeaf_iff]

theorem symView_atLeaf (h : s.leafView = true) : ∃ n, nodeAt s.tree s.cur = some n ∧ s.symView = n.sym := by
  obtain ⟨-, n, hn, -⟩ := leafView_iff.mp h
  exact ⟨n, hn, by simp [State.symView, h, hn]⟩

theorem symView_notAtLeaf (h : s.leafView = false) : s.symView = 0 := by simp [State.symView, h]

/-- Beyond the width of a value its bits read 0. -/
theorem extractLsb'_eq_zero_of_le {w start len : Nat} (x : BitVec w) (h : w ≤ start) :
    x.extractLsb' start len = 0 := by
  ext i hi
  simp [BitVec.getLsbD_of_ge x (start + i) (by omega)]

/-- The flags stand at the bits 0 to 5, and above them 0. -/
theorem statusReg_getLsbD (s : State) (k : Nat) :
    s.statusReg.getLsbD k = ([s.fl, s.tv, s.cv, s.leafView, s.rb, s.faultView][k]?).getD false := by
  unfold State.statusReg
  match k with
  | 0 | 1 | 2 | 3 | 4 | 5 =>
    simp [BitVec.getLsbD_append, BitVec.getLsbD_setWidth, BitVec.getLsbD_ofBool, -BitVec.getLsbD_eq_getElem,
      -Nat.reduceAdd]
  | k + 6 => simp

theorem errReg_fields (s : State) :
    s.errReg.extractLsb' 0 4 = s.errCode ∧ s.errReg.extractLsb' 4 12 = 0 ∧
    s.errReg.extractLsb' 16 16 = s.errCmd ∧ s.errReg.extractLsb' 32 32 = 0 := by
  simp (disch := decide) [State.errReg, BitVec.extractLsb'_setWidth_of_le, BitVec.extractLsb'_append_eq_of_le,
    BitVec.extractLsb'_append_eq_of_add_le, extractLsb'_eq_zero_of_le, -Nat.reduceAdd]

theorem writerReg_fields (s : State) :
    s.writerReg.extractLsb' 0 8 = s.wsr ∧ s.writerReg.extractLsb' 8 3 = s.wcnt ∧
    s.writerReg.extractLsb' 11 53 = 0 := by
  simp (disch := decide) [State.writerReg, BitVec.extractLsb'_setWidth_of_le, BitVec.extractLsb'_append_eq_of_le,
    BitVec.extractLsb'_append_eq_of_add_le, extractLsb'_eq_zero_of_le, -Nat.reduceAdd]

theorem readerReg_fields (s : State) :
    s.readerReg.extractLsb' 0 8 = s.rsr ∧ s.readerReg.extractLsb' 8 4 = s.rcnt ∧
    s.readerReg.extractLsb' 12 52 = 0 := by
  simp (disch := decide) [State.readerReg, BitVec.extractLsb'_setWidth_of_le, BitVec.extractLsb'_append_eq_of_le,
    BitVec.extractLsb'_append_eq_of_add_le, extractLsb'_eq_zero_of_le, -Nat.reduceAdd]

theorem walkReg_fields (s : State) :
    s.walkReg.extractLsb' 0 9 = s.cur ∧ s.walkReg.extractLsb' 9 7 = 0 ∧
    s.walkReg.extractLsb' 16 9 = s.root ∧ s.walkReg.extractLsb' 25 7 = 0 ∧
    s.walkReg.extractLsb' 32 9 = s.nextIdx ∧ s.walkReg.extractLsb' 41 23 = 0 := by
  simp (disch := decide) [State.walkReg, BitVec.extractLsb'_setWidth_of_le, BitVec.extractLsb'_append_eq_of_le,
    BitVec.extractLsb'_append_eq_of_add_le, extractLsb'_eq_zero_of_le, -Nat.reduceAdd]

theorem symReg_fields (s : State) :
    s.symReg.extractLsb' 0 8 = s.symView ∧ s.symReg.getLsbD 8 = s.leafView ∧
    s.symReg.extractLsb' 9 55 = 0 := by
  refine ⟨?_, ?_, ?_⟩
  · simp (disch := decide) [State.symReg, BitVec.extractLsb'_setWidth_of_le,
      BitVec.extractLsb'_append_eq_of_add_le, -Nat.reduceAdd]
  · simp [State.symReg, BitVec.getLsbD_append, -BitVec.getLsbD_eq_getElem, -Nat.reduceAdd]
  · simp (disch := decide) [State.symReg, BitVec.extractLsb'_setWidth_of_le, extractLsb'_eq_zero_of_le,
      -Nat.reduceAdd]

theorem regRead_unused (s : State) {a : BitVec 4} (h : 0xC ≤ a.toNat) : regRead s a = 0 := by
  have hlt := a.isLt
  unfold regRead
  split
  case h_13 => rfl
  all_goals omega

end Sys2Proof.Machine

namespace Sys2Proof.Proofs

open Sys2Proof.Machine

/-- Settles O57: the invariant is carried through every body, and reset during a command needs of its calls
only that they stayed inside the input. -/
theorem everyStepKeepsTheRegisterInvariant : Obligations.EveryStepKeepsTheRegisterInvariant :=
  fun _ _ => step_keepsRegInv

/-- Settles O54: each body keeps the lifecycle, and fault entry writes no flag and no memory. -/
theorem flagsAndMemoriesKeepTheirLifecycle : Obligations.FlagsAndMemoriesKeepTheirLifecycle := by
  intro i s t hi h
  obtain ⟨hfl, htv, hcv, hfreq, htree, hcode⟩ := exec_keepsLifecycle hi h
  exact ⟨hfl, htv, hcv, hfreq, htree, hcode⟩

/-- Settles O15: reset, `INIT` and the start of `ENCODE` or `DECODE` are `SessionInit()` but for `ERR`, `TREE` and `CODE`. -/
theorem reInitialisationGivesTheResetTable : Obligations.ReInitialisationGivesTheResetTable := by
  refine ⟨reInitialised_resetEngine State.reset, rfl, rfl, fun s rest h => ?_, fun s => ?_, fun s => ?_⟩
  · exact ⟨_, step_reset h, reInitialised_resetEngine _, rfl, rfl, rfl, rfl, rfl⟩
  · exact ⟨_, rfl, reInitialised_faultReturn s, rfl, rfl, rfl, rfl, rfl, rfl, rfl⟩
  · exact ⟨reInitialised_sessionInit s, rfl, rfl, rfl, rfl, rfl⟩

/-- Settles O53, register by register; the six counters are read as they stand. -/
theorem registerReadMap : Obligations.RegisterReadMap := by
  intro s
  obtain ⟨err0, err1, err2, err3⟩ := errReg_fields s
  obtain ⟨writer0, writer1, writer2⟩ := writerReg_fields s
  obtain ⟨reader0, reader1, reader2⟩ := readerReg_fields s
  obtain ⟨walk0, walk1, walk2, walk3, walk4, walk5⟩ := walkReg_fields s
  obtain ⟨sym0, sym1, sym2⟩ := symReg_fields s
  exact ⟨faultView_iff, leafView_iff, symView_atLeaf, symView_notAtLeaf, statusReg_getLsbD s,
    err0, err1, err2, err3, rfl, rfl, rfl, rfl, rfl, rfl, writer0, writer1, writer2, reader0, reader1, reader2,
    walk0, walk1, walk2, walk3, walk4, walk5, sym0, sym1, sym2, fun _ => regRead_unused s⟩

/-- Settles O58: the reset state is its own reset, and its flags are 0. -/
theorem resetIsGood : Obligations.ResetIsGood where
  regs := regInv_resetEngine (s := State.reset) le_rfl
  tree := ⟨nofun, nofun, nofun, nofun, nofun⟩

end Sys2Proof.Proofs

namespace Sys2Proof.Machine

/-! ### The output is never read (20_memory.md R63)

With other bytes in front of the output every operation does the same, those bytes kept. -/

open Sys2Proof.Safety

variable {α β : Type} {before : List Byte} {s : State}

/-- The streams with these bytes in front of the output. -/
def Streams.behind (before : List Byte) (io : Streams) : Streams :=
  { io with outData := before ++ io.outData }

/-- The state with these bytes in front of the output. -/
def State.behind (before : List Byte) (s : State) : State := { s with io := s.io.behind before }

@[simp] theorem State.behind_wcnt : (s.behind before).wcnt = s.wcnt := rfl
@[simp] theorem State.behind_root : (s.behind before).root = s.root := rfl
@[simp] theorem State.behind_cur : (s.behind before).cur = s.cur := rfl
@[simp] theorem State.behind_errCode : (s.behind before).errCode = s.errCode := rfl
@[simp] theorem State.behind_freq : (s.behind before).freq = s.freq := rfl
@[simp] theorem State.behind_tree : (s.behind before).tree = s.tree := rfl
@[simp] theorem State.behind_code : (s.behind before).code = s.code := rfl
@[simp] theorem State.behind_io : (s.behind before).io = s.io.behind before := rfl
@[simp] theorem State.behind_pending : (s.behind before).pending = s.pending := rfl
@[simp] theorem State.behind_pathsBroken : (s.behind before).pathsBroken = s.pathsBroken := rfl

/-- The end of a body with these bytes in front of the output. -/
def Body.behind (before : List Byte) : Body α → Body α
  | .done a s => .done a (s.behind before)
  | .raise e s => .raise e (s.behind before)
  | .stuck f => .stuck f

/-- The outcome of a command with these bytes in front of the output. -/
def outcomeBehind (before : List Byte) :
    Host.Outcome State Fault Refusal → Host.Outcome State Fault Refusal
  | .next s => .next (s.behind before)
  | .fault f => .fault f
  | .refused r => .refused r

/-- What the output holds makes no difference to the operation. -/
def IgnoresOutput (k : State → Body α) : Prop :=
  ∀ before s, k (s.behind before) = (k s).behind before

theorem IgnoresOutput.andThen {r : State → Body α} {k : α → State → Body β} (hr : IgnoresOutput r)
    (hk : ∀ a, IgnoresOutput (k a)) : IgnoresOutput fun s => (r s).andThen k := by
  intro before s
  dsimp only
  rw [hr before s]
  cases r s with
  | done a u => exact hk a before u
  | raise _ _ => rfl
  | stuck _ => rfl

/-- A test that does not look at the output. -/
theorem IgnoresOutput.ite {c : State → Prop} [∀ s, Decidable (c s)] {k l : State → Body α}
    (hc : ∀ before s, c (s.behind before) ↔ c s) (hk : IgnoresOutput k) (hl : IgnoresOutput l) :
    IgnoresOutput fun s => if c s then k s else l s := by
  intro before s
  dsimp only
  simp only [hc]
  split
  · exact hk before s
  · exact hl before s

/-- The flag and the body of a `require` may depend on all but the output. -/
theorem requireFlag_ignoresOutput {c : State → Bool} {k : State → State → Body Unit}
    (hc : ∀ before s, c (s.behind before) = c s) (hk : IgnoresOutput fun s => k s s) :
    IgnoresOutput fun s => requireFlag (c s) (k s) s := by
  intro before s
  dsimp only
  rw [hc]
  cases c s with
  | false => rfl
  | true => exact hk before s

/-! The streams and the helpers of the bodies. -/

theorem afterWrite_behind (io : Streams) (v : Byte) (accepted : Bool) :
    (io.behind before).afterWrite v accepted = (io.afterWrite v accepted).behind before := by
  cases accepted <;> simp [Streams.afterWrite, Streams.behind]

theorem replay_behind (io : Streams) (cs : List StreamCall) :
    (io.behind before).replay cs = (io.replay cs).behind before := by
  induction cs generalizing io with
  | nil => rfl
  | cons c cs ih =>
    cases c with
    | read answer => exact ih (io.afterRead answer)
    | rewind => exact ih io.inRewind
    | write v accepted =>
      rw [Streams.replay, afterWrite_behind]
      exact ih (io.afterWrite v accepted)

theorem outByte_ignoresOutput (v : Byte) : IgnoresOutput (outByte v) := by
  intro before s
  cases ha : s.io.outAccepts with
  | true =>
    rw [outByte_accepted v ha, outByte_accepted v (s := s.behind before) ha]
    exact congrArg (fun io => Body.done () { s with io := io }) (afterWrite_behind s.io v true)
  | false =>
    rw [outByte_rejected v ha, outByte_rejected v (s := s.behind before) ha]
    rfl

theorem outBytes_ignoresOutput (bytes : List Byte) : IgnoresOutput (outBytes bytes) := by
  induction bytes with
  | nil => exact fun _ _ => rfl
  | cons v vs ih => exact (outByte_ignoresOutput v).andThen fun _ => ih

theorem inByte_ignoresOutput (e : ErrCode) : IgnoresOutput (inByte e) := by
  intro before s
  cases ha : s.io.inAnswer with
  | byte v => rw [inByte_byte e ha, inByte_byte e (s := s.behind before) ha]; rfl
  | eof => rw [inByte_eof e ha, inByte_eof e (s := s.behind before) ha]; rfl
  | err => rw [inByte_err e ha, inByte_err e (s := s.behind before) ha]; rfl

theorem inByteOrStop_ignoresOutput : IgnoresOutput inByteOrStop := by
  intro before s
  cases ha : s.io.inAnswer with
  | byte v => rw [inByteOrStop_byte ha, inByteOrStop_byte (s := s.behind before) ha]; rfl
  | eof => rw [inByteOrStop_eof ha, inByteOrStop_eof (s := s.behind before) ha]; rfl
  | err => rw [inByteOrStop_err ha, inByteOrStop_err (s := s.behind before) ha]; rfl

theorem inFieldFrom_ignoresOutput (n k : Nat) (t : Count) : IgnoresOutput (inFieldFrom n k t) := by
  induction n generalizing k t with
  | zero => exact fun _ _ => rfl
  | succ n ih => exact (inByte_ignoresOutput .eHeader).andThen fun _ => ih _ _

theorem inField_ignoresOutput : IgnoresOutput inField := inFieldFrom_ignoresOutput _ _ _

theorem putBit_ignoresOutput (b : Bit) : IgnoresOutput (putBit b) :=
  .ite (fun _ _ => Iff.rfl)
    (fun before s => (outByte_ignoresOutput (s.wsr.shiftConcat b)).andThen (fun _ _ _ => rfl) before s)
    fun _ _ => rfl

theorem putBits_ignoresOutput (c : Codeword) : IgnoresOutput (putBits c) := by
  induction c with
  | nil => exact fun _ _ => rfl
  | cons b bs ih => exact (putBit_ignoresOutput b).andThen fun _ => ih

theorem putSymbol_ignoresOutput (sym : Symbol) : IgnoresOutput (putSymbol sym) := by
  intro before s
  unfold putSymbol
  rw [State.behind_code]
  split
  · exact putBits_ignoresOutput _ before s
  · rfl

theorem flush_ignoresOutput : IgnoresOutput flush :=
  .ite (fun _ _ => Iff.rfl) (fun _ _ => rfl)
    fun before s => (outByte_ignoresOutput s.paddedByte).andThen (fun _ _ _ => rfl) before s

theorem refill_ignoresOutput : IgnoresOutput refill :=
  .ite (fun _ _ => Iff.rfl) ((inByte_ignoresOutput .eEof).andThen fun _ _ _ => rfl) fun _ _ => rfl

theorem getBit_ignoresOutput : IgnoresOutput getBit :=
  refill_ignoresOutput.andThen fun _ _ _ => rfl

theorem countSym_ignoresOutput (sym : Symbol) : IgnoresOutput (countSym sym) :=
  .ite (fun _ _ => Iff.rfl) (fun _ _ => rfl) fun _ _ => rfl

theorem countRest_ignoresOutput (n : Nat) : IgnoresOutput (countRest n) := by
  induction n with
  | zero => exact fun _ _ => rfl
  | succ n ih =>
    refine inByteOrStop_ignoresOutput.andThen fun v => ?_
    cases v with
    | none => exact fun _ _ => rfl
    | some sym => exact (countSym_ignoresOutput sym).andThen fun _ => ih

theorem encodeRest_ignoresOutput (n : Nat) : IgnoresOutput (encodeRest n) := by
  induction n with
  | zero => exact fun _ _ => rfl
  | succ n ih =>
    refine inByteOrStop_ignoresOutput.andThen fun v => ?_
    cases v with
    | none => exact fun _ _ => rfl
    | some sym => exact (putSymbol_ignoresOutput sym).andThen fun _ => ih

theorem loadTable_ignoresOutput (l : List Symbol) : IgnoresOutput (loadTable l) := by
  induction l with
  | nil => exact fun _ _ => rfl
  | cons sym rest ih => exact inField_ignoresOutput.andThen fun t before s => ih before (s.setFreq sym t)

theorem advance_ignoresOutput (b : Bit) : IgnoresOutput (advance b) := by
  intro before s
  unfold advance
  rw [State.behind_tree, State.behind_cur, State.behind_root]
  split
  · rfl
  · split <;> rfl

theorem walkToLeaf_ignoresOutput (n : Nat) : IgnoresOutput (walkToLeaf n) := by
  induction n with
  | zero => exact fun _ _ => rfl
  | succ n ih =>
    refine getBit_ignoresOutput.andThen fun b => (advance_ignoresOutput b).andThen fun _ before s => ?_
    rw [State.behind_tree, State.behind_cur]
    split
    · rfl
    · split
      · rfl
      · exact ih before s

theorem doAll_ignoresOutput {l : List (State → Body Unit)} (hl : ∀ x ∈ l, IgnoresOutput x) :
    IgnoresOutput (doAll l) := by
  induction l with
  | nil => exact fun _ _ => rfl
  | cons x xs ih => exact (hl x (by simp)).andThen fun _ => ih fun y hy => hl y (by simp [hy])

/-! The bodies. -/

theorem rewindInput_ignoresOutput : IgnoresOutput rewindInput := fun _ _ => rfl

theorem bodyFadds_ignoresOutput : IgnoresOutput bodyFadds :=
  requireFlag_ignoresOutput (fun _ _ => rfl) fun before s => countRest_ignoresOutput _ before s

theorem bodyFload_ignoresOutput : IgnoresOutput bodyFload :=
  requireFlag_ignoresOutput (fun _ _ => rfl) (loadTable_ignoresOutput _)

theorem bodyFsave_ignoresOutput : IgnoresOutput bodyFsave :=
  fun before s => outBytes_ignoresOutput _ before s

theorem bodyTbuild_ignoresOutput : IgnoresOutput bodyTbuild := by
  refine requireFlag_ignoresOutput (fun _ _ => rfl) fun before s => ?_
  simp only [State.behind_freq, State.behind_tree]
  generalize buildTree s.freq s.tree = b
  rfl

theorem bodyTcodes_ignoresOutput : IgnoresOutput bodyTcodes :=
  requireFlag_ignoresOutput (fun _ _ => rfl) fun _ _ => rfl

theorem bodyTrecon_ignoresOutput : IgnoresOutput bodyTrecon := by
  refine requireFlag_ignoresOutput (fun _ _ => rfl) fun before s => ?_
  simp only [State.behind_freq, State.behind_code, State.behind_tree]
  split <;> rfl

theorem bodyCsave_ignoresOutput : IgnoresOutput bodyCsave :=
  fun before s => outBytes_ignoresOutput _ before s

theorem bodyCload_ignoresOutput : IgnoresOutput bodyCload :=
  inField_ignoresOutput.andThen fun _ _ _ => rfl

theorem bodyEsyms_ignoresOutput : IgnoresOutput bodyEsyms :=
  requireFlag_ignoresOutput (fun _ _ => rfl) fun before s => encodeRest_ignoresOutput _ before s

theorem bodyDsym_ignoresOutput : IgnoresOutput bodyDsym :=
  requireFlag_ignoresOutput (fun _ _ => rfl) fun before s =>
    (walkToLeaf_ignoresOutput (s.bitsLeft + 1)).andThen
      (fun sym => (outByte_ignoresOutput sym).andThen fun _ _ _ => rfl) before s

theorem decodeLoop_ignoresOutput (n : Nat) : IgnoresOutput (decodeLoop n) := by
  induction n with
  | zero => exact fun _ _ => rfl
  | succ n ih =>
    exact .ite (fun _ _ => Iff.rfl) (fun _ _ => rfl) (bodyDsym_ignoresOutput.andThen fun _ => ih)

theorem bodyEncode_ignoresOutput : IgnoresOutput bodyEncode := by
  intro before s
  refine IgnoresOutput.andThen (doAll_ignoresOutput ?_) (fun _ _ _ => rfl) before s.sessionInit
  simp only [List.forall_mem_cons, List.not_mem_nil, false_imp_iff, implies_true, and_true]
  exact ⟨rewindInput_ignoresOutput, bodyFadds_ignoresOutput, bodyTbuild_ignoresOutput,
    bodyTcodes_ignoresOutput, bodyCsave_ignoresOutput, bodyFsave_ignoresOutput, rewindInput_ignoresOutput,
    bodyEsyms_ignoresOutput, flush_ignoresOutput⟩

theorem bodyDecode_ignoresOutput : IgnoresOutput bodyDecode := by
  intro before s
  refine IgnoresOutput.andThen (doAll_ignoresOutput ?_) (fun _ _ _ => rfl) before s.sessionInit
  simp only [List.forall_mem_cons, List.not_mem_nil, false_imp_iff, implies_true, and_true]
  exact ⟨rewindInput_ignoresOutput, bodyCload_ignoresOutput, bodyFload_ignoresOutput,
    bodyTbuild_ignoresOutput, bodyTcodes_ignoresOutput, fun before s => decodeLoop_ignoresOutput _ before s⟩

theorem bodyWkrst_ignoresOutput : IgnoresOutput bodyWkrst :=
  requireFlag_ignoresOutput (k := fun _ s => .done () { s with cur := s.root }) (fun _ _ => rfl) fun _ _ => rfl

theorem bodyOf_ignoresOutput (i : Instr) : IgnoresOutput (bodyOf i) := by
  cases i with
  | nop => exact fun _ _ => rfl
  | init => exact fun _ _ => rfl
  | wbit b => exact putBit_ignoresOutput b
  | wcode sym => exact requireFlag_ignoresOutput (fun _ _ => rfl) (putSymbol_ignoresOutput sym)
  | wflush => exact flush_ignoresOutput
  | rbit => exact getBit_ignoresOutput.andThen fun _ _ _ => rfl
  | fadd sym => exact requireFlag_ignoresOutput (fun _ _ => rfl) (countSym_ignoresOutput sym)
  | fadds => exact bodyFadds_ignoresOutput
  | fsave => exact bodyFsave_ignoresOutput
  | fload => exact bodyFload_ignoresOutput
  | tbuild => exact bodyTbuild_ignoresOutput
  | tcodes => exact bodyTcodes_ignoresOutput
  | trecon => exact bodyTrecon_ignoresOutput
  | wkrst => exact bodyWkrst_ignoresOutput
  | wkadv b => exact requireFlag_ignoresOutput (fun _ _ => rfl) (advance_ignoresOutput b)
  | csave => exact bodyCsave_ignoresOutput
  | cload => exact bodyCload_ignoresOutput
  | esyms => exact bodyEsyms_ignoresOutput
  | dsym => exact bodyDsym_ignoresOutput
  | encode => exact bodyEncode_ignoresOutput
  | decode => exact bodyDecode_ignoresOutput

/-! Commands, words and events. -/

theorem flushAttempt_behind : flushAttempt (s.behind before) = (flushAttempt s).behind before := by
  have hpad : (s.behind before).paddedByte = s.paddedByte := rfl
  have hacc : (s.io.behind before).outAccepts = s.io.outAccepts := rfl
  unfold flushAttempt
  simp only [State.behind_wcnt, State.behind_io, hpad, hacc, afterWrite_behind]
  split
  · rfl
  · split <;> rfl

theorem faultEntry_behind (e : ErrCode) (w : CmdWord) :
    faultEntry e w (s.behind before) = (faultEntry e w s).behind before := by
  rw [faultEntry, flushAttempt_behind]
  rfl

theorem runCommand_behind (i : Instr) {body : State → Body Unit} (hb : IgnoresOutput body) :
    runCommand i body (s.behind before) = outcomeBehind before (runCommand i body s) := by
  by_cases hs : Running s
  · rw [runCommand_running i body hs, runCommand_running (s := s.behind before) i body hs, hb before s]
    cases body s with
    | done _ _ => rfl
    | raise e u => exact congrArg Host.Outcome.next (faultEntry_behind e _)
    | stuck _ => rfl
  · rw [runCommand_faulted i body hs, runCommand_faulted (s := s.behind before) i body hs]
    rfl

theorem exec_behind (i : Instr) : exec i (s.behind before) = outcomeBehind before (exec i s) := by
  have hrun := runCommand_behind (s := s) (before := before) i (bodyOf_ignoresOutput i)
  cases i with
  | init => rfl
  | tcodes =>
    simp only [exec, execTcodes]
    rw [State.behind_pathsBroken]
    split
    · rfl
    · exact hrun
  | _ => exact hrun

theorem takeWord_behind (w : CmdWord) :
    takeWord w (s.behind before) = outcomeBehind before (takeWord w s) := by
  unfold takeWord
  rw [State.behind_errCode]
  split
  · split
    · exact exec_behind .init
    · rfl
  · split
    · exact congrArg Host.Outcome.next (faultEntry_behind .eIllegal w)
    · exact exec_behind _

theorem abandonAfter_behind (n : Nat) (s t : State) :
    abandonAfter n (s.behind before) (t.behind before) = (abandonAfter n s t).behind before :=
  congrArg (fun io => ({ s with io := io } : State).resetEngine) (replay_behind s.io _)

theorem resetWhileRunning_behind (w : CmdWord) (n : Nat) :
    resetWhileRunning w n (s.behind before) = outcomeBehind before (resetWhileRunning w n s) := by
  unfold resetWhileRunning
  rw [takeWord_behind]
  cases takeWord w s with
  | next t => exact congrArg Host.Outcome.next (abandonAfter_behind n s t)
  | fault _ => rfl
  | refused _ => rfl

theorem step_behind : step (s.behind before) = outcomeBehind before (step s) := by
  unfold step hostStep
  rw [State.behind_pending]
  split
  case h_1 => rfl
  case h_2 w rest _ => exact takeWord_behind (s := { s with pending := rest }) w
  case h_3 => rfl
  case h_4 w n rest _ => exact resetWhileRunning_behind (s := { s with pending := rest }) w n
  case h_5 => rfl

theorem reaches_abandonAfter (n : Nat) (s t : State) : Reaches s.io (abandonAfter n s t).io := ⟨_, rfl⟩

/-- A rewind by the host is no call (70_reset_and_hazards.md R263); every other event moves the streams by
recorded calls. -/
theorem step_reaches {t : State} (h : step s = .next t) :
    Reaches s.io t.io ∨ t.io = { s.io with inPos := 0 } := by
  obtain ⟨-, rfl⟩ | ⟨w, rest, -, hw⟩ | ⟨rest, -, rfl⟩ | ⟨w, n, rest, u, -, -, rfl⟩ | ⟨rest, -, rfl⟩ :=
    step_eq_next h
  · exact .inl (Reaches.refl _)
  · exact .inl (takeWord_reaches (s := { s with pending := rest }) hw)
  · exact .inl (Reaches.refl _)
  · exact .inl (reaches_abandonAfter n _ u)
  · exact .inr rfl

theorem step_outData_inData {t : State} (h : step s = .next t) :
    s.io.outData <+: t.io.outData ∧ t.io.inData = s.io.inData := by
  obtain ⟨cs, hcs⟩ | hrewound := step_reaches h
  · rw [hcs]
    exact ⟨replay_outData s.io cs, replay_inData s.io cs⟩
  · rw [hrewound]
    exact ⟨List.prefix_refl _, rfl⟩

end Sys2Proof.Machine

namespace Sys2Proof.Machine

/-! ### The commands that touch no stream (20_memory.md R80) -/

open Sys2Proof.Safety

variable {s t : State} {i : Instr}

/-- Neither the streams nor the number of pending bits have changed. -/
def SameStreams (s t : State) : Prop := t.io = s.io ∧ t.wcnt = s.wcnt

theorem SameStreams.refl (s : State) : SameStreams s s := ⟨rfl, rfl⟩

theorem countSym_sameStreams (sym : Symbol) (s : State) : (countSym sym s).Leaves (SameStreams s) := by
  unfold countSym
  split
  · exact .refl s
  · exact ⟨rfl, rfl⟩

theorem advance_sameStreams (b : Bit) (s : State) : (advance b s).Leaves (SameStreams s) := by
  unfold advance
  split
  · trivial
  · split
    · trivial
    · exact ⟨rfl, rfl⟩

theorem bodyTbuild_sameStreams (s : State) : (bodyTbuild s).Leaves (SameStreams s) :=
  requireFlag_leaves (.refl s) fun _ => ⟨rfl, rfl⟩

theorem bodyTcodes_sameStreams (s : State) : (bodyTcodes s).Leaves (SameStreams s) :=
  requireFlag_leaves (.refl s) fun _ => ⟨rfl, rfl⟩

theorem bodyTrecon_sameStreams (s : State) : (bodyTrecon s).Leaves (SameStreams s) := by
  refine requireFlag_leaves (.refl s) fun _ => ?_
  split
  · trivial
  · exact ⟨rfl, rfl⟩

theorem bodyWkrst_sameStreams (s : State) : (bodyWkrst s).Leaves (SameStreams s) :=
  requireFlag_leaves (.refl s) fun _ => ⟨rfl, rfl⟩

theorem bodyOf_sameStreams (hi : movesBytes i = false) (s : State) : (bodyOf i s).Leaves (SameStreams s) := by
  cases i with
  | nop => exact .refl s
  | init => exact .refl s
  | fadd sym => exact requireFlag_leaves (.refl s) fun _ => countSym_sameStreams sym s
  | tbuild => exact bodyTbuild_sameStreams s
  | tcodes => exact bodyTcodes_sameStreams s
  | trecon => exact bodyTrecon_sameStreams s
  | wkrst => exact bodyWkrst_sameStreams s
  | wkadv b => exact requireFlag_leaves (.refl s) fun _ => advance_sameStreams b s
  | _ => cases hi

/-- Fault entry without pending bits makes no call (60_exceptions.md R226). -/
theorem faultEntry_io_of_noPending (e : ErrCode) (w : CmdWord) (h : s.wcnt = 0) : (faultEntry e w s).io = s.io := by
  rw [faultEntry_io, flushAttempt, if_pos h]

theorem not_running_faultEntry (e : ErrCode) (w : CmdWord) : ¬ Running (faultEntry e w s) := e.code_ne_zero

theorem exec_io_of_not_movesBytes (hi : movesBytes i = false) (h : exec i s = .next t)
    (hf : Running t ∨ s.wcnt = 0) : t.io = s.io := by
  obtain ⟨-, rfl⟩ | ⟨-, -, rfl⟩ | ⟨-, -, hb⟩ | ⟨-, -, e, u, hb, rfl⟩ := exec_eq_next h
  · rfl
  · rfl
  · exact ((bodyOf_sameStreams hi s).of_done hb).1
  · obtain ⟨hio, hwcnt⟩ := (bodyOf_sameStreams hi s).of_raise hb
    have h0 : s.wcnt = 0 := hf.resolve_left (not_running_faultEntry e _)
    rw [faultEntry_io_of_noPending e _ (hwcnt.trans h0), hio]

end Sys2Proof.Machine

namespace Sys2Proof.Proofs

open Sys2Proof.Machine Sys2Proof.Safety

/-- Settles O55: the streams move by recorded calls or by the host's rewind, and no operation reads the output. -/
theorem outputIsOnlyAppendedTo : Obligations.OutputIsOnlyAppendedTo := by
  intro s t h
  have hbefore (before : List Byte) : step (s.behind before) = .next (t.behind before) := by
    rw [step_behind, h]
    rfl
  obtain ⟨hout, hin⟩ := step_outData_inData h
  exact ⟨hout, hin, hbefore⟩

/-- Settles O56: none of these commands moves a byte, and fault entry does so only with bits pending. -/
theorem otherCommandsTouchNoStream : Obligations.OtherCommandsTouchNoStream := by
  intro i s t hi h hf
  have hmoves : movesBytes i = false := by
    obtain hi | ⟨sym, rfl⟩ := hi
    · fin_cases hi <;> rfl
    · rfl
  exact exec_io_of_not_movesBytes hmoves h hf

end Sys2Proof.Proofs

namespace Sys2Proof

/-! ### The two fields of a command word (30_encoding.md R90) -/

@[simp] theorem wordOp_append (op arg : BitVec 8) : wordOp (op ++ arg) = op := BitVec.extractLsb'_append_eq_left

@[simp] theorem wordArg_append (op arg : BitVec 8) : wordArg (op ++ arg) = arg := BitVec.extractLsb'_append_eq_right

theorem wordOp_append_wordArg (w : CmdWord) : wordOp w ++ wordArg w = w :=
  (BitVec.extractLsb'_append_extractLsb'_eq_extractLsb' rfl).trans BitVec.extractLsb'_eq_self

/-- A word is its two fields. -/
theorem word_ext_iff {v w : CmdWord} : v = w ↔ wordOp v = wordOp w ∧ wordArg v = wordArg w := by
  constructor
  · rintro rfl
    exact ⟨rfl, rfl⟩
  · rintro ⟨hop, harg⟩
    rw [← wordOp_append_wordArg v, ← wordOp_append_wordArg w, hop, harg]

theorem encodeWord_eq_iff {i : Instr} {w : CmdWord} :
    encodeWord i = w ↔ wordOp w = i.opcode ∧ wordArg w = i.operand := by
  simp [word_ext_iff, encodeWord, eq_comm]

/-! ### Which operand fields a format admits (30_encoding.md R91) -/

theorem admits_c0_iff {arg : BitVec 8} : Format.c0.admits arg = true ↔ arg = 0 := beq_iff_eq

/-- A `C1` field is the bit `arg[0]`, extended. -/
theorem admits_c1_iff {arg : BitVec 8} :
    Format.c1.admits arg = true ↔ (BitVec.ofBool (arg.getLsbD 0)).setWidth 8 = arg := by
  revert arg
  decide

theorem Instr.wellFormed_eq_true (i : Instr) : i.wellFormed = true := by
  cases i with
  | wbit b | wkadv b => cases b <;> rfl
  | _ => rfl

/-- An operand field that a command's format admits is the operand of a command with that opcode. -/
theorem exists_operand_of_admits {i : Instr} {arg : BitVec 8} (h : i.format.admits arg = true) :
    ∃ j : Instr, j.opcode = i.opcode ∧ j.operand = arg := by
  cases i with
  | wbit _ => exact ⟨.wbit (arg.getLsbD 0), rfl, admits_c1_iff.mp h⟩
  | wkadv _ => exact ⟨.wkadv (arg.getLsbD 0), rfl, admits_c1_iff.mp h⟩
  | wcode _ => exact ⟨.wcode arg, rfl, rfl⟩
  | fadd _ => exact ⟨.fadd arg, rfl, rfl⟩
  | _ => exact ⟨_, rfl, (admits_c0_iff.mp h).symm⟩

/-! ### What the decoder accepts (30_encoding.md R99) -/

section
variable {op arg : BitVec 8} {w : CmdWord} {i j : Instr}

theorem fields_of_decodeC0 (h : decodeC0 arg j = some i) (hop : op.toNat = j.opcode.toNat) (hj : j.operand = 0) :
    op = i.opcode ∧ arg = i.operand := by
  unfold decodeC0 at h
  split at h
  · cases h
    exact ⟨BitVec.eq_of_toNat_eq hop, (admits_c0_iff.mp ‹_›).trans hj.symm⟩
  · cases h

theorem fields_of_decodeC1 {f : Bit → Instr} (h : decodeC1 arg f = some i)
    (hop : ∀ b, op.toNat = (f b).opcode.toNat) (hf : ∀ b, (f b).operand = (BitVec.ofBool b).setWidth 8) :
    op = i.opcode ∧ arg = i.operand := by
  unfold decodeC1 at h
  split at h
  · cases h
    exact ⟨BitVec.eq_of_toNat_eq (hop _), ((hf _).trans (admits_c1_iff.mp ‹_›)).symm⟩
  · cases h

theorem fields_of_decodeWord (h : decodeWord w = some i) : wordOp w = i.opcode ∧ wordArg w = i.operand := by
  unfold decodeWord at h
  split at h
  case h_3 hop | h_15 hop => exact fields_of_decodeC1 h (fun _ => hop) (fun _ => rfl)
  case h_4 hop | h_7 hop => cases h; exact ⟨BitVec.eq_of_toNat_eq hop, rfl⟩
  case h_22 => cases h
  all_goals exact fields_of_decodeC0 h ‹_› rfl

theorem decodeWord_of_fields (hop : wordOp w = i.opcode) (harg : wordArg w = i.operand) :
    decodeWord w = some i := by
  unfold decodeWord
  rw [hop, harg]
  cases i with
  | wbit b | wkadv b => cases b <;> rfl
  | _ => rfl

/-- The decoder reads a command exactly from the word with its opcode and its operand. -/
theorem decodeWord_eq_some_iff : decodeWord w = some i ↔ encodeWord i = w := by
  rw [encodeWord_eq_iff]
  exact ⟨fields_of_decodeWord, fun ⟨hop, harg⟩ => decodeWord_of_fields hop harg⟩

theorem encodeWord_injective : Function.Injective encodeWord := fun _ _ h =>
  Option.some.inj ((decodeWord_eq_some_iff.mpr rfl).symm.trans (decodeWord_eq_some_iff.mpr h.symm))

theorem isSome_decodeWord_iff : (decodeWord w).isSome = true ↔ ∃ i, encodeWord i = w := by
  simp only [Option.isSome_iff_exists, decodeWord_eq_some_iff]

end

/-! ### The opcode map (30_encoding.md R92) -/

/-- The mask over `arg` that a format stands for in the opcode map. -/
def Format.argMask : Format → BitVec 8
  | .c0 => 0xFF
  | .c1 => 0xFE
  | .c8 => 0x00

/-- The row of a command in the opcode map. -/
def Instr.row (i : Instr) : OpcodeRow := ⟨i.opcode ++ 0#8, 0xFF#8 ++ i.format.argMask⟩

theorem and_argMask_eq_zero_iff (f : Format) (arg : BitVec 8) :
    arg &&& f.argMask = 0 ↔ f.admits arg = true := by
  revert arg
  cases f <;> decide

theorem OpcodeRow.covers_iff {r : OpcodeRow} {w : CmdWord} :
    r.covers w = true ↔
      wordOp w &&& wordOp r.mask = wordOp r.pattern ∧ wordArg w &&& wordArg r.mask = wordArg r.pattern := by
  simp only [OpcodeRow.covers, beq_iff_eq, word_ext_iff, wordOp, wordArg, BitVec.extractLsb'_and]

theorem Instr.row_covers_iff {i : Instr} {w : CmdWord} :
    i.row.covers w = true ↔ wordOp w = i.opcode ∧ i.format.admits (wordArg w) = true := by
  have hff : ∀ op : BitVec 8, op &&& 0xFF#8 = op := fun _ => BitVec.and_allOnes
  simp [OpcodeRow.covers_iff, Instr.row, hff, ← and_argMask_eq_zero_iff]

/-- Every row is the row of a command, the one its pattern decodes to. -/
theorem exists_row_of_mem_opcodeTable {r : OpcodeRow} (h : r ∈ opcodeTable) : ∃ i : Instr, i.row = r := by
  have hdecoded : ∀ r ∈ opcodeTable, (decodeWord r.pattern).map Instr.row = some r := by decide
  obtain ⟨i, -, hi⟩ := Option.map_eq_some_iff.mp (hdecoded r h)
  exact ⟨i, hi⟩

/-- A command's row is the same for every operand, so one operand of each speaks for all. -/
theorem Instr.row_mem_opcodeTable (i : Instr) : i.row ∈ opcodeTable := by
  cases i with
  | wbit _ => exact (by decide : (Instr.wbit false).row ∈ opcodeTable)
  | wcode _ => exact (by decide : (Instr.wcode 0).row ∈ opcodeTable)
  | fadd _ => exact (by decide : (Instr.fadd 0).row ∈ opcodeTable)
  | wkadv _ => exact (by decide : (Instr.wkadv false).row ∈ opcodeTable)
  | _ => decide

theorem exists_row_covers_iff {w : CmdWord} :
    (∃ r ∈ opcodeTable, r.covers w = true) ↔ ∃ i, encodeWord i = w := by
  constructor
  · rintro ⟨r, hr, hcovers⟩
    obtain ⟨i, rfl⟩ := exists_row_of_mem_opcodeTable hr
    obtain ⟨hop, hadmits⟩ := Instr.row_covers_iff.mp hcovers
    obtain ⟨j, hj, harg⟩ := exists_operand_of_admits hadmits
    exact ⟨j, encodeWord_eq_iff.mpr ⟨hop.trans hj.symm, harg.symm⟩⟩
  · rintro ⟨i, hi⟩
    obtain ⟨hop, harg⟩ := encodeWord_eq_iff.mp hi
    exact ⟨i.row, i.row_mem_opcodeTable, Instr.row_covers_iff.mpr ⟨hop, harg ▸ i.wellFormed_eq_true⟩⟩

/-- All rows fix the whole of `op`, each another value. -/
theorem row_unique {r₁ r₂ : OpcodeRow} {w : CmdWord} (h₁ : r₁ ∈ opcodeTable) (h₂ : r₂ ∈ opcodeTable)
    (hw₁ : r₁.covers w = true) (hw₂ : r₂.covers w = true) : r₁ = r₂ := by
  have hop {r : OpcodeRow} (hr : r ∈ opcodeTable) (hw : r.covers w = true) : wordOp r.pattern = wordOp w := by
    obtain ⟨i, rfl⟩ := exists_row_of_mem_opcodeTable hr
    exact (wordOp_append _ _).trans (Instr.row_covers_iff.mp hw).1.symm
  have hrows : ∀ r₁ ∈ opcodeTable, ∀ r₂ ∈ opcodeTable, wordOp r₁.pattern = wordOp r₂.pattern → r₁ = r₂ := by
    decide
  exact hrows r₁ h₁ r₂ h₂ ((hop h₁ hw₁).trans (hop h₂ hw₂).symm)

end Sys2Proof

namespace Sys2Proof.Machine

/-! ### Each symbol stands once in the loop over all symbols (00_scope.md R13) -/

theorem mem_allSymbols (s : Symbol) : s ∈ allSymbols :=
  List.mem_map.mpr ⟨s.toNat, List.mem_range.mpr s.isLt, BitVec.ofNat_toNat 8 s⟩

theorem nodup_allSymbols : allSymbols.Nodup := by
  refine List.Nodup.map_on (fun m hm n hn h => ?_) List.nodup_range
  have hmod : m % 256 = n % 256 := congrArg BitVec.toNat h
  rwa [Nat.mod_eq_of_lt (List.mem_range.mp hm), Nat.mod_eq_of_lt (List.mem_range.mp hn)] at hmod

end Sys2Proof.Machine

namespace Sys2Proof

/-! ### The number of the legal words (30_encoding.md R99) -/

open Sys2Proof.Machine

/-- The commands without a byte operand: those of format `C0`, and those of format `C1` with either bit. -/
def commandsWithoutByte : List Instr :=
  [.nop, .init, .wbit false, .wbit true, .wflush, .rbit, .fadds, .fsave, .fload, .tbuild, .tcodes, .trecon,
   .wkrst, .wkadv false, .wkadv true, .csave, .cload, .esyms, .dsym, .encode, .decode]

/-- Every command with every operand. -/
def allCommands : List Instr := commandsWithoutByte ++ (allSymbols.map .wcode ++ allSymbols.map .fadd)

theorem length_allCommands : allCommands.length = 533 := by
  simp [allCommands, length_allSymbols, commandsWithoutByte]

theorem mem_allCommands (i : Instr) : i ∈ allCommands := by
  cases i with
  | wbit b | wkadv b => cases b <;> simp [allCommands, commandsWithoutByte]
  | wcode s | fadd s => simp [allCommands, mem_allSymbols]
  | _ => simp [allCommands, commandsWithoutByte]

theorem nodup_allCommands : allCommands.Nodup := by
  have hwcode : (allSymbols.map Instr.wcode).Nodup := nodup_allSymbols.map fun _ _ => Instr.wcode.inj
  have hfadd : (allSymbols.map Instr.fadd).Nodup := nodup_allSymbols.map fun _ _ => Instr.fadd.inj
  refine List.Nodup.append (by decide) (hwcode.append hfadd ?_) ?_
  · simp [List.Disjoint]
  · simp [List.Disjoint, commandsWithoutByte]

/-- The words of all commands, as numbers. -/
def legalWords : List Nat := allCommands.map fun i => (encodeWord i).toNat

theorem nodup_legalWords : legalWords.Nodup :=
  nodup_allCommands.map fun _ _ h => encodeWord_injective (BitVec.eq_of_toNat_eq h)

theorem mem_legalWords_iff {n : Nat} :
    n ∈ legalWords ↔ n < 65536 ∧ (decodeWord (BitVec.ofNat 16 n)).isSome = true := by
  rw [isSome_decodeWord_iff, legalWords, List.mem_map]
  constructor
  · rintro ⟨i, -, rfl⟩
    exact ⟨(encodeWord i).isLt, i, (BitVec.setWidth_eq _).symm.trans (BitVec.ofNat_toNat 16 _).symm⟩
  · rintro ⟨hn, i, hi⟩
    exact ⟨i, mem_allCommands i, by rw [hi, BitVec.toNat_ofNat, Nat.mod_eq_of_lt hn]⟩

theorem legalWords_perm :
    legalWords.Perm ((List.range 65536).filter fun n => (decodeWord (BitVec.ofNat 16 n)).isSome) := by
  rw [List.perm_ext_iff_of_nodup nodup_legalWords (List.nodup_range.filter _)]
  intro n
  rw [mem_legalWords_iff, List.mem_filter, List.mem_range]

end Sys2Proof

namespace Sys2Proof.Machine

/-! ### A word at the command port (60_exceptions.md R229) -/

open Sys2Proof.Safety

variable {s : State} {w : CmdWord}

theorem step_command {rest : List HostEvent} (h : s.pending = .command w :: rest) :
    step s = takeWord w { s with pending := rest } := by
  simp [step, hostStep, h]

theorem takeWord_of_illegal (hs : Running s) (hw : decodeWord w = none) :
    takeWord w s = .next (faultEntry .eIllegal w s) := by
  simp [takeWord, hs, hw]

/-- Fault entry without pending bits writes `ERR` alone (60_exceptions.md R226). -/
theorem faultEntry_of_noPending (e : ErrCode) (w : CmdWord) (h : s.wcnt = 0) :
    faultEntry e w s = { s with errCode := e.code, errCmd := w } := by
  rw [faultEntry, flushAttempt, if_pos h]

end Sys2Proof.Machine

namespace Sys2Proof.Proofs

open Sys2Proof.Machine

/-- Settles O1: the two fields of an encoded command are its opcode and its operand. -/
theorem decodeReadsBackEncodedCommand : Obligations.DecodeReadsBackEncodedCommand := fun i =>
  ⟨i.wellFormed_eq_true, decodeWord_eq_some_iff.mpr rfl⟩

/-- Settles O2: the decoder fixes both fields of the word. -/
theorem encodedWordIsTheOnlyWordDecoded : Obligations.EncodedWordIsTheOnlyWordDecoded := fun _ _ =>
  decodeWord_eq_some_iff.mp

/-- Settles O3: the rows are those of the commands, and a row fixes `op` and leaves what its format admits. -/
theorem wordIsLegalIffOneRowCoversIt : Obligations.WordIsLegalIffOneRowCoversIt :=
  ⟨rfl, fun _ => ⟨isSome_decodeWord_iff.trans exists_row_covers_iff.symm,
    fun _ h₁ _ h₂ => row_unique h₁ h₂⟩⟩

/-- Settles O4: the legal words are the encodings of the 533 commands, each counted once. -/
theorem legalWordsAre533 : Obligations.LegalWordsAre533 := by
  rw [Obligations.LegalWordsAre533, List.countP_eq_length_filter, ← legalWords_perm.length_eq, legalWords,
    List.length_map, length_allCommands]

/-- Settles O5: the decoder is run on each of the words. -/
theorem sampleWordsDecode : Obligations.SampleWordsDecode := by
  unfold Obligations.SampleWordsDecode
  decide

/-- Settles O7: the port goes from the decoder's `none` to fault entry, which without pending bits writes `ERR`
alone. -/
theorem illegalWordRaisesEIllegal : Obligations.IllegalWordRaisesEIllegal := by
  intro s w rest hs hp hw
  have hstep : step s = .next (faultEntry .eIllegal w { s with pending := rest }) :=
    (step_command hp).trans (takeWord_of_illegal hs hw)
  refine ⟨hstep, fun h0 => hstep.trans (congrArg Host.Outcome.next ?_)⟩
  exact faultEntry_of_noPending (s := { s with pending := rest }) .eIllegal w h0

end Sys2Proof.Proofs

namespace Sys2Proof.Machine

/-! ### What the bit writer and the bit reader do to the registers and the streams (40_bitstream.md R110 to R112) -/

open Sys2Proof.Safety

variable {s t u : State}

/-- A command whose body raises ends in fault entry (60_exceptions.md R226). -/
theorem runCommand_raised {i : Instr} {body : State → Body Unit} {e : ErrCode} (h : Running s)
    (hb : body s = .raise e t) : runCommand i body s = .next (faultEntry e (encodeWord i) t) := by
  rw [runCommand_running i body h, hb]
  rfl

/-- The shift of `PutBit` is `{WSR[6:0], b}` (40_bitstream.md R110). -/
theorem shiftConcat_eq_append (r : BitVec 8) (b : Bit) :
    r.shiftConcat b = r.extractLsb' 0 7 ++ BitVec.ofBool b := by
  ext k hk
  rw [BitVec.getElem_shiftConcat, BitVec.getElem_append]
  cases k with
  | zero => simp
  | succ k => simp [BitVec.getLsbD_eq_getElem (show k < 8 by omega)]

/-! The streams after one call. -/

theorem wroteBytes_singleton (io : Streams) (v : Byte) : wroteBytes io [v] = io.afterWrite v true := by
  rw [← wroteBytes_cons, wroteBytes_nil]

theorem wroteBytes_append (io : Streams) (a b : List Byte) :
    wroteBytes (wroteBytes io a) b = wroteBytes io (a ++ b) := by
  simp [wroteBytes]

theorem drop_outData_wroteBytes (io : Streams) (bytes : List Byte) :
    (wroteBytes io bytes).outData.drop io.outData.length = bytes := List.drop_left

theorem tookBytes_one {io : Streams} {v : Byte} (h : io.inAnswer = .byte v) :
    tookBytes io 1 = io.afterRead (.byte v) := by
  rw [← tookBytes_succ io (inPos_lt_of_byte io h).2, tookBytes_zero]

/-! `Flush` with bits pending. -/

theorem flush_accepted (h : s.wcnt ≠ 0) (ha : s.io.outAccepts = true) :
    flush s = .done () (State.writerEmptied { s with io := s.io.afterWrite s.paddedByte true }) := by
  rw [flush, if_neg h, outByte_accepted _ ha, andThen_done]

theorem flush_rejected (h : s.wcnt ≠ 0) (ha : s.io.outAccepts = false) :
    flush s = .raise .eIO { s with io := s.io.afterWrite s.paddedByte false } := by
  rw [flush, if_neg h, outByte_rejected _ ha, andThen_raise]

/-! `GetBit` with nothing buffered and no byte to take. -/

theorem getBit_eof (h : s.rcnt = 0) (ha : s.io.inAnswer = .eof) :
    getBit s = .raise .eEof { s with io := s.io.afterRead .eof } := by
  rw [getBit, refill, if_pos h, inByte_eof .eEof ha, andThen_raise, andThen_raise]

theorem getBit_err (h : s.rcnt = 0) (ha : s.io.inAnswer = .err) :
    getBit s = .raise .eIO { s with io := s.io.afterRead .err } := by
  rw [getBit, refill, if_pos h, inByte_err .eEof ha, andThen_raise, andThen_raise]

/-- What a `GetBit` that delivers a bit has done. -/
theorem getBit_eq_done {b : Bit} (h : getBit s = .done b u) :
    (s.rcnt ≠ 0 ∧ b = s.rsr.msb ∧ u = { s with rsr := s.rsr <<< 1, rcnt := s.rcnt - 1 }) ∨
    (s.rcnt = 0 ∧ ∃ v, s.io.inAnswer = .byte v ∧ b = v.msb ∧
      u = { s with rsr := v <<< 1, rcnt := 7, rbytes := s.rbytes + 1, io := tookBytes s.io 1 }) := by
  by_cases h0 : s.rcnt = 0
  · refine .inr ⟨h0, ?_⟩
    cases ha : s.io.inAnswer with
    | byte v =>
      rw [getBit_refilled h0 ha] at h
      cases h
      exact ⟨v, rfl, rfl, by rw [tookBytes_one ha]⟩
    | eof => rw [getBit_eof h0 ha] at h; cases h
    | err => rw [getBit_err h0 ha] at h; cases h
  · rw [getBit_buffered h0] at h
    cases h
    exact .inl ⟨h0, rfl, rfl⟩

/-! A run of `PutBit`. -/

/-- From `s` to `t` only accepted writes were made, and `WBYTES` counted them. -/
def CountedWrites (s t : State) : Prop :=
  ∃ bytes, t.io = wroteBytes s.io bytes ∧ t.wbytes = s.wbytes + BitVec.ofNat 64 bytes.length

theorem CountedWrites.refl (s : State) : CountedWrites s s :=
  ⟨[], (wroteBytes_nil _).symm, (BitVec.add_zero _).symm⟩

theorem CountedWrites.trans (h₁ : CountedWrites s t) (h₂ : CountedWrites t u) : CountedWrites s u := by
  obtain ⟨a, hio, hcount⟩ := h₁
  obtain ⟨b, hio', hcount'⟩ := h₂
  refine ⟨a ++ b, ?_, ?_⟩
  · rw [hio', hio, wroteBytes_append]
  · rw [hcount', hcount, List.length_append, BitVec.ofNat_add, BitVec.add_assoc]

theorem putBit_countedWrites {b : Bit} (h : putBit b s = .done () u) : CountedWrites s u := by
  by_cases h7 : s.wcnt = 7
  · cases ha : s.io.outAccepts with
    | true =>
      rw [putBit_completes b h7 ha] at h
      cases h
      exact ⟨[s.wsr.shiftConcat b], (wroteBytes_singleton _ _).symm, rfl⟩
    | false => rw [putBit_rejected b h7 ha] at h; cases h
  · rw [putBit_pending b h7] at h
    cases h
    exact CountedWrites.refl s

theorem putBits_countedWrites {c : Codeword} (h : putBits c s = .done () u) : CountedWrites s u := by
  induction c generalizing s with
  | nil => cases h; exact .refl _
  | cons b bs ih =>
    obtain ⟨_, _, hb, hbs⟩ := andThen_eq_done.mp h
    exact (putBit_countedWrites hb).trans (ih hbs)

theorem length_writtenBits (s : State) :
    (writtenBits s).length = 8 * s.io.outData.length + s.wcnt.toNat := by
  simp [writtenBits, writerBits, length_bytesBits]

/-- The number of bits put fixes how many bytes completed and how many bits are pending. -/
theorem byteCount_of_writtenBits {bytes : List Byte} {c : Codeword} (hio : t.io = wroteBytes s.io bytes)
    (hbits : writtenBits t = writtenBits s ++ c) :
    t.wcnt.toNat = (s.wcnt.toNat + c.length) % 8 ∧ bytes.length = (s.wcnt.toNat + c.length) / 8 := by
  have hlen := congrArg List.length hbits
  have hout : t.io.outData.length = s.io.outData.length + bytes.length := by
    rw [hio]; exact List.length_append
  rw [List.length_append, length_writtenBits, length_writtenBits, hout] at hlen
  have hlt : t.wcnt.toNat < 8 := t.wcnt.isLt
  omega

theorem bodyWcode_of_codeAt {sym : Symbol} {c : Codeword} (hcv : s.cv = true) (hc : codeAt s.code sym = some c) :
    bodyWcode sym s = putBits c s := by
  rw [bodyWcode, requireFlag_of hcv, putSymbol, hc]

end Sys2Proof.Machine

namespace Sys2Proof.Proofs

open Sys2Proof.Machine Sys2Proof.Safety

/-- Settles O20: the bits put are those of the codeword, and their number gives `WCNT` and `WBYTES`. -/
theorem wcodeAppendsTheCodeword : Obligations.WcodeAppendsTheCodeword := by
  intro s sym c hs hregs hw hcv hc
  obtain ⟨t, ht, hbits, -⟩ := putBits_writtenBits c hw
  have hbody : bodyWcode sym s = .done () t := (bodyWcode_of_codeAt hcv hc).trans ht
  obtain ⟨bytes, hio, hcount⟩ := putBits_countedWrites ht
  obtain ⟨hwcnt, hlen⟩ := byteCount_of_writtenBits hio hbits
  refine ⟨t, runCommand_done hs hbody, hbits, hwcnt, ?_, ?_, ?_, ?_⟩
  · exact ((putBits_keepsRunInv c (runInv_of_regInv hregs)).of_done ht).regs.writer
  · rw [hcount, hlen]
  · exact eq_of_writerErased ((putBits_keeps c s).of_done ht)
  · rw [hio, drop_outData_wroteBytes]

/-- Settles O23: `GetBit` takes the first bit that is left, from the buffer or from one new byte. -/
theorem rbitReadsTheInputInStreamOrder : Obligations.RbitReadsTheInputInStreamOrder := by
  intro s b rest hs hregs hr hbits
  obtain ⟨u, hu, hrest, -⟩ := getBit_inputBits hr hregs.readerCount hbits
  have hbody : bodyRbit s = .done () { u with rb := b } := by rw [bodyRbit, hu, andThen_done]
  refine ⟨_, runCommand_done hs hbody, rfl, hrest, ?_⟩
  obtain ⟨h0, -, rfl⟩ | ⟨h0, v, -, -, rfl⟩ := getBit_eq_done hu
  · exact ⟨rfl, fun _ => rfl, fun h => absurd h h0⟩
  · exact ⟨rfl, fun h => absurd h0 h, fun _ => rfl⟩

/-- Settles O19: the three branches of `PutBit`. -/
theorem wbitPutsOneBit : Obligations.WbitPutsOneBit := by
  intro b s hs
  rw [wroteBytes_singleton, ← shiftConcat_eq_append]
  refine ⟨by cases b <;> rfl, fun h => ?_, fun h ha => ?_, fun h ha => ?_⟩
  · exact runCommand_done hs (putBit_pending b h)
  · exact runCommand_done hs (putBit_completes b h ha)
  · exact runCommand_raised hs (putBit_rejected b h ha)

/-- Settles O21: nothing pending, or one byte that the host accepts or rejects. -/
theorem wflushEmitsThePendingByte : Obligations.WflushEmitsThePendingByte := by
  refine ⟨rfl, fun s hs => ⟨fun h => ?_, fun h ha => ?_, fun h ha => ?_⟩⟩
  · exact runCommand_done hs (bodyWflush_empty h)
  · rw [wroteBytes_singleton]
    exact runCommand_done hs (flush_accepted h ha)
  · exact runCommand_raised hs (flush_rejected h ha)

/-- Settles O22: the four ways of `GetBit`; where it raises, `RB` is not reached. -/
theorem rbitDeliversTheNextBit : Obligations.RbitDeliversTheNextBit := by
  refine ⟨rfl, fun s hs => ⟨fun h => ?_, fun v h ha => ?_, fun h ha => ?_, fun h ha => ?_⟩⟩
  · exact runCommand_done hs (by rw [bodyRbit, getBit_buffered h, andThen_done])
  · exact runCommand_done hs (by rw [bodyRbit, getBit_refilled h ha, andThen_done, tookBytes_one ha])
  · exact runCommand_raised hs (by rw [bodyRbit, getBit_eof h ha, andThen_raise]; rfl)
  · exact runCommand_raised hs (by rw [bodyRbit, getBit_err h ha, andThen_raise])

end Sys2Proof.Proofs

namespace Sys2Proof.Machine

/-! ### The eight bytes of a count (20_memory.md R68) -/

theorem getLsbD_fieldByte (v : Count) (k i : Nat) :
    (fieldByte v k).getLsbD i = (decide (i < 8) && v.getLsbD (8 * k + i)) := BitVec.getLsbD_extractLsb' ..

/-- A count is fixed by its eight bytes. -/
theorem eq_of_fieldByte_eq {v w : Count} (h : ∀ k < 8, fieldByte v k = fieldByte w k) : v = w := by
  refine BitVec.eq_of_getLsbD_eq fun i hi => ?_
  have hbit := congrArg (fun b : Byte => b.getLsbD (i % 8)) (h (i / 8) (by omega))
  simpa only [getLsbD_fieldByte, Nat.mod_lt i (show 0 < 8 by decide), decide_true, Bool.true_and,
    Nat.div_add_mod] using hbit

/-- `t[8*k+7 : 8*k] <- v`, bit by bit. -/
theorem getLsbD_setFieldByte (t : Count) (k : Nat) (v : Byte) {i : Nat} (hi : i < 64) :
    (setFieldByte t k v).getLsbD i =
      if 8 * k ≤ i ∧ i < 8 * k + 8 then v.getLsbD (i - 8 * k) else t.getLsbD i := by
  have hmask (m : Nat) : (0xFF : Count).getLsbD m = decide (m < 8) := by
    rw [show (0xFF : Count) = (BitVec.allOnes 8).setWidth 64 from rfl, BitVec.getLsbD_setWidth,
      BitVec.getLsbD_allOnes, ← Bool.decide_and]
    exact decide_eq_decide.mpr (by omega)
  simp only [setFieldByte, BitVec.getLsbD_or, BitVec.getLsbD_and, BitVec.getLsbD_not, BitVec.getLsbD_shiftLeft,
    BitVec.getLsbD_setWidth, hmask]
  by_cases hlow : 8 * k ≤ i
  · by_cases hhigh : i < 8 * k + 8
    · simp [hi, hlow, hhigh, show ¬ i < 8 * k by omega, show i - 8 * k < 8 by omega, show i - 8 * k < 64 by omega]
    · simp [hi, hhigh, show ¬ i - 8 * k < 8 by omega, BitVec.getLsbD_of_ge v (i - 8 * k) (by omega)]
  · simp [hi, hlow, show i < 8 * k by omega]

theorem fieldByte_setFieldByte_same (t : Count) {k : Nat} (v : Byte) (hk : k < 8) :
    fieldByte (setFieldByte t k v) k = v := by
  refine BitVec.eq_of_getLsbD_eq fun i hi => ?_
  rw [getLsbD_fieldByte, getLsbD_setFieldByte t k v (by omega), if_pos (by omega)]
  simp [hi]

theorem fieldByte_setFieldByte_other (t : Count) {j k : Nat} (v : Byte) (hj : j < 8) (h : j ≠ k) :
    fieldByte (setFieldByte t k v) j = fieldByte t j := by
  refine BitVec.eq_of_getLsbD_eq fun i hi => ?_
  rw [getLsbD_fieldByte, getLsbD_fieldByte, getLsbD_setFieldByte t k v (by omega), if_neg (by omega)]

theorem fieldByte_fieldOf_below (bytes : List Byte) (t : Count) {j k : Nat} (hj : j < 8) (h : j < k) :
    fieldByte (fieldOf k t bytes) j = fieldByte t j := by
  induction bytes generalizing k t with
  | nil => rfl
  | cons v vs ih => rw [fieldOf, ih _ (by omega), fieldByte_setFieldByte_other t v hj (by omega)]

/-- The bytes a field was assembled from are its bytes. -/
theorem fieldByte_fieldOf (bytes : List Byte) (t : Count) {i k : Nat} {v : Byte} (hk : k + i < 8)
    (h : bytes[i]? = some v) : fieldByte (fieldOf k t bytes) (k + i) = v := by
  induction bytes generalizing i k t with
  | nil => cases h
  | cons b bs ih =>
    cases i with
    | zero =>
      obtain rfl := Option.some.inj h
      exact (fieldByte_fieldOf_below bs _ hk (Nat.lt_succ_self k)).trans (fieldByte_setFieldByte_same t b hk)
    | succ i =>
      rw [fieldOf, show k + (i + 1) = k + 1 + i by omega]
      exact ih _ (by omega) h

/-! ### Commands of the frequency accumulator (41_frequency.md R131 to R134) -/

open Sys2Proof.Safety

variable {s t u : State}

/-- `require FL = 0` with the table not locked (60_exceptions.md R225). -/
theorem requireFlag_unlocked {k : State → Body Unit} (h : s.fl = false) : requireFlag (!s.fl) k s = k s :=
  requireFlag_of (by rw [h]; rfl)

/-- A command that leaves the machine running has raised nothing. -/
theorem runCommand_eq_next_running {i : Instr} {body : State → Body Unit} (hs : Running s)
    (h : runCommand i body s = .next t) (ht : Running t) : body s = .done () t := by
  obtain ⟨hns, -⟩ | ⟨-, hb⟩ | ⟨-, e, u, -, rfl⟩ := runCommand_eq_next h
  · exact absurd hs hns
  · exact hb
  · exact absurd ht (not_running_faultEntry e _)

/-- The word of `FADD s` (30_encoding.md R90). -/
theorem encodeWord_fadd (sym : Symbol) : encodeWord (.fadd sym) = 0x3000 + sym.setWidth 16 := by
  have hop : encodeWord (.fadd sym) = 0x30#8 ++ sym := rfl
  have harg : sym.toNat < 2 ^ 8 := sym.isLt
  refine BitVec.eq_of_toNat_eq ?_
  rw [hop, BitVec.toNat_append, ← Nat.shiftLeft_add_eq_or_of_lt harg, BitVec.toNat_add, BitVec.toNat_setWidth]
  change (0x30 <<< 8) + sym.toNat = (0x3000 + sym.toNat % 2 ^ 16) % 2 ^ 16
  omega

/-! ### Where the table block holds a count (20_memory.md R67) -/

/-- The bytes at the offsets `8*sym` to `8*sym + 7` are those of `FREQ[sym]`. -/
def HoldsEntry (bytes : List Byte) (s : State) (sym : Symbol) : Prop :=
  ∀ k, k < 8 → bytes[8 * sym.toNat + k]? = some (fieldByte (s.freqAt sym) k)

/-- Bytes hold at most one count for a symbol. -/
theorem HoldsEntry.freqAt_eq {bytes more : List Byte} {sym : Symbol} (hs : HoldsEntry bytes s sym)
    (ht : HoldsEntry (bytes ++ more) t sym) : t.freqAt sym = s.freqAt sym := by
  refine eq_of_fieldByte_eq fun k hk => ?_
  have hlt := (List.getElem?_eq_some_iff.mp (hs k hk)).1
  have hbyte := ht k hk
  rw [List.getElem?_append_left hlt, hs k hk] at hbyte
  exact (Option.some.inj hbyte).symm

theorem freq_eq_of_freqAt_eq (h : ∀ sym, t.freqAt sym = s.freqAt sym) : t.freq = s.freq := by
  refine Vector.ext fun i hi => ?_
  have hsym := h (BitVec.ofNat 8 i)
  have hi' : (BitVec.ofNat 8 i).toNat = i := Nat.mod_eq_of_lt hi
  simpa only [State.freqAt, hi'] using hsym

theorem length_fieldBytes (v : Count) : (fieldBytes v).length = 8 := by simp [fieldBytes]

theorem length_flatMap_fieldBytes (l : List Count) : (l.flatMap fieldBytes).length = 8 * l.length := by
  induction l with
  | nil => rfl
  | cons v vs ih => rw [List.flatMap_cons, List.length_append, length_fieldBytes, ih, List.length_cons]; omega

theorem length_tableBytes (freq : FreqRam) : (tableBytes freq).length = 2048 :=
  (length_flatMap_fieldBytes _).trans (congrArg (8 * ·) Vector.length_toList)

theorem getElem?_flatMap_fieldBytes (l : List Count) (i : Nat) {k : Nat} (hk : k < 8) :
    (l.flatMap fieldBytes)[8 * i + k]? = l[i]?.map (fieldByte · k) := by
  induction l generalizing i with
  | nil => rfl
  | cons v vs ih =>
    rw [List.flatMap_cons]
    cases i with
    | zero =>
      rw [List.getElem?_append_left (by rw [length_fieldBytes]; omega)]
      simp [fieldBytes, hk]
    | succ i =>
      rw [List.getElem?_append_right (by rw [length_fieldBytes]; omega), length_fieldBytes,
        show 8 * (i + 1) + k - 8 = 8 * i + k by omega, ih, List.getElem?_cons_succ]

theorem tableBytes_holdsEntry (s : State) (sym : Symbol) : HoldsEntry (tableBytes s.freq) s sym := by
  intro k hk
  have hsym : s.freq.toList[sym.toNat]? = some (s.freqAt sym) := by
    rw [Vector.getElem?_toList]
    exact Vector.getElem?_eq_getElem sym.isLt
  rw [tableBytes, getElem?_flatMap_fieldBytes _ _ hk, hsym, Option.map_some]

/-! ### The counts that `FLOAD` puts into the table (41_frequency.md R134) -/

theorem getElem_loadInto_of_notMem {l : List Symbol} {x : Symbol} (h : x ∉ l) (bytes : List Byte) (f : FreqRam) :
    (loadInto l bytes f)[x.toNat]'x.isLt = f[x.toNat]'x.isLt := by
  induction l generalizing bytes f with
  | nil => rfl
  | cons sym rest ih =>
    obtain ⟨hne, hrest⟩ := not_or.mp (mt List.mem_cons.mpr h)
    rw [loadInto, ih hrest, Vector.getElem_set_ne]
    exact fun hn => hne (BitVec.eq_of_toNat_eq hn.symm)

theorem getElem_loadInto {l : List Symbol} (hl : l.Nodup) {i : Nat} {x : Symbol} (h : l[i]? = some x)
    (bytes : List Byte) (f : FreqRam) :
    (loadInto l bytes f)[x.toNat]'x.isLt = fieldOf 0 0 ((bytes.drop (8 * i)).take 8) := by
  induction l generalizing i bytes f with
  | nil => cases h
  | cons sym rest ih =>
    obtain ⟨hsym, hrest⟩ := List.nodup_cons.mp hl
    rw [loadInto]
    cases i with
    | zero =>
      cases h
      rw [getElem_loadInto_of_notMem hsym, Vector.getElem_set_self]
      rfl
    | succ i =>
      rw [ih hrest h, List.drop_drop, show 8 + 8 * i = 8 * (i + 1) by omega]

theorem getElem?_take_allSymbols {n : Nat} {sym : Symbol} (h : sym.toNat < n) :
    (allSymbols.take n)[sym.toNat]? = some sym := by
  have hlt : sym.toNat < Config.nsym := sym.isLt
  rw [List.getElem?_take_of_lt h, allSymbols, List.getElem?_map, List.getElem?_range hlt]
  simp

theorem notMem_take_allSymbols {n : Nat} {sym : Symbol} (h : n ≤ sym.toNat) : sym ∉ allSymbols.take n := by
  rw [allSymbols, ← List.map_take, List.take_range]
  intro hmem
  obtain ⟨m, hm, rfl⟩ := List.mem_map.mp hmem
  have hle : (BitVec.ofNat 8 m).toNat ≤ m := Nat.mod_le _ _
  have := List.mem_range.mp hm
  omega

/-- A table loaded for the first `n` symbols holds for each of them the eight bytes at its place. -/
theorem holdsEntry_of_loaded {bytes : List Byte} {n : Nat} {f : FreqRam}
    (ht : t.freq = loadInto (allSymbols.take n) bytes f) {sym : Symbol} (hn : sym.toNat < n)
    (hlen : 8 * sym.toNat + 8 ≤ bytes.length) : HoldsEntry bytes t sym := by
  intro k hk
  have hentry : t.freqAt sym = fieldOf 0 0 ((bytes.drop (8 * sym.toNat)).take 8) := by
    rw [State.freqAt, ← getElem_loadInto (nodup_allSymbols.take) (getElem?_take_allSymbols hn) bytes f]
    simp only [ht]
  have hbyte : bytes[8 * sym.toNat + k]? = some bytes[8 * sym.toNat + k] := List.getElem?_eq_getElem (by omega)
  have hfield := fieldByte_fieldOf ((bytes.drop (8 * sym.toNat)).take 8) 0 (i := k) (k := 0) (by omega)
    (by rw [List.getElem?_take_of_lt hk, List.getElem?_drop, hbyte])
  rw [hbyte, hentry, ← hfield, Nat.zero_add]

theorem freqAt_of_notLoaded {bytes : List Byte} {n : Nat}
    (ht : t.freq = loadInto (allSymbols.take n) bytes s.freq) {sym : Symbol} (hn : n ≤ sym.toNat) :
    t.freqAt sym = s.freqAt sym := by
  have hkeep := getElem_loadInto_of_notMem (notMem_take_allSymbols hn) bytes s.freq
  simpa only [State.freqAt, ht] using hkeep

theorem take_allSymbols : allSymbols.take 256 = allSymbols :=
  List.take_of_length_le length_allSymbols.le

/-! ### The reading loop at the end of the input (41_frequency.md R134, 60_exceptions.md R223) -/

theorem length_restOfInput (s : State) : (restOfInput s).length = s.io.remaining := List.length_drop

/-- Bytes taken are the first of those that were left. -/
theorem restOfInput_eq_drop {n : Nat} (h : t.io = tookBytes s.io n) : restOfInput t = (restOfInput s).drop n := by
  rw [restOfInput, h]
  exact restOfInput_tookBytes n

theorem inAnswer_eq_eof (hr : ReadsSucceed s) (h : restOfInput s = []) : s.io.inAnswer = .eof :=
  inAnswer_of_end s.io (readHead_of_readsSucceed hr) (List.drop_eq_nil_iff.mp h)

theorem sawEof_eq_afterRead (io : Streams) : sawEof io = io.afterRead .eof := rfl

theorem inFieldFrom_short (n k : Nat) (c : Count) (hr : ReadsSucceed s) (h : (restOfInput s).length < n) :
    inFieldFrom n k c s = .raise .eHeader { s with io := sawEof (tookBytes s.io (restOfInput s).length) } := by
  induction n generalizing s k c with
  | zero => cases h
  | succ n ih =>
    cases hrest : restOfInput s with
    | nil =>
      rw [inFieldFrom, inByte_eof .eHeader (inAnswer_eq_eof hr hrest), andThen_raise, List.length_nil,
        tookBytes_zero, sawEof_eq_afterRead]
    | cons v vs =>
      have hd : restOfInput { s with io := tookBytes s.io 1 } = vs := by
        rw [restOfInput_tookBytes, hrest, List.drop_one, List.tail_cons]
      rw [hrest, List.length_cons] at h
      rw [inFieldFrom, inByte_took .eHeader hr hrest, andThen_done, ih _ _ (readsSucceed_tookBytes 1 hr)
        (by rw [hd]; omega)]
      rw [hd, tookBytes_add, Nat.add_comm 1, List.length_cons]

theorem loadTable_short (l : List Symbol) (hr : ReadsSucceed s) (h : (restOfInput s).length < 8 * l.length) :
    loadTable l s = .raise .eHeader { s with
      freq := loadInto (l.take ((restOfInput s).length / 8)) (restOfInput s) s.freq
      io := sawEof (tookBytes s.io (restOfInput s).length) } := by
  induction l generalizing s with
  | nil => cases h
  | cons sym rest ih =>
    rw [List.length_cons] at h
    rw [loadTable]
    by_cases h8 : (restOfInput s).length < 8
    · rw [inField, inFieldFrom_short _ _ _ hr h8, andThen_raise, Nat.div_eq_of_lt h8, List.take_zero, loadInto]
    · rw [inField_took hr (by omega), andThen_done]
      obtain ⟨a, ha⟩ : ∃ a, a = ({ s with io := tookBytes s.io 8 } : State).setFreq sym
        (fieldOf 0 0 ((restOfInput s).take 8)) := ⟨_, rfl⟩
      have hio : a.io = tookBytes s.io 8 := by rw [ha]; rfl
      have hra : ReadsSucceed a := by rw [ReadsSucceed, hio]; exact readsSucceed_tookBytes 8 hr
      have hrest : restOfInput a = (restOfInput s).drop 8 := restOfInput_eq_drop hio
      rw [← ha, ih hra (by rw [hrest, List.length_drop]; omega), hrest, List.length_drop, hio, tookBytes_add,
        show (restOfInput s).length / 8 = ((restOfInput s).length - 8) / 8 + 1 by omega, List.take_succ_cons,
        loadInto, show 8 + ((restOfInput s).length - 8) = (restOfInput s).length by omega, ha]
      rfl

/-! ### The writing loop up to the first byte that is rejected (41_frequency.md R133, 20_memory.md R64) -/

theorem outBytes_rejected {bytes : List Byte} {j : Nat} {v : Byte} (hj : s.io.writeDraws[j]? = some true)
    (hbelow : ∀ k < j, s.io.writeDraws[k]? = some false) (hv : bytes[j]? = some v) :
    outBytes bytes s = .raise .eIO { s with io := (wroteBytes s.io (bytes.take j)).afterWrite v false } := by
  induction bytes generalizing s j with
  | nil => cases hv
  | cons b bs ih =>
    rw [outBytes]
    cases j with
    | zero =>
      cases hv
      have ha : s.io.outAccepts = false := by rw [Streams.outAccepts, List.head?_eq_getElem?, hj]; rfl
      rw [outByte_rejected _ ha, andThen_raise, List.take_zero, wroteBytes_nil]
    | succ j =>
      have ha : s.io.outAccepts = true := by
        rw [Streams.outAccepts, List.head?_eq_getElem?, hbelow 0 (Nat.succ_pos j)]; rfl
      have htail (k : Nat) : (s.io.afterWrite b true).writeDraws[k]? = s.io.writeDraws[k + 1]? := by simp
      rw [outByte_accepted _ ha, andThen_done, ih ((htail j).trans hj)
        (fun k hk => (htail k).trans (hbelow (k + 1) (by omega))) hv, wroteBytes_cons, List.take_succ_cons]

/-! ### What a loop that raised nothing has done -/

theorem inByte_eq_done {e : ErrCode} {v : Byte} (h : inByte e s = .done v u) :
    s.io.inAnswer = .byte v ∧ u = { s with io := tookBytes s.io 1 } := by
  cases ha : s.io.inAnswer with
  | byte b =>
    rw [inByte_byte e ha] at h
    cases h
    exact ⟨rfl, by rw [tookBytes_one ha]⟩
  | eof => rw [inByte_eof e ha] at h; cases h
  | err => rw [inByte_err e ha] at h; cases h

theorem restOfInput_of_byte {v : Byte} (h : s.io.inAnswer = .byte v) :
    restOfInput s = v :: restOfInput { s with io := tookBytes s.io 1 } := by
  obtain ⟨hlt, hv⟩ := inPos_lt_of_byte s.io h
  rw [restOfInput_tookBytes, restOfInput, List.drop_drop, List.drop_eq_getElem_cons hlt,
    (List.getElem?_eq_some_iff.mp hv).2]

theorem inFieldFrom_eq_done {n k : Nat} {c x : Count} (h : inFieldFrom n k c s = .done x u) :
    x = fieldOf k c ((restOfInput s).take n) ∧ u = { s with io := tookBytes s.io n } := by
  induction n generalizing s k c with
  | zero => cases h; exact ⟨rfl, by rw [tookBytes_zero]⟩
  | succ n ih =>
    obtain ⟨v, w, hv, hrest⟩ := andThen_eq_done.mp h
    obtain ⟨ha, rfl⟩ := inByte_eq_done hv
    obtain ⟨hx, rfl⟩ := ih hrest
    refine ⟨?_, by rw [tookBytes_add, Nat.add_comm 1]⟩
    rw [hx, restOfInput_of_byte ha, List.take_succ_cons, fieldOf]

theorem inField_eq_done {x : Count} (h : inField s = .done x u) :
    x = fieldOf 0 0 ((restOfInput s).take 8) ∧ u = { s with io := tookBytes s.io 8 } := inFieldFrom_eq_done h

theorem loadTable_eq_done {l : List Symbol} (h : loadTable l s = .done () u) :
    u.freq = loadInto l (restOfInput s) s.freq := by
  induction l generalizing s with
  | nil => cases h; rfl
  | cons sym rest ih =>
    obtain ⟨x, w, hx, hrest⟩ := andThen_eq_done.mp h
    obtain ⟨rfl, rfl⟩ := inField_eq_done hx
    rw [ih hrest, restOfInput_eq_drop (s := s) (n := 8) rfl]
    rfl

theorem outByte_eq_done {v : Byte} (h : outByte v s = .done () u) :
    u = { s with io := s.io.afterWrite v true } := by
  cases ha : s.io.outAccepts with
  | true => rw [outByte_accepted v ha] at h; cases h; rfl
  | false => rw [outByte_rejected v ha] at h; cases h

theorem outBytes_eq_done {bytes : List Byte} (h : outBytes bytes s = .done () u) :
    u = { s with io := wroteBytes s.io bytes } := by
  induction bytes generalizing s with
  | nil => cases h; rw [wroteBytes_nil]
  | cons v vs ih =>
    obtain ⟨_, w, hv, hvs⟩ := andThen_eq_done.mp h
    obtain rfl := outByte_eq_done hv
    rw [ih hvs, wroteBytes_cons]

/-! ### Counting (41_frequency.md R130, R132) -/

/-- Every occurrence in `xs` has been counted, in its entry and in `SYMCNT`. -/
def Counted (xs : List Byte) (s t : State) : Prop :=
  t.symcnt = s.symcnt + BitVec.ofNat 64 xs.length ∧
  ∀ x, t.freqAt x = s.freqAt x + BitVec.ofNat 64 (xs.count x)

/-- No count passes `2^64 - 1` when the occurrences in `xs` are counted. -/
def Countable (xs : List Byte) (s : State) : Prop :=
  s.symcnt.toNat + xs.length < 2 ^ 64 ∧ ∀ x, (s.freqAt x).toNat + xs.count x < 2 ^ 64

theorem Counted.nil (h : t.symcnt = s.symcnt) (hf : t.freq = s.freq) : Counted [] s t :=
  ⟨by simp [h], fun x => by simp [State.freqAt, hf]⟩

theorem Counted.append {xs ys : List Byte} (h₁ : Counted xs s t) (h₂ : Counted ys t u) : Counted (xs ++ ys) s u := by
  obtain ⟨hc₁, hf₁⟩ := h₁
  obtain ⟨hc₂, hf₂⟩ := h₂
  refine ⟨?_, fun x => ?_⟩
  · rw [hc₂, hc₁, List.length_append, BitVec.ofNat_add, BitVec.add_assoc]
  · rw [hf₂, hf₁, List.count_append, BitVec.ofNat_add, BitVec.add_assoc]

theorem Countable.left {xs ys : List Byte} (h : Countable (xs ++ ys) s) : Countable xs s := by
  obtain ⟨hc, hf⟩ := h
  rw [List.length_append] at hc
  refine ⟨by omega, fun x => ?_⟩
  have hx := hf x
  rw [List.count_append] at hx
  omega

theorem Countable.of_append {xs ys : List Byte} (h : Countable (xs ++ ys) s) (ht : Counted xs s t) :
    Countable ys t := by
  obtain ⟨hc, hf⟩ := h
  obtain ⟨hc', hf'⟩ := ht
  refine ⟨?_, fun x => ?_⟩
  · rw [List.length_append] at hc
    rw [hc', BitVec.toNat_add, BitVec.toNat_ofNat]
    omega
  · have hx := hf x
    rw [List.count_append] at hx
    rw [hf', BitVec.toNat_add, BitVec.toNat_ofNat]
    omega

theorem ne_countMax {v : Count} {n : Nat} (h : v.toNat + (n + 1) < 2 ^ 64) : v ≠ countMax := by
  rintro rfl
  rw [countMax, BitVec.toNat_allOnes] at h
  omega

/-- One occurrence more (41_frequency.md R130). -/
def countOne (sym : Symbol) (s : State) : State :=
  { s.setFreq sym (s.freqAt sym + 1) with symcnt := s.symcnt + 1 }

theorem freqAt_countOne_same (sym : Symbol) (s : State) : (countOne sym s).freqAt sym = s.freqAt sym + 1 :=
  freqAt_setFreq_same _ _ _

theorem freqAt_countOne_other {x sym : Symbol} (h : x ≠ sym) (s : State) :
    (countOne sym s).freqAt x = s.freqAt x :=
  freqAt_setFreq_other _ _ _ h

theorem counted_countOne (sym : Symbol) (s : State) : Counted [sym] s (countOne sym s) := by
  refine ⟨rfl, fun x => ?_⟩
  by_cases h : x = sym
  · rw [h, freqAt_countOne_same, List.count_singleton_self]
    rfl
  · rw [freqAt_countOne_other h, List.count_singleton, beq_false_of_ne (Ne.symm h)]
    exact (BitVec.add_zero _).symm

/-- `CountSym` below the largest count. -/
theorem countSym_done {sym : Symbol} (hf : s.freqAt sym ≠ countMax) (hc : s.symcnt ≠ countMax) :
    countSym sym s = .done () (countOne sym s) :=
  if_neg (not_or.mpr ⟨hf, hc⟩)

/-- `CountSym` at the largest count. -/
theorem countSym_overflow {sym : Symbol} (h : s.freqAt sym = countMax ∨ s.symcnt = countMax) :
    countSym sym s = .raise .eOvf s :=
  if_pos h

theorem countSym_of_countable {sym : Symbol} (h : Countable [sym] s) :
    countSym sym s = .done () (countOne sym s) := by
  obtain ⟨hc, hf⟩ := h
  have hsym := hf sym
  rw [List.count_singleton_self] at hsym
  exact countSym_done (ne_countMax hsym) (ne_countMax hc)

/-- One round of the loop of `FADDS`. -/
theorem countRest_byte (n : Nat) {v : Byte} (ha : s.io.inAnswer = .byte v) (h : Countable [v] s) :
    countRest (n + 1) s = countRest n (countOne v { s with io := tookBytes s.io 1 }) := by
  have hsym : countSym v { s with io := tookBytes s.io 1 } = .done () (countOne v { s with io := tookBytes s.io 1 }) :=
    countSym_of_countable h
  rw [countRest, inByteOrStop_byte ha, ← tookBytes_one ha, andThen_done]
  exact congrArg (Body.andThen · fun _ s => countRest n s) hsym

/-- The loop of `FADDS` counts the rest of the input and sees its end. -/
theorem countRest_counts {n : Nat} {xs : List Byte} (hx : restOfInput s = xs) (hn : xs.length ≤ n)
    (hr : ReadsSucceed s) (hc : Countable xs s) :
    ∃ t, countRest (n + 1) s = .done () t ∧ t.io = sawEof (tookBytes s.io xs.length) ∧ Counted xs s t := by
  induction xs generalizing s n with
  | nil =>
    rw [countRest, inByteOrStop_eof (inAnswer_eq_eof hr hx), andThen_done]
    exact ⟨_, rfl, by rw [List.length_nil, tookBytes_zero, sawEof_eq_afterRead], .nil rfl rfl⟩
  | cons v vs ih =>
    obtain ⟨n, rfl⟩ := Nat.exists_eq_succ_of_ne_zero (Nat.ne_zero_of_lt hn)
    have ha : s.io.inAnswer = .byte v :=
      inAnswer_of_byte s.io (readHead_of_readsSucceed hr) (restOfInput_cons hx).1
    obtain ⟨a, hcount, hio, hone⟩ : ∃ a, countRest (n + 1 + 1) s = countRest (n + 1) a ∧ a.io = tookBytes s.io 1 ∧
        Counted [v] s a :=
      ⟨_, countRest_byte (n + 1) ha hc.left, rfl, counted_countOne v { s with io := tookBytes s.io 1 }⟩
    have hvs : restOfInput a = vs := by rw [restOfInput_eq_drop hio, hx, List.drop_one, List.tail_cons]
    have hra : ReadsSucceed a := by rw [ReadsSucceed, hio]; exact readsSucceed_tookBytes 1 hr
    obtain ⟨t, ht, hio', hrest⟩ := ih hvs (Nat.le_of_succ_le_succ hn) hra (hc.of_append hone)
    refine ⟨t, hcount.trans ht, ?_, hone.append hrest⟩
    rw [hio', hio, tookBytes_add, Nat.add_comm 1, List.length_cons]

end Sys2Proof.Machine

namespace Sys2Proof.Proofs

open Sys2Proof.Machine Sys2Proof.Safety

/-- Settles O29: the bytes hold every count of the one table, and every count of the other table is read back
from them. -/
theorem floadInvertsFsave : Obligations.FloadInvertsFsave := by
  intro s t u v bytes more hs hsave ht hout hu hfl hrest hload hv
  obtain rfl : bytes = tableBytes s.freq := by
    obtain rfl := outBytes_eq_done (runCommand_eq_next_running hs hsave ht)
    exact (List.append_cancel_left hout).symm
  have hbody : loadTable allSymbols u = .done () v :=
    (requireFlag_unlocked hfl).symm.trans (runCommand_eq_next_running hu hload hv)
  have hfreq := loadTable_eq_done hbody
  rw [← take_allSymbols, hrest] at hfreq
  refine ⟨length_tableBytes _, freq_eq_of_freqAt_eq fun sym => ?_⟩
  refine (tableBytes_holdsEntry s sym).freqAt_eq (holdsEntry_of_loaded hfreq sym.isLt ?_)
  have hsym : sym.toNat < 256 := sym.isLt
  rw [List.length_append, length_tableBytes]
  omega

/-- Settles O25: each round counts the byte it took, and the bytes left bound the rounds. -/
theorem faddsCountsTheRestOfTheInput : Obligations.FaddsCountsTheRestOfTheInput := by
  intro s hs hfl hr hfreq hsymcnt
  obtain ⟨t, ht, hio, hcnt, hcounts⟩ := countRest_counts rfl (length_restOfInput s).le hr ⟨hsymcnt, hfreq⟩
  have hbody : bodyFadds s = .done () t := (requireFlag_unlocked hfl).trans ht
  refine ⟨t, runCommand_done hs hbody, ?_, hcounts⟩
  rw [← hcnt, ← hio]
  exact eq_of_countsErased ((bodyFadds_keeps s).of_done hbody)

/-- Settles O26: the block is the table's, and the bytes go out up to the first that is rejected. -/
theorem fsaveWritesTheTable : Obligations.FsaveWritesTheTable := by
  refine ⟨rfl, fun s hs => ⟨tableBytes s.freq, length_tableBytes _, tableBytes_holdsEntry s, fun hw => ?_, ?_⟩⟩
  · exact runCommand_done hs (bodyFsave_done hw)
  · intro j v hj hbelow hv
    exact runCommand_raised hs (outBytes_rejected hj hbelow hv)

/-- Settles O27: all 256 counts are loaded, each from the bytes at its place. -/
theorem floadReadsTheTable : Obligations.FloadReadsTheTable := by
  intro s hs hfl hr hlen
  obtain ⟨f, hf⟩ : ∃ f, f = loadInto (allSymbols.take 256) (restOfInput s) s.freq := ⟨_, rfl⟩
  have hbody : bodyFload s = .done () { s with freq := f, io := tookBytes s.io 2048 } := by
    rw [bodyFload_took hr hfl hlen, hf, take_allSymbols]
  refine ⟨_, runCommand_done hs hbody, rfl, fun sym => ?_⟩
  have hfit : 8 * sym.toNat + 8 ≤ (restOfInput s).length := by have := sym.isLt; omega
  exact holdsEntry_of_loaded hf sym.isLt hfit

/-- Settles O28: with `n` bytes left the first `n / 8` counts are loaded, and the next one raises. -/
theorem floadOnShortInputIsEHeader : Obligations.FloadOnShortInputIsEHeader := by
  intro s hs hfl hr hlen
  have hload := loadTable_short allSymbols hr (by rw [length_allSymbols]; exact hlen)
  refine ⟨_, runCommand_raised hs ((requireFlag_unlocked hfl).trans hload), fun sym => ⟨fun h => ?_, fun h => ?_⟩⟩
  · exact freqAt_of_notLoaded rfl (by omega)
  · exact holdsEntry_of_loaded rfl (by omega) h

/-- Settles O24: the three branches of `FADD`, and its word. -/
theorem faddCountsOneOccurrence : Obligations.FaddCountsOneOccurrence := by
  intro s sym hs
  refine ⟨encodeWord_fadd sym, fun hfl => ?_, fun hfl hf hc => ?_, fun hfl h => ?_⟩
  · exact runCommand_raised hs (by rw [bodyFadd, hfl]; rfl)
  · have hbody : bodyFadd sym s = .done () (countOne sym s) :=
      (requireFlag_unlocked hfl).trans (countSym_done hf hc)
    exact ⟨_, runCommand_done hs hbody, rfl, freqAt_countOne_same sym s, fun x hx => freqAt_countOne_other hx s⟩
  · exact runCommand_raised hs ((requireFlag_unlocked hfl).trans (countSym_overflow h))

end Sys2Proof.Proofs

namespace Sys2Proof.Machine

/-! ### The array is a binary min-heap (42_tree.md R150 to R153)

An entry is compared by one number, and a position that is not live counts as greater than every entry, so the heap
property is an inequality at every position. -/

open Sys2Proof.Safety

variable {h h' : List HeapEntry} {x y top : HeapEntry} {i j k n : Nat}

/-- The number that orders entries: the weight above the node index (42_tree.md R150). -/
def HeapEntry.key (x : HeapEntry) : Nat := x.w.toNat * 512 + x.n.toNat

theorem less_iff_key : x.less y = true ↔ x.key < y.key := by
  have hx := x.n.isLt
  have hy := y.n.isLt
  simp only [HeapEntry.less, HeapEntry.key, Bool.or_eq_true, Bool.and_eq_true, beq_iff_eq, BitVec.ult,
    decide_eq_true_eq, ← BitVec.toNat_inj]
  omega

theorem less_eq_false_iff_key : x.less y = false ↔ y.key ≤ x.key := by
  rw [← Bool.not_eq_true, less_iff_key, Nat.not_lt]

theorem weight_le_of_key_le (hk : x.key ≤ y.key) : x.w.toNat ≤ y.w.toNat := by
  have hx := x.n.isLt
  have hy := y.n.isLt
  simp only [HeapEntry.key] at hk
  omega

theorem key_injective : Function.Injective HeapEntry.key := by
  intro x y hk
  have hx := x.n.isLt
  have hy := y.n.isLt
  simp only [HeapEntry.key] at hk
  have hw : x.w = y.w := BitVec.eq_of_toNat_eq (by omega)
  have hn : x.n = y.n := BitVec.eq_of_toNat_eq (by omega)
  cases x; cases y; simp_all

/-- Greater than the key of every entry. -/
def keyBound : Nat := 2 ^ 81

theorem HeapEntry.key_lt_bound (x : HeapEntry) : x.key < keyBound := by
  have hw := x.w.isLt
  have hn := x.n.isLt
  simp only [HeapEntry.key, keyBound]
  omega

/-- The key at a position, and the bound where none is live. -/
def keyAt (h : List HeapEntry) (i : Nat) : Nat := (h[i]?.map HeapEntry.key).getD keyBound

theorem keyAt_of_getElem? (hx : h[i]? = some x) : keyAt h i = x.key := by simp [keyAt, hx]

theorem keyAt_of_length_le (hi : h.length ≤ i) : keyAt h i = keyBound := by
  simp [keyAt, List.getElem?_eq_none hi]

theorem keyAt_le_bound : keyAt h i ≤ keyBound := by
  by_cases hi : i < h.length
  · rw [keyAt_of_getElem? (List.getElem?_eq_getElem hi)]
    exact (HeapEntry.key_lt_bound _).le
  · rw [keyAt_of_length_le (by omega)]

theorem keyAt_congr (hx : h[i]? = h'[j]?) : keyAt h i = keyAt h' j := by rw [keyAt, keyAt, hx]

theorem heapOrdered_iff_keyAt : HeapOrdered h ↔ ∀ i, 0 < i → keyAt h ((i - 1) / 2) ≤ keyAt h i := by
  constructor
  · intro ho i hi
    by_cases hlt : i < h.length
    · have hx := List.getElem?_eq_getElem hlt
      have hy := List.getElem?_eq_getElem (show (i - 1) / 2 < h.length by omega)
      rw [keyAt_of_getElem? hx, keyAt_of_getElem? hy]
      exact less_eq_false_iff_key.mp (ho i _ _ hi hx hy)
    · rw [keyAt_of_length_le (i := i) (by omega)]
      exact keyAt_le_bound
  · intro hk i x y hi hx hy
    have := hk i hi
    rw [keyAt_of_getElem? hx, keyAt_of_getElem? hy] at this
    exact less_eq_false_iff_key.mpr this

theorem lessAt_iff_keyAt (hj : j < h.length) : lessAt h i j = true ↔ keyAt h i < keyAt h j := by
  have hy := List.getElem?_eq_getElem hj
  rw [keyAt_of_getElem? hy]
  by_cases hi : i < h.length
  · have hx := List.getElem?_eq_getElem hi
    rw [keyAt_of_getElem? hx, lessAt, hx, hy]
    exact less_iff_key
  · rw [keyAt_of_length_le (by omega), lessAt, List.getElem?_eq_none (by omega)]
    have := (h[j]).key_lt_bound
    simp only [Bool.false_eq_true, false_iff]
    omega

theorem keyAt_swapAt (hi : i < h.length) (hj : j < h.length) :
    keyAt (swapAt h i j) k = if k = j then keyAt h i else if k = i then keyAt h j else keyAt h k := by
  have hx := List.getElem?_eq_getElem hi
  have hy := List.getElem?_eq_getElem hj
  have hs : swapAt h i j = (h.set i h[j]).set j h[i] := by rw [swapAt, hx, hy]
  rw [hs]
  split
  · subst k
    rw [keyAt_of_getElem? hx]
    exact keyAt_of_getElem? (List.getElem?_set_self (by simpa using hj))
  · rename_i hkj
    rw [keyAt_congr (List.getElem?_set_ne (Ne.symm hkj))]
    split
    · subst k
      rw [keyAt_of_getElem? hy]
      exact keyAt_of_getElem? (List.getElem?_set_self hi)
    · rename_i hki
      exact keyAt_congr (List.getElem?_set_ne (Ne.symm hki))

/-! `HeapInsert` (42_tree.md R151): while an entry rises, only it may be less than its parent. -/

/-- The heap property everywhere but at `i`, whose children are not below its parent. -/
def OrderedBut (h : List HeapEntry) (i : Nat) : Prop :=
  ∀ k, 0 < k → (k ≠ i → keyAt h ((k - 1) / 2) ≤ keyAt h k) ∧
    ((k - 1) / 2 = i → 0 < i → keyAt h ((i - 1) / 2) ≤ keyAt h k)

theorem OrderedBut.swap_parent (ho : OrderedBut h i) (hi : 0 < i) (hlt : i < h.length)
    (hless : keyAt h i < keyAt h ((i - 1) / 2)) : OrderedBut (swapAt h i ((i - 1) / 2)) ((i - 1) / 2) := by
  have hp : (i - 1) / 2 < h.length := by omega
  intro k hk
  simp only [keyAt_swapAt hlt hp]
  obtain ⟨hk₁, hk₂⟩ := ho k hk
  refine ⟨fun hkp => ?_, fun hkp hpos => ?_⟩
  · rw [if_neg hkp]
    by_cases hki : k = i
    · rw [if_pos hki, hki, if_pos rfl]
      exact hless.le
    · rw [if_neg hki]
      by_cases hqp : (k - 1) / 2 = (i - 1) / 2
      · rw [if_pos hqp]
        exact hless.le.trans (hqp ▸ hk₁ hki)
      · rw [if_neg hqp]
        by_cases hqi : (k - 1) / 2 = i
        · rw [if_pos hqi]
          exact hk₂ hqi hi
        · rw [if_neg hqi]
          exact hk₁ hki
  · have hgp := (ho ((i - 1) / 2) hpos).1 (by omega)
    rw [if_neg (by omega), if_neg (by omega), if_neg (by omega)]
    by_cases hki : k = i
    · rw [if_pos hki]
      exact hgp
    · rw [if_neg hki]
      exact hgp.trans (hkp ▸ hk₁ hki)

theorem siftUp_ordered (hn : i ≤ n) (hlt : i < h.length) (ho : OrderedBut h i) : HeapOrdered (siftUp n h i) := by
  induction n generalizing h i with
  | zero =>
    rw [heapOrdered_iff_keyAt]
    exact fun k hk => (ho k hk).1 (by omega)
  | succ n ih =>
    rw [siftUp]
    dsimp only
    split
    · rw [heapOrdered_iff_keyAt]
      exact fun k hk => (ho k hk).1 (by omega)
    · rename_i hi
      split
      · rename_i hless
        rw [lessAt_iff_keyAt (by omega)] at hless
        exact ih (by omega) (by rw [length_swapAt]; omega) (ho.swap_parent (by omega) hlt hless)
      · rename_i hless
        rw [lessAt_iff_keyAt (by omega), Nat.not_lt] at hless
        rw [heapOrdered_iff_keyAt]
        intro k hk
        by_cases hki : k = i
        · rw [hki]; exact hless
        · exact (ho k hk).1 hki

theorem heapInsert_ordered (ho : HeapOrdered h) (x : HeapEntry) : HeapOrdered (heapInsert h x) := by
  refine siftUp_ordered le_rfl (by simp) fun k hk => ?_
  rw [heapOrdered_iff_keyAt] at ho
  have hlive : ∀ j, j < h.length → keyAt (h ++ [x]) j = keyAt h j := fun j hj =>
    keyAt_congr (List.getElem?_append_left hj)
  have hdead : h.length < k → keyAt (h ++ [x]) k = keyBound := fun hl =>
    keyAt_of_length_le (by rw [List.length_append]; simpa using hl)
  constructor
  · intro hkl
    by_cases hlt : k < h.length
    · rw [hlive k hlt, hlive _ (by omega)]
      exact ho k hk
    · rw [hdead (by omega)]
      exact keyAt_le_bound
  · intro hkp hpos
    rw [hdead (by omega)]
    exact keyAt_le_bound

/-! `HeapExtractMin` (42_tree.md R152): while an entry sinks, only its children may be less than it. -/

/-- The heap property everywhere but below `i`, whose children are not below its parent. -/
def OrderedAbove (h : List HeapEntry) (i : Nat) : Prop :=
  ∀ k, 0 < k → ((k - 1) / 2 ≠ i → keyAt h ((k - 1) / 2) ≤ keyAt h k) ∧
    ((k - 1) / 2 = i → 0 < i → keyAt h ((i - 1) / 2) ≤ keyAt h k)

theorem leastAt_spec (hi : i < h.length) :
    (leastAt h i = i ∨ leastAt h i = 2 * i + 1 ∨ leastAt h i = 2 * i + 2) ∧
    keyAt h (leastAt h i) ≤ keyAt h i ∧ keyAt h (leastAt h i) ≤ keyAt h (2 * i + 1) ∧
    keyAt h (leastAt h i) ≤ keyAt h (2 * i + 2) := by
  have hlive : ∀ {a b}, b < h.length → ¬ lessAt h a b = true → keyAt h b ≤ keyAt h a := fun hb hn =>
    Nat.not_lt.mp fun hlt => hn ((lessAt_iff_keyAt hb).mpr hlt)
  simp only [leastAt]
  by_cases hl : lessAt h (2 * i + 1) i = true
  · have hll := (lessAt_iff_keyAt hi).mp hl
    have hlt : 2 * i + 1 < h.length := by
      by_contra hge
      exact absurd hll (by rw [keyAt_of_length_le (by omega)]; exact keyAt_le_bound.not_gt)
    rw [if_pos hl]
    split
    · rename_i hr
      have := (lessAt_iff_keyAt hlt).mp hr
      omega
    · rename_i hr
      have := hlive hlt hr
      omega
  · have hll := hlive hi hl
    rw [if_neg hl]
    split
    · rename_i hr
      have := (lessAt_iff_keyAt hi).mp hr
      omega
    · rename_i hr
      have := hlive hi hr
      omega

theorem OrderedAbove.swap_child (ho : OrderedAbove h i) (hi : i < h.length) (hne : leastAt h i ≠ i) :
    OrderedAbove (swapAt h i (leastAt h i)) (leastAt h i) ∧ i < leastAt h i := by
  obtain ⟨hm, hself, hleft, hright⟩ := leastAt_spec hi
  generalize leastAt h i = m at hne hm hself hleft hright ⊢
  have hkey := (h[i]).key_lt_bound
  rw [← keyAt_of_getElem? (List.getElem?_eq_getElem hi)] at hkey
  have hlt : m < h.length := by
    by_contra hge
    rw [keyAt_of_length_le (i := m) (by omega)] at hself
    omega
  have hparent : (m - 1) / 2 = i := by omega
  refine ⟨fun k hk => ?_, by omega⟩
  simp only [keyAt_swapAt hi hlt]
  obtain ⟨hk₁, -⟩ := ho k hk
  refine ⟨fun hqm => ?_, fun hqm _ => ?_⟩
  · rw [if_neg hqm]
    by_cases hqi : (k - 1) / 2 = i
    · rw [if_pos hqi]
      by_cases hkm : k = m
      · rw [if_pos hkm]
        exact hself
      · rw [if_neg hkm, if_neg (by omega)]
        obtain rfl | rfl : k = 2 * i + 1 ∨ k = 2 * i + 2 := by omega
        · exact hleft
        · exact hright
    · rw [if_neg hqi, if_neg (by omega)]
      by_cases hki : k = i
      · rw [if_pos hki, hki]
        exact (ho m (by omega)).2 hparent (by omega)
      · rw [if_neg hki]
        exact hk₁ hqi
  · rw [hparent, if_neg (by omega), if_pos rfl, if_neg (by omega), if_neg (by omega), ← hqm]
    exact hk₁ (by omega)

/-- An entry that is not greater than its children, or has none, has sunk far enough. -/
theorem OrderedAbove.ordered (ho : OrderedAbove h i) (hleft : keyAt h i ≤ keyAt h (2 * i + 1))
    (hright : keyAt h i ≤ keyAt h (2 * i + 2)) : HeapOrdered h := by
  rw [heapOrdered_iff_keyAt]
  intro k hk
  by_cases hqi : (k - 1) / 2 = i
  · rw [hqi]
    obtain rfl | rfl : k = 2 * i + 1 ∨ k = 2 * i + 2 := by omega
    · exact hleft
    · exact hright
  · exact (ho k hk).1 hqi

theorem OrderedAbove.ordered_of_length_le (ho : OrderedAbove h i) (hi : h.length ≤ i) : HeapOrdered h := by
  refine ho.ordered ?_ ?_ <;> rw [keyAt_of_length_le hi, keyAt_of_length_le (by omega)]

theorem siftDown_ordered (hn : h.length ≤ n + i) (ho : OrderedAbove h i) : HeapOrdered (siftDown n h i) := by
  induction n generalizing h i with
  | zero => exact ho.ordered_of_length_le (by omega)
  | succ n ih =>
    by_cases hi : i < h.length
    · rw [siftDown]
      split
      · rename_i hm
        obtain ⟨-, -, hleft, hright⟩ := leastAt_spec hi
        rw [hm] at hleft hright
        exact ho.ordered hleft hright
      · rename_i hm
        obtain ⟨ho', hlt⟩ := ho.swap_child hi hm
        exact ih (by rw [length_swapAt]; omega) ho'
    · have hm : leastAt h i = i := by
        have hdead : ∀ a, i < a → lessAt h a i = false := fun a ha => by
          rw [lessAt, List.getElem?_eq_none (by omega)]
        simp only [leastAt]
        rw [hdead _ (by omega), if_neg Bool.false_ne_true, hdead _ (by omega), if_neg Bool.false_ne_true]
      rw [siftDown]
      simp only [hm, if_true]
      exact ho.ordered_of_length_le (by omega)

/-- The top of an ordered array is a least entry (42_tree.md R153). -/
theorem keyAt_zero_le (ho : HeapOrdered h) (i : Nat) : keyAt h 0 ≤ keyAt h i := by
  rw [heapOrdered_iff_keyAt] at ho
  induction i using Nat.strong_induction_on with
  | _ i ih =>
    by_cases hi : i = 0
    · rw [hi]
    · exact (ih ((i - 1) / 2) (by omega)).trans (ho i (by omega))

theorem key_top_le (ho : HeapOrdered h) (htop : h.head? = some top) (hx : x ∈ h) : top.key ≤ x.key := by
  obtain ⟨i, hi⟩ := List.mem_iff_getElem?.mp hx
  have hle := keyAt_zero_le ho i
  rwa [keyAt_of_getElem? hi, keyAt_of_getElem? (by rw [← List.head?_eq_getElem?, htop])] at hle

/-- Behind its first entry the array that `HeapExtractMin` sifts is the old one without its last entry. -/
theorem keyAt_lastToTop {rest : List HeapEntry} (hne : x :: rest ≠ []) (hk : 0 < k) :
    keyAt ((x :: rest).getLast hne :: (x :: rest).dropLast) k =
      if k < rest.length + 1 then keyAt (top :: x :: rest) k else keyBound := by
  obtain ⟨k, rfl⟩ := Nat.exists_eq_succ_of_ne_zero hk.ne'
  split
  · refine keyAt_congr ?_
    rw [List.getElem?_cons_succ, List.getElem?_cons_succ, List.getElem?_dropLast, if_pos]
    simp only [List.length_cons]
    omega
  · refine keyAt_of_length_le ?_
    simp only [List.length_cons, List.length_dropLast]
    omega

theorem heapExtractMin_ordered (ho : HeapOrdered h) (hx : heapExtractMin h = some (top, h')) : HeapOrdered h' := by
  match h with
  | [] => cases hx
  | [_] =>
    cases hx
    intro i a b _ ha
    simp at ha
  | a :: b :: rest =>
    simp only [heapExtractMin, Option.some.injEq, Prod.mk.injEq] at hx
    obtain ⟨rfl, rfl⟩ := hx
    refine siftDown_ordered (by omega) fun k hk => ⟨fun hq => ?_, fun _ hpos => absurd hpos (lt_irrefl 0)⟩
    rw [heapOrdered_iff_keyAt] at ho
    rw [keyAt_lastToTop (top := a) _ hk, keyAt_lastToTop (top := a) _ (by omega)]
    by_cases hlt : k < rest.length + 1
    · rw [if_pos hlt, if_pos (by omega)]
      exact ho k hk
    · rw [if_neg hlt]
      split
      · exact keyAt_le_bound
      · exact le_rfl

/-- What `HeapExtractMin` takes from an ordered array: a least entry, and the others stay, ordered (42_tree.md R153). -/
theorem heapExtractMin_least (ho : HeapOrdered h) (hx : heapExtractMin h = some (top, h')) :
    h.Perm (top :: h') ∧ HeapOrdered h' ∧ ∀ x ∈ h, top.key ≤ x.key :=
  ⟨(heapExtractMin_perm hx).1, heapExtractMin_ordered ho hx, fun _ => key_top_le ho (heapExtractMin_perm hx).2⟩

end Sys2Proof.Machine

namespace Sys2Proof.Proofs

open Sys2Proof.Machine

/-- Settles O30: sift-up repairs the one place where an entry may be less than its parent, sift-down the one place
where children may be less than it. -/
theorem heapExtractsALeastEntry : Obligations.HeapExtractsALeastEntry := by
  refine ⟨fun h e ho => ⟨heapInsert_ordered ho e, heapInsert_perm h e⟩, fun h ho hne => ?_⟩
  obtain ⟨top, h', hx⟩ := heapExtractMin_isSome hne
  obtain ⟨hperm, ho', hleast⟩ := heapExtractMin_least ho hx
  exact ⟨top, h', hx, hperm, ho', fun x hmem => less_eq_false_iff_key.mpr (hleast x hmem)⟩

end Sys2Proof.Proofs

namespace Sys2Proof.Machine

/-! ### The binary tree that `TREE` holds below an index (42_tree.md R158)

`Codes` stops at a leaf and goes on below an internal node, so what it gives is the list of the paths of a binary
tree. The claims about paths and codewords are facts about such trees. -/

open Sys2Proof.Safety

/-- A binary tree with symbols at its leaves. -/
inductive Shape where
  | leaf (sym : Symbol)
  | node (l r : Shape)

variable {tree : TreeRam} {i j root : NodeIndex} {T T' : Shape} {sym : Symbol} {p q : Codeword} {b : Bit}

/-- A path with one more bit in front. -/
def consBit (b : Bit) (sp : Symbol × Codeword) : Symbol × Codeword := (sp.1, b :: sp.2)

/-- The paths of a tree, left before right. -/
def Shape.codes : Shape → List (Symbol × Codeword)
  | .leaf sym => [(sym, [])]
  | .node l r => l.codes.map (consBit false) ++ r.codes.map (consBit true)

def Shape.depth : Shape → Nat
  | .leaf _ => 0
  | .node l r => max l.depth r.depth + 1

/-- The symbols at the leaves, left before right. -/
def Shape.symbols (T : Shape) : List Symbol := T.codes.map Prod.fst

/-- `TREE` holds the tree below the index. -/
def Shape.LiesAt (tree : TreeRam) : Shape → NodeIndex → Prop
  | .leaf sym, i => ∃ n, nodeAt tree i = some n ∧ n.leaf = true ∧ n.sym = sym
  | .node l r, i => ∃ n, nodeAt tree i = some n ∧ n.leaf = false ∧ l.LiesAt tree n.left ∧ r.LiesAt tree n.right

@[simp] theorem Shape.symbols_leaf : (Shape.leaf sym).symbols = [sym] := rfl

@[simp] theorem Shape.symbols_node (l r : Shape) : (Shape.node l r).symbols = l.symbols ++ r.symbols := by
  simp [Shape.symbols, Shape.codes, consBit, Function.comp_def]

@[simp] theorem Shape.length_symbols (T : Shape) : T.symbols.length = T.codes.length := List.length_map _

theorem Shape.depth_lt_length_codes (T : Shape) : T.depth < T.codes.length := by
  induction T with
  | leaf sym => exact Nat.one_pos
  | node l r ihl ihr =>
    simp only [Shape.depth, Shape.codes, List.length_append, List.length_map]
    omega

theorem Shape.length_le_depth (h : (sym, p) ∈ T.codes) : p.length ≤ T.depth := by
  induction T generalizing p with
  | leaf s => obtain ⟨rfl, rfl⟩ := Prod.mk.inj (List.mem_singleton.mp h); exact le_rfl
  | node l r ihl ihr =>
    simp only [Shape.codes, List.mem_append, List.mem_map, consBit, Prod.mk.injEq, Prod.exists] at h
    obtain ⟨s, c, hc, rfl, rfl⟩ | ⟨s, c, hc, rfl, rfl⟩ := h
    · exact Nat.succ_le_succ ((ihl hc).trans (le_max_left _ _))
    · exact Nat.succ_le_succ ((ihr hc).trans (le_max_right _ _))

theorem Shape.depth_eq_zero_of_nil (h : (sym, []) ∈ T.codes) : T.depth = 0 := by
  cases T with
  | leaf s => rfl
  | node l r => simp [Shape.codes, consBit] at h

/-! ### `Codes` gives the paths of the tree (42_tree.md R158) -/

/-- The paths with the bits already taken in front. -/
def Shape.codesBehind (T : Shape) (p : Codeword) : List (Symbol × Codeword) :=
  T.codes.map fun sp => (sp.1, p ++ sp.2)

theorem Shape.codesBehind_leaf : (Shape.leaf sym).codesBehind p = [(sym, p)] := by
  simp [Shape.codesBehind, Shape.codes]

theorem Shape.codesBehind_node (l r : Shape) :
    (Shape.node l r).codesBehind p = l.codesBehind (p ++ [false]) ++ r.codesBehind (p ++ [true]) := by
  simp [Shape.codesBehind, Shape.codes, consBit, Function.comp_def]

theorem codesFrom_of_liesAt {n : Nat} (h : T.LiesAt tree i) (hn : T.depth < n) :
    codesFrom tree n i p = some (T.codesBehind p) := by
  induction T generalizing n i p with
  | leaf sym =>
    obtain ⟨n, rfl⟩ := Nat.exists_eq_succ_of_ne_zero (Nat.ne_zero_of_lt hn)
    obtain ⟨nd, hnd, hleaf, rfl⟩ := h
    rw [codesFrom, hnd, Shape.codesBehind_leaf]
    exact if_pos hleaf
  | node l r ihl ihr =>
    obtain ⟨n, rfl⟩ := Nat.exists_eq_succ_of_ne_zero (Nat.ne_zero_of_lt hn)
    obtain ⟨nd, hnd, hleaf, hl, hr⟩ := h
    have hd : l.depth < n ∧ r.depth < n := by simp only [Shape.depth] at hn; omega
    rw [codesFrom, hnd, Shape.codesBehind_node]
    simp only [hleaf, ihl hl hd.1, ihr hr hd.2, Bool.false_eq_true, if_false]

theorem liesAt_of_codesFrom {n : Nat} {l : List (Symbol × Codeword)} (h : codesFrom tree n i p = some l) :
    ∃ T : Shape, T.LiesAt tree i ∧ T.depth < n ∧ l = T.codesBehind p := by
  induction n generalizing i p l with
  | zero => cases h
  | succ n ih =>
    rw [codesFrom] at h
    split at h
    · cases h
    · rename_i nd hnd
      split at h
      · rename_i hleaf
        refine ⟨.leaf nd.sym, ⟨nd, hnd, hleaf, rfl⟩, Nat.succ_pos n, ?_⟩
        rw [Shape.codesBehind_leaf]
        exact (Option.some.inj h).symm
      · rename_i hleaf
        split at h
        · rename_i cl cr hl hr
          obtain ⟨L, hL, hdL, rfl⟩ := ih hl
          obtain ⟨R, hR, hdR, rfl⟩ := ih hr
          refine ⟨.node L R, ⟨nd, hnd, by simpa using hleaf, hL, hR⟩, ?_, ?_⟩
          · simp only [Shape.depth]; omega
          · rw [Shape.codesBehind_node]
            exact (Option.some.inj h).symm
        · cases h

theorem treeCodes_eq_some_iff {l : List (Symbol × Codeword)} :
    treeCodes tree root = some l ↔ ∃ T : Shape, T.LiesAt tree root ∧ T.depth ≤ 255 ∧ l = T.codes := by
  have hnil : ∀ T : Shape, T.codesBehind [] = T.codes := fun T => by simp [Shape.codesBehind]
  constructor
  · intro h
    obtain ⟨T, hT, hd, rfl⟩ := liesAt_of_codesFrom h
    exact ⟨T, hT, Nat.le_of_lt_succ hd, hnil T⟩
  · rintro ⟨T, hT, hd, rfl⟩
    rw [← hnil T]
    exact codesFrom_of_liesAt hT (Nat.lt_succ_of_le hd)

/-! ### A tree with every symbol at one leaf (42_tree.md R157, R160) -/

/-- Every symbol stands at exactly one leaf. -/
def Shape.Full (T : Shape) : Prop := T.symbols.Perm allSymbols

theorem Shape.Full.length_codes (h : T.Full) : T.codes.length = 256 := by
  rw [← T.length_symbols, h.length_eq, length_allSymbols]

theorem Shape.Full.depth_le (h : T.Full) : T.depth ≤ 255 := by
  have := T.depth_lt_length_codes
  have := h.length_codes
  omega

theorem Shape.Full.exists_code (h : T.Full) (sym : Symbol) : ∃ p, (sym, p) ∈ T.codes := by
  obtain ⟨⟨s, p⟩, hp, rfl⟩ := List.mem_map.mp (h.mem_iff.mpr (mem_allSymbols sym))
  exact ⟨p, hp⟩

theorem Shape.Full.code_unique (h : T.Full) (hp : (sym, p) ∈ T.codes) (hq : (sym, q) ∈ T.codes) : p = q :=
  congrArg Prod.snd (List.inj_on_of_nodup_map (h.nodup_iff.mpr nodup_allSymbols) hp hq rfl)

/-- The root is no leaf, so no path is empty (42_tree.md R160 b). -/
theorem Shape.Full.code_ne_nil (h : T.Full) (hp : (sym, p) ∈ T.codes) : p ≠ [] := by
  rintro rfl
  have hlen := h.length_codes
  cases T with
  | leaf s => simp [Shape.codes] at hlen
  | node l r => exact absurd (Shape.depth_eq_zero_of_nil hp) (Nat.succ_ne_zero _)

theorem Shape.Full.treeCodes_eq (h : T.Full) (hT : T.LiesAt tree root) : treeCodes tree root = some T.codes :=
  treeCodes_eq_some_iff.mpr ⟨T, hT, h.depth_le, rfl⟩

theorem treeOk_iff : TreeOk tree root ↔ ∃ T : Shape, T.LiesAt tree root ∧ T.Full := by
  constructor
  · rintro ⟨l, hl, hperm, -⟩
    obtain ⟨T, hT, -, rfl⟩ := treeCodes_eq_some_iff.mp hl
    exact ⟨T, hT, hperm⟩
  · rintro ⟨T, hT, hfull⟩
    exact ⟨T.codes, hfull.treeCodes_eq hT, hfull, fun sp hsp => hfull.code_ne_nil (sym := sp.1) hsp⟩

theorem Shape.Full.pathIs_iff (h : T.Full) (hT : T.LiesAt tree root) :
    PathIs tree root sym p ↔ (sym, p) ∈ T.codes := by
  simp [PathIs, h.treeCodes_eq hT]

/-- Every symbol has exactly one path, of 1 to 255 bits (42_tree.md R160 a, b). -/
theorem exists_path_of_treeOk (h : TreeOk tree root) (sym : Symbol) :
    ∃ p, PathIs tree root sym p ∧ 1 ≤ p.length ∧ p.length ≤ 255 ∧ ∀ q, PathIs tree root sym q → q = p := by
  obtain ⟨T, hT, hfull⟩ := treeOk_iff.mp h
  obtain ⟨p, hp⟩ := hfull.exists_code sym
  refine ⟨p, (hfull.pathIs_iff hT).mpr hp, List.length_pos_iff.mpr (hfull.code_ne_nil hp),
    (Shape.length_le_depth hp).trans hfull.depth_le, fun q hq => ?_⟩
  exact hfull.code_unique ((hfull.pathIs_iff hT).mp hq) hp

/-! ### Prefix-free and complete (42_tree.md R160 c, d) -/

theorem Shape.eq_of_prefix {x y : Symbol} {c d : Codeword} (hc : (x, c) ∈ T.codes) (hd : (y, d) ∈ T.codes)
    (hpre : c <+: d) : x = y := by
  induction T generalizing c d with
  | leaf s =>
    simp only [Shape.codes, List.mem_singleton, Prod.mk.injEq] at hc hd
    rw [hc.1, hd.1]
  | node l r ihl ihr =>
    simp only [Shape.codes, List.mem_append, List.mem_map, consBit, Prod.mk.injEq, Prod.exists] at hc hd
    obtain ⟨_, c, hc, rfl, rfl⟩ | ⟨_, c, hc, rfl, rfl⟩ := hc <;>
      obtain ⟨_, d, hd, rfl, rfl⟩ | ⟨_, d, hd, rfl, rfl⟩ := hd <;>
      obtain ⟨hbit, hpre⟩ := List.cons_prefix_cons.mp hpre
    · exact ihl hc hd hpre
    · cases hbit
    · cases hbit
    · exact ihr hc hd hpre

/-- Kraft's sum over the paths, scaled by a power of 2 that no path exceeds. -/
theorem Shape.kraft_sum (T : Shape) {d : Nat} (hd : T.depth ≤ d) :
    (T.codes.map fun sp => 2 ^ (d - sp.2.length)).sum = 2 ^ d := by
  induction T generalizing d with
  | leaf s => simp [Shape.codes]
  | node l r ihl ihr =>
    simp only [Shape.depth] at hd
    obtain ⟨d, rfl⟩ : ∃ e, d = e + 1 := ⟨d - 1, by omega⟩
    have hl := ihl (d := d) (by omega)
    have hr := ihr (d := d) (by omega)
    simp only [Shape.codes, List.map_append, List.map_map, Function.comp_def, consBit, List.length_cons,
      Nat.add_sub_add_right, List.sum_append, hl, hr]
    omega

/-! ### Where the bits of a path lead (42_tree.md R158, 43_walker.md R180) -/

/-- The tree below the node that bits lead to, none where a leaf ends them early. -/
def Shape.sub : Shape → Codeword → Option Shape
  | T, [] => some T
  | .leaf _, _ :: _ => none
  | .node l r, b :: q => (if b then r else l).sub q

@[simp] theorem Shape.sub_nil (T : Shape) : T.sub [] = some T := by cases T <;> rfl

theorem Shape.sub_append (T : Shape) (p q : Codeword) : T.sub (p ++ q) = (T.sub p).bind (·.sub q) := by
  induction p generalizing T with
  | nil => simp
  | cons b p ih =>
    cases T with
    | leaf s => rfl
    | node l r => exact ih _

/-- A path is a way to a leaf. -/
theorem Shape.mem_codes_iff : (sym, p) ∈ T.codes ↔ T.sub p = some (.leaf sym) := by
  induction T generalizing p with
  | leaf s =>
    cases p with
    | nil => simp [Shape.codes, Shape.sub, eq_comm]
    | cons b p => simp [Shape.codes, Shape.sub]
  | node l r ihl ihr =>
    cases p with
    | nil => simp [Shape.codes, consBit, Shape.sub]
    | cons b p => cases b <;> simp [Shape.codes, consBit, Shape.sub, ← ihl, ← ihr]

/-- Below every node there is a leaf. -/
theorem Shape.exists_code_of_sub (h : T.sub p = some T') : ∃ sym q, (sym, p ++ q) ∈ T.codes := by
  obtain ⟨sym, q, hq⟩ : ∃ sym q, T'.sub q = some (.leaf sym) := by
    clear h
    induction T' with
    | leaf s => exact ⟨s, [], rfl⟩
    | node l r ihl ihr =>
      obtain ⟨sym, q, hq⟩ := ihl
      exact ⟨sym, false :: q, hq⟩
  exact ⟨sym, q, Shape.mem_codes_iff.mpr (by rw [Shape.sub_append, h]; exact hq)⟩

/-- Wherever bits lead in `TREE`, a part of the tree lies there. -/
theorem Shape.LiesAt.of_walk (h : T.LiesAt tree i) (hw : walkFrom tree i q = some j) :
    ∃ T', T.sub q = some T' ∧ T'.LiesAt tree j := by
  induction q generalizing T i with
  | nil =>
    cases hw
    exact ⟨T, T.sub_nil, h⟩
  | cons b q ih =>
    rw [walkFrom] at hw
    split at hw
    · cases hw
    · rename_i n hn
      split at hw
      · cases hw
      · rename_i hleaf
        cases T with
        | leaf s =>
          obtain ⟨m, hm, hmleaf, -⟩ := h
          rw [hn] at hm
          cases hm
          exact absurd hmleaf hleaf
        | node l r =>
          obtain ⟨m, hm, -, hl, hr⟩ := h
          rw [hn] at hm
          cases hm
          cases b
          · exact ih hl hw
          · exact ih hr hw

theorem walkFrom_append (tree : TreeRam) (i : NodeIndex) (p q : List Bit) :
    walkFrom tree i (p ++ q) = (walkFrom tree i p).bind fun j => walkFrom tree j q := by
  induction p generalizing i with
  | nil => rfl
  | cons b p ih =>
    rw [List.cons_append, walkFrom, walkFrom]
    split
    · rfl
    · split
      · rfl
      · exact ih _

/-- The positions of the internal nodes. -/
def Shape.inner : Shape → List Codeword
  | .leaf _ => []
  | .node l r => [] :: (l.inner.map (false :: ·) ++ r.inner.map (true :: ·))

/-- A tree has one internal node less than leaves. -/
theorem Shape.length_inner (T : Shape) : T.inner.length + 1 = T.codes.length := by
  induction T with
  | leaf s => rfl
  | node l r ihl ihr =>
    simp only [Shape.inner, Shape.codes, List.length_cons, List.length_append, List.length_map]
    omega

theorem Shape.nodup_inner (T : Shape) : T.inner.Nodup := by
  induction T with
  | leaf s => exact List.nodup_nil
  | node l r ihl ihr =>
    have hinj : ∀ b : Bit, Function.Injective (b :: ·) := fun b _ _ h => List.tail_eq_of_cons_eq h
    refine List.nodup_cons.mpr ⟨by simp, List.Nodup.append (ihl.map (hinj _)) (ihr.map (hinj _)) ?_⟩
    intro q hl hr
    obtain ⟨_, -, rfl⟩ := List.mem_map.mp hl
    obtain ⟨_, -, h⟩ := List.mem_map.mp hr
    cases h

theorem Shape.mem_inner_iff : q ∈ T.inner ↔ ∃ l r, T.sub q = some (.node l r) := by
  induction T generalizing q with
  | leaf s => cases q <;> simp [Shape.inner, Shape.sub]
  | node l r ihl ihr =>
    cases q with
    | nil => simp [Shape.inner, Shape.sub]
    | cons b q => cases b <;> simp [Shape.inner, Shape.sub, ihl, ihr]

end Sys2Proof.Machine

namespace Sys2Proof.Machine

/-! ### The code table that `TCODES` writes (42_tree.md R159, R160) -/

open Sys2Proof.Safety

variable {s : State} {sym : Symbol} {p : Codeword} {l : List (Symbol × Codeword)} {code : CodeRam}

theorem codeAt_writeCodes_of_notMem (h : sym ∉ l.map Prod.fst) : codeAt (writeCodes code l) sym = codeAt code sym := by
  induction l generalizing code with
  | nil => rfl
  | cons sp l ih =>
    rw [List.map_cons, List.mem_cons, not_or] at h
    exact (ih h.2).trans (codeAt_setCode_other _ _ _ h.1)

theorem codeAt_writeCodes (hl : (l.map Prod.fst).Nodup) (h : (sym, p) ∈ l) :
    codeAt (writeCodes code l) sym = some p := by
  induction l generalizing code with
  | nil => cases h
  | cons sp l ih =>
    rw [List.map_cons, List.nodup_cons] at hl
    obtain rfl | h := List.mem_cons.mp h
    · exact (codeAt_writeCodes_of_notMem hl.1).trans (codeAt_setCode_same _ _ _)
    · exact ih hl.2 h

theorem Shape.Full.codeAt_writeCodes {T : Shape} (h : T.Full) :
    codeAt (writeCodes code T.codes) sym = some p ↔ (sym, p) ∈ T.codes := by
  have hset : ∀ q, (sym, q) ∈ T.codes → codeAt (writeCodes code T.codes) sym = some q := fun q =>
    Machine.codeAt_writeCodes (h.nodup_iff.mpr nodup_allSymbols)
  refine ⟨fun hp => ?_, hset p⟩
  obtain ⟨q, hq⟩ := h.exists_code sym
  rw [hset q hq] at hp
  exact Option.some.inj hp ▸ hq

theorem pathsBroken_of_treeOk (h : TreeOk s.tree s.root) : s.pathsBroken = false := by
  obtain ⟨l, hl, -⟩ := h
  simp [State.pathsBroken, hl]

/-- After `TCODES` the codeword of a symbol is its path (42_tree.md R159). -/
theorem codeAt_derivedCodes (h : TreeOk s.tree s.root) :
    codeAt (writeCodes s.code ((treeCodes s.tree s.root).getD [])) sym = some p ↔ PathIs s.tree s.root sym p := by
  obtain ⟨T, hT, hfull⟩ := treeOk_iff.mp h
  rw [hfull.treeCodes_eq hT, hfull.pathIs_iff hT]
  exact hfull.codeAt_writeCodes

/-- The tree behind the code table of a good state. -/
theorem exists_shape_of_good (h : Good s) (hcv : s.cv = true) :
    ∃ T : Shape, T.LiesAt s.tree s.root ∧ T.Full ∧
      ∀ sym p, codeAt s.code sym = some p ↔ T.sub p = some (.leaf sym) := by
  obtain ⟨T, hT, hfull⟩ := treeOk_iff.mp (h.tree.tree (h.regs.codesNeedTree hcv))
  have hcode : ∀ sym p, (sym, p) ∈ T.codes → codeAt s.code sym = some p := fun sym p hp =>
    h.tree.codes hcv sym p ((hfull.pathIs_iff hT).mpr hp)
  refine ⟨T, hT, hfull, fun sym p => ?_⟩
  rw [← Shape.mem_codes_iff]
  refine ⟨fun hp => ?_, hcode sym p⟩
  obtain ⟨q, hq⟩ := hfull.exists_code sym
  rw [hcode sym q hq] at hp
  exact Option.some.inj hp ▸ hq

end Sys2Proof.Machine

namespace Sys2Proof.Proofs

open Sys2Proof.Machine Sys2Proof.Safety

/-- Settles O36: the code table of a good state lists the paths of a binary tree with every symbol at one leaf. -/
theorem codeTableIsPrefixFreeAndComplete : Obligations.CodeTableIsPrefixFreeAndComplete := by
  intro s hgood hcv
  obtain ⟨T, -, hfull, hcode⟩ := exists_shape_of_good hgood hcv
  simp only [← Shape.mem_codes_iff] at hcode
  refine ⟨fun sym => ?_, fun x y c d hc hd hpre => ?_, ?_⟩
  · obtain ⟨c, hc⟩ := hfull.exists_code sym
    exact ⟨c, (hcode sym c).mpr hc, List.length_pos_iff.mpr (hfull.code_ne_nil hc),
      (Shape.length_le_depth hc).trans hfull.depth_le⟩
  · exact Shape.eq_of_prefix ((hcode x c).mp hc) ((hcode y d).mp hd) hpre
  · rw [← T.kraft_sum hfull.depth_le, ← (hfull.map _).sum_eq, Shape.symbols, List.map_map]
    refine congrArg List.sum (List.map_congr_left fun sp hsp => ?_)
    rw [Function.comp_apply, (hcode sp.1 sp.2).mpr hsp, Option.getD_some]

/-- Settles O35: the traversal ends at every leaf, and the writes are for different symbols. -/
theorem tcodesWritesEveryPath : Obligations.TcodesWritesEveryPath := by
  refine ⟨rfl, fun s hs htv hok => ?_⟩
  have hexec : exec .tcodes s = runCommand .tcodes bodyTcodes s :=
    exec_eq_runCommand (i := .tcodes) nofun (pathsBroken_of_treeOk hok)
  exact ⟨_, hexec.trans (runCommand_done hs (bodyTcodes_done htv)), rfl, fun sym p => codeAt_derivedCodes hok⟩

end Sys2Proof.Proofs

namespace Sys2Proof.Machine

/-! ### `TREE` by node index (42_tree.md R154 to R157) -/

open Sys2Proof.Safety

variable {tree tree' : TreeRam} {i j k l r m : NodeIndex} {b : Bit} {freq : FreqRam} {sym : Symbol} {n : Node}

theorem toNat_leafIndex (sym : Symbol) : (leafIndex sym).toNat = sym.toNat := by
  have := sym.isLt
  rw [leafIndex, BitVec.toNat_setWidth]
  omega

theorem toNat_leafIndex_lt (sym : Symbol) : (leafIndex sym).toNat < 256 := by
  rw [toNat_leafIndex]
  exact sym.isLt

theorem leafIndex_injective : Function.Injective leafIndex := fun x y h => by
  have := congrArg BitVec.toNat h
  rw [toNat_leafIndex, toNat_leafIndex] at this
  exact BitVec.eq_of_toNat_eq this

theorem setWidth_leafIndex (sym : Symbol) : (leafIndex sym).setWidth 8 = sym := by
  refine BitVec.eq_of_toNat_eq ?_
  have := sym.isLt
  rw [BitVec.toNat_setWidth, toNat_leafIndex]
  omega

theorem exists_leafIndex (h : i.toNat < 256) : ∃ sym, leafIndex sym = i := by
  refine ⟨i.setWidth 8, BitVec.eq_of_toNat_eq ?_⟩
  rw [toNat_leafIndex, BitVec.toNat_setWidth]
  omega

theorem nodeAt_setNode (h : i.toNat < 511) :
    nodeAt (setNode tree i n) j = if j = i then some n else nodeAt tree j := by
  split
  · rename_i hji
    rw [hji]
    exact nodeAt_setNode_same tree n fun hi => absurd h (by rw [hi]; decide)
  · rename_i hji
    exact nodeAt_setNode_other tree n hji

theorem lt_of_nodeAt (h : nodeAt tree i = some n) : i.toNat < 511 := by
  by_contra hge
  have : i = Config.noNode := BitVec.eq_of_toNat_eq (by have := i.isLt; show i.toNat = 511; omega)
  rw [this, nodeAt_noNode] at h
  cases h

/-- The weight of an entry, 0 where none is written. -/
def weightAt (tree : TreeRam) (i : NodeIndex) : Nat := ((nodeAt tree i).map (·.w.toNat)).getD 0

theorem weightAt_of_nodeAt (h : nodeAt tree i = some n) : weightAt tree i = n.w.toNat := by simp [weightAt, h]

/-- The number that orders nodes as their heap entries are ordered (42_tree.md R150). -/
def rank (tree : TreeRam) (i : NodeIndex) : Nat := weightAt tree i * 512 + i.toNat

theorem rank_lt_rank_iff :
    rank tree i < rank tree j ↔
      weightAt tree i < weightAt tree j ∨ weightAt tree i = weightAt tree j ∧ i.toNat < j.toNat := by
  have hi := i.isLt
  have hj := j.isLt
  simp only [rank]
  omega

/-- The node `j` is a child of the internal node `k`, by the bit `b`. -/
def ChildAt (tree : TreeRam) (k : NodeIndex) (b : Bit) (j : NodeIndex) : Prop :=
  ∃ n, nodeAt tree k = some n ∧ n.leaf = false ∧ n.child b = j

/-- The internal node `i` joins `l` and `r`, the two least of the nodes below `i` that had no parent below `i`. -/
structure Joins (tree : TreeRam) (i l r : NodeIndex) : Prop where
  node : ∃ w, nodeAt tree i = some ⟨false, 0, l, r, w⟩
  below : l.toNat < i.toNat ∧ r.toNat < i.toNat
  weight : weightAt tree i = weightAt tree l + weightAt tree r
  lesser : rank tree l < rank tree r
  least : ∀ j, j.toNat < i.toNat → j = l ∨ j = r ∨ (∃ k b, k.toNat < i.toNat ∧ ChildAt tree k b j) ∨
    rank tree r < rank tree j

theorem Joins.childAt_left (h : Joins tree i l r) : ChildAt tree i false l := by
  obtain ⟨w, hn⟩ := h.node
  exact ⟨_, hn, rfl, rfl⟩

theorem Joins.childAt_right (h : Joins tree i l r) : ChildAt tree i true r := by
  obtain ⟨w, hn⟩ := h.node
  exact ⟨_, hn, rfl, rfl⟩

theorem Joins.child_eq (h : Joins tree i l r) (hc : ChildAt tree i b j) : j = if b then r else l := by
  obtain ⟨w, hn⟩ := h.node
  obtain ⟨n, hn', -, rfl⟩ := hc
  rw [hn] at hn'
  cases hn'
  rfl

/-- The entries below `m` are the same in both memories. -/
def SameBelow (m : Nat) (tree tree' : TreeRam) : Prop := ∀ j : NodeIndex, j.toNat < m → nodeAt tree' j = nodeAt tree j

theorem sameBelow_setNode (h : m.toNat < 511) (n : Node) : SameBelow m.toNat tree (setNode tree m n) := fun j hj => by
  rw [nodeAt_setNode h, if_neg]
  rintro rfl
  exact lt_irrefl _ hj

section
variable {a : Nat} (h : SameBelow a tree tree')
include h

theorem SameBelow.weightAt_eq (hi : i.toNat < a) : weightAt tree' i = weightAt tree i := by
  rw [weightAt, weightAt, h i hi]

theorem SameBelow.rank_eq (hi : i.toNat < a) : rank tree' i = rank tree i := by
  rw [rank, rank, h.weightAt_eq hi]

theorem SameBelow.childAt_iff (hk : k.toNat < a) : ChildAt tree' k b j ↔ ChildAt tree k b j := by
  rw [ChildAt, ChildAt, h k hk]

theorem SameBelow.joins (hi : i.toNat < a) (hj : Joins tree i l r) : Joins tree' i l r := by
  have hl := hj.below.1.trans hi
  have hr := hj.below.2.trans hi
  refine ⟨by rw [h i hi]; exact hj.node, hj.below, ?_, ?_, fun j hji => ?_⟩
  · rw [h.weightAt_eq hi, h.weightAt_eq hl, h.weightAt_eq hr]
    exact hj.weight
  · rw [h.rank_eq hl, h.rank_eq hr]
    exact hj.lesser
  · rw [h.rank_eq hr, h.rank_eq (hji.trans hi)]
    obtain hjl | hjr | ⟨k, b, hk, hc⟩ | hlt := hj.least j hji
    · exact .inl hjl
    · exact .inr (.inl hjr)
    · exact .inr (.inr (.inl ⟨k, b, hk, (h.childAt_iff (hk.trans hi)).mpr hc⟩))
    · exact .inr (.inr (.inr hlt))

end

/-! ### The merge loop (42_tree.md R154, R157)

What holds before every round: `m` is `NEXT`, and `live` the entries of the heap in some order. -/

/-- The weight of a leaf is its count, zero-extended (42_tree.md R156). -/
def countWeight (freq : FreqRam) (sym : Symbol) : Weight := (freq[sym.toNat]'sym.isLt).setWidth 72

def leafNode (freq : FreqRam) (sym : Symbol) : Node := ⟨true, sym, 0, 0, countWeight freq sym⟩

def leafEntry (freq : FreqRam) (sym : Symbol) : HeapEntry := ⟨countWeight freq sym, leafIndex sym⟩

/-- The sum of all counts. -/
def totalCount (freq : FreqRam) : Nat := (allSymbols.map fun sym => (countWeight freq sym).toNat).sum

/-- The symbols below the live nodes, where `shape` gives the tree at each node. -/
def liveSymbols (shape : NodeIndex → Shape) (live : List HeapEntry) : List Symbol :=
  live.flatMap fun e => (shape e.n).symbols

/-- The sum of the weights of live entries. -/
def liveWeight (live : List HeapEntry) : Nat := (live.map (·.w.toNat)).sum

theorem toNat_countWeight (s : State) (sym : Symbol) : (countWeight s.freq sym).toNat = (s.freqAt sym).toNat := by
  have hlt := (s.freqAt sym).isLt
  show ((s.freqAt sym).setWidth 72).toNat = _
  rw [BitVec.toNat_setWidth]
  omega

/-- No sum of weights overflows (42_tree.md R156). -/
theorem totalCount_lt (freq : FreqRam) : totalCount freq < 2 ^ 72 := by
  have hle : ∀ v ∈ allSymbols.map fun sym => (countWeight freq sym).toNat, v ≤ 2 ^ 64 - 1 := by
    intro v hv
    obtain ⟨sym, -, rfl⟩ := List.mem_map.mp hv
    have := (freq[sym.toNat]'sym.isLt).isLt
    rw [countWeight, BitVec.toNat_setWidth]
    omega
  have hsum := List.sum_le_card_nsmul _ _ hle
  rw [List.length_map, length_allSymbols, smul_eq_mul] at hsum
  rw [totalCount]
  omega

/-- `TREE` after a round that joins `x` and `y` (42_tree.md R154). -/
def joinTree (tree : TreeRam) (m : NodeIndex) (x y : HeapEntry) : TreeRam :=
  setNode tree m ⟨false, 0, x.n, y.n, x.w + y.w⟩

/-- The entry that takes the place of `x` and `y`. -/
def joinEntry (m : NodeIndex) (x y : HeapEntry) : HeapEntry := ⟨x.w + y.w, m⟩

structure Merging (freq : FreqRam) (tree : TreeRam) (live : List HeapEntry) (m : NodeIndex) : Prop where
  count : live.length + m.toNat = 512
  started : 256 ≤ m.toNat
  leaves : ∀ sym, nodeAt tree (leafIndex sym) = some (leafNode freq sym)
  joined : ∀ i, 256 ≤ i.toNat → i.toNat < m.toNat → ∃ l r, Joins tree i l r
  /-- R157 (f) -/
  distinct : (live.map (·.n)).Nodup
  written : ∀ e ∈ live, e.n.toNat < m.toNat ∧ e.w.toNat = weightAt tree e.n
  covered : ∀ j, j.toNat < m.toNat → (∃ e ∈ live, e.n = j) ∨ ∃ k b, k.toNat < m.toNat ∧ ChildAt tree k b j
  orphan : ∀ e ∈ live, ∀ k b, k.toNat < m.toNat → ¬ ChildAt tree k b e.n
  /-- R157 (d) -/
  oneParent : ∀ k b k' b' j, k.toNat < m.toNat → k'.toNat < m.toNat → ChildAt tree k b j → ChildAt tree k' b' j →
    k' = k ∧ b' = b
  total : liveWeight live = totalCount freq
  heavier : ∀ e ∈ live, ∀ k b j, k.toNat < m.toNat → ChildAt tree k b j → weightAt tree j ≤ e.w.toNat
  /-- R157 (g) -/
  monotone : ∀ i j, 256 ≤ i.toNat → i.toNat ≤ j.toNat → j.toNat < m.toNat → weightAt tree i ≤ weightAt tree j
  shapes : ∃ shape : NodeIndex → Shape, (∀ i, i.toNat < m.toNat → (shape i).LiesAt tree i) ∧
    (liveSymbols shape live).Perm allSymbols

namespace Merging

variable {live live' : List HeapEntry} {e x y : HeapEntry} {rest : List HeapEntry}

/-- The order of the heap's array does not matter (42_tree.md R153). -/
theorem perm (h : Merging freq tree live m) (hp : live.Perm live') : Merging freq tree live' m := by
  obtain ⟨shape, hshape, hsym⟩ := h.shapes
  exact
    { h with
      count := hp.length_eq ▸ h.count
      distinct := (hp.map _).nodup_iff.mp h.distinct
      written := fun e he => h.written e (hp.mem_iff.mpr he)
      covered := fun j hj => (h.covered j hj).imp_left fun ⟨e, he, hn⟩ => ⟨e, hp.mem_iff.mp he, hn⟩
      orphan := fun e he => h.orphan e (hp.mem_iff.mpr he)
      total := (hp.map _).sum_eq.symm.trans h.total
      heavier := fun e he => h.heavier e (hp.mem_iff.mpr he)
      shapes := ⟨shape, hshape, (hp.flatMap_right _).symm.trans hsym⟩ }

theorem key_eq_rank (h : Merging freq tree live m) (he : e ∈ live) : e.key = rank tree e.n := by
  rw [HeapEntry.key, rank, (h.written e he).2]

/-- A child has a smaller index than its parent, and only internal nodes have children (42_tree.md R157 d). -/
theorem child_lt (h : Merging freq tree live m) (hk : k.toNat < m.toNat) (hc : ChildAt tree k b j) :
    256 ≤ k.toNat ∧ j.toNat < k.toNat := by
  have hi : 256 ≤ k.toNat := by
    by_contra hlt
    obtain ⟨sym, rfl⟩ := exists_leafIndex (i := k) (by omega)
    obtain ⟨n, hn, hleaf, -⟩ := hc
    rw [h.leaves] at hn
    cases hn
    cases hleaf
  obtain ⟨l, r, hj⟩ := h.joined k hi hk
  refine ⟨hi, ?_⟩
  rw [hj.child_eq hc]
  cases b
  · exact hj.below.1
  · exact hj.below.2

/-- A tree below an index that is written stays as it is while higher entries are written. -/
theorem liesAt_of_sameBelow (h : Merging freq tree live m) (hs : SameBelow m.toNat tree tree') {T : Shape}
    (hi : i.toNat < m.toNat) (hT : T.LiesAt tree i) : T.LiesAt tree' i := by
  induction T generalizing i with
  | leaf sym => rw [Shape.LiesAt, hs i hi]; exact hT
  | node L R ihL ihR =>
    obtain ⟨n, hn, hleaf, hL, hR⟩ := hT
    have hl := (h.child_lt hi ⟨n, hn, hleaf, rfl⟩ : _ ∧ (n.child false).toNat < _).2
    have hr := (h.child_lt hi ⟨n, hn, hleaf, rfl⟩ : _ ∧ (n.child true).toNat < _).2
    exact ⟨n, (hs i hi).trans hn, hleaf, ihL (hl.trans hi) hL, ihR (hr.trans hi) hR⟩

/-! One round: `x` and `y` are the two least of the live entries. -/

section
variable (h : Merging freq tree (x :: y :: rest) m)
include h

theorem next_le : m.toNat ≤ 510 := by
  have := h.count
  simp only [List.length_cons] at this
  omega

theorem toNat_next : (m + 1).toNat = m.toNat + 1 := by
  have := h.next_le
  rw [BitVec.toNat_add]
  show (m.toNat + 1) % 512 = _
  omega

theorem sameBelow_joinTree : SameBelow m.toNat tree (joinTree tree m x y) :=
  sameBelow_setNode (Nat.lt_succ_of_le h.next_le) _

theorem nodeAt_joinTree : nodeAt (joinTree tree m x y) m = some ⟨false, 0, x.n, y.n, x.w + y.w⟩ := by
  rw [joinTree, nodeAt_setNode (Nat.lt_succ_of_le h.next_le), if_pos rfl]

theorem toNat_joinWeight : (x.w + y.w).toNat = x.w.toNat + y.w.toNat := by
  have htotal := h.total
  have hlt := totalCount_lt freq
  simp only [liveWeight, List.map_cons, List.sum_cons] at htotal
  rw [BitVec.toNat_add]
  omega

theorem weightAt_joinTree : weightAt (joinTree tree m x y) m = x.w.toNat + y.w.toNat := by
  rw [weightAt_of_nodeAt h.nodeAt_joinTree]
  exact h.toNat_joinWeight

theorem written_least :
    (x.n.toNat < m.toNat ∧ x.w.toNat = weightAt tree x.n) ∧ (y.n.toNat < m.toNat ∧ y.w.toNat = weightAt tree y.n) :=
  ⟨h.written x (by simp), h.written y (by simp)⟩

theorem childAt_joinTree_iff (hk : k.toNat < (m + 1).toNat) :
    ChildAt (joinTree tree m x y) k b j ↔
      k = m ∧ j = (if b then y.n else x.n) ∨ k.toNat < m.toNat ∧ ChildAt tree k b j := by
  rw [h.toNat_next] at hk
  by_cases hkm : k = m
  · subst hkm
    simp only [ChildAt, h.nodeAt_joinTree, Option.some.injEq, exists_eq_left', Node.child, true_and, lt_irrefl,
      false_and, or_false]
    exact eq_comm
  · have hlt : k.toNat < m.toNat := by
      have : k.toNat ≠ m.toNat := fun hn => hkm (BitVec.eq_of_toNat_eq hn)
      omega
    simp [h.sameBelow_joinTree.childAt_iff hlt, hkm, hlt]

theorem toNat_lt_of_ne (hi : i.toNat < (m + 1).toNat) (hne : i ≠ m) : i.toNat < m.toNat := by
  have : i.toNat ≠ m.toNat := fun hn => hne (BitVec.eq_of_toNat_eq hn)
  have := h.toNat_next
  omega

theorem node_ne_of_distinct : x.n ≠ y.n ∧ ∀ e ∈ rest, x.n ≠ e.n ∧ y.n ≠ e.n := by
  have hd := h.distinct
  simp only [List.map_cons, List.nodup_cons, List.mem_cons, not_or, List.mem_map, not_exists, not_and] at hd
  exact ⟨hd.1.1, fun e he => ⟨fun hn => hd.1.2 e he hn.symm, fun hn => hd.2.1 e he hn.symm⟩⟩

theorem covered_joinTree (hj : j.toNat < (m + 1).toNat) :
    (∃ e ∈ joinEntry m x y :: rest, e.n = j) ∨
      ∃ k b, k.toNat < (m + 1).toNat ∧ ChildAt (joinTree tree m x y) k b j := by
  have hm : m.toNat < (m + 1).toNat := by rw [h.toNat_next]; exact Nat.lt_succ_self _
  by_cases hne : j = m
  · exact .inl ⟨_, List.mem_cons_self, hne.symm⟩
  obtain ⟨e, he, rfl⟩ | ⟨k, b, hk, hc⟩ := h.covered j (h.toNat_lt_of_ne hj hne)
  · obtain rfl | he := List.mem_cons.mp he
    · exact .inr ⟨m, false, hm, (h.childAt_joinTree_iff hm).mpr (.inl ⟨rfl, rfl⟩)⟩
    obtain rfl | he := List.mem_cons.mp he
    · exact .inr ⟨m, true, hm, (h.childAt_joinTree_iff hm).mpr (.inl ⟨rfl, rfl⟩)⟩
    · exact .inl ⟨e, List.mem_cons_of_mem _ he, rfl⟩
  · exact .inr ⟨k, b, hk.trans hm, (h.childAt_joinTree_iff (hk.trans hm)).mpr (.inr ⟨hk, hc⟩)⟩

theorem orphan_joinTree (he : e ∈ joinEntry m x y :: rest) (hk : k.toNat < (m + 1).toNat) :
    ¬ ChildAt (joinTree tree m x y) k b e.n := by
  obtain ⟨⟨hxm, -⟩, hym, -⟩ := h.written_least
  rw [h.childAt_joinTree_iff hk]
  rintro (⟨-, hn⟩ | ⟨hk, hc⟩) <;> obtain rfl | he := List.mem_cons.mp he
  · have : m = if b then y.n else x.n := hn
    split at this <;> (rw [this] at hxm hym; omega)
  · obtain ⟨hx, hy⟩ := h.node_ne_of_distinct.2 e he
    split at hn
    · exact hy hn.symm
    · exact hx hn.symm
  · exact absurd (h.child_lt hk hc).2 (Nat.lt_asymm hk)
  · exact h.orphan e (by simp [he]) k b hk hc

theorem not_childAt_joined (c : Bit) (hk : k.toNat < m.toNat) (b : Bit) :
    ¬ ChildAt tree k b (if c then y.n else x.n) := by
  cases c
  · exact h.orphan x (by simp) k b hk
  · exact h.orphan y (by simp) k b hk

theorem oneParent_joinTree {k' : NodeIndex} {b' : Bit} (hk : k.toNat < (m + 1).toNat)
    (hk' : k'.toNat < (m + 1).toNat) (hc : ChildAt (joinTree tree m x y) k b j)
    (hc' : ChildAt (joinTree tree m x y) k' b' j) : k' = k ∧ b' = b := by
  rw [h.childAt_joinTree_iff hk] at hc
  rw [h.childAt_joinTree_iff hk'] at hc'
  obtain ⟨rfl, rfl⟩ | ⟨hk, hc⟩ := hc <;> obtain ⟨rfl, hj⟩ | ⟨hk', hc'⟩ := hc'
  · have hne := h.node_ne_of_distinct.1
    cases b <;> cases b'
    · exact ⟨rfl, rfl⟩
    · exact absurd hj hne
    · exact absurd hj.symm hne
    · exact ⟨rfl, rfl⟩
  · exact absurd hc' (h.not_childAt_joined b hk' b')
  · exact absurd (hj ▸ hc) (h.not_childAt_joined b' hk b)
  · exact h.oneParent k b k' b' j hk hk' hc hc'

theorem monotone_joinTree (hi : 256 ≤ i.toNat) (hij : i.toNat ≤ j.toNat) (hj : j.toNat < (m + 1).toNat) :
    weightAt (joinTree tree m x y) i ≤ weightAt (joinTree tree m x y) j := by
  have hsame := h.sameBelow_joinTree
  by_cases hjm : j = m
  · subst hjm
    by_cases him : i = j
    · rw [him]
    have hlt := h.toNat_lt_of_ne (hij.trans_lt hj) him
    obtain ⟨l, r, hjoin⟩ := h.joined i hi hlt
    have hl := h.heavier x (by simp) i false l hlt hjoin.childAt_left
    have hr := h.heavier y (by simp) i true r hlt hjoin.childAt_right
    rw [hsame.weightAt_eq hlt, h.weightAt_joinTree, hjoin.weight]
    omega
  · have hlt := h.toNat_lt_of_ne hj hjm
    rw [hsame.weightAt_eq hlt, hsame.weightAt_eq (hij.trans_lt hlt)]
    exact h.monotone i j hi hij hlt

theorem shapes_joinTree : ∃ shape : NodeIndex → Shape,
    (∀ i, i.toNat < (m + 1).toNat → (shape i).LiesAt (joinTree tree m x y) i) ∧
    (liveSymbols shape (joinEntry m x y :: rest)).Perm allSymbols := by
  obtain ⟨shape, hshape, hsym⟩ := h.shapes
  obtain ⟨⟨hxm, -⟩, hym, -⟩ := h.written_least
  have hlies : ∀ i, i.toNat < m.toNat → (shape i).LiesAt (joinTree tree m x y) i := fun i hi =>
    h.liesAt_of_sameBelow h.sameBelow_joinTree hi (hshape i hi)
  refine ⟨Function.update shape m (.node (shape x.n) (shape y.n)), fun i hi => ?_, ?_⟩
  · by_cases hne : i = m
    · rw [hne, Function.update_self]
      exact ⟨_, h.nodeAt_joinTree, rfl, hlies _ hxm, hlies _ hym⟩
    · rw [Function.update_of_ne hne]
      exact hlies i (h.toNat_lt_of_ne hi hne)
  · have hrest : ∀ e ∈ rest, Function.update shape m (.node (shape x.n) (shape y.n)) e.n = shape e.n := fun e he => by
      refine Function.update_of_ne ?_ _ _
      rintro rfl
      exact lt_irrefl _ (h.written e (by simp [he])).1
    have hflat : liveSymbols (Function.update shape m (.node (shape x.n) (shape y.n))) rest =
        liveSymbols shape rest := List.flatMap_congr fun e he => by rw [hrest e he]
    have hjoin : liveSymbols (Function.update shape m (.node (shape x.n) (shape y.n))) (joinEntry m x y :: rest) =
        liveSymbols shape (x :: y :: rest) := by
      rw [liveSymbols, List.flatMap_cons, ← liveSymbols, hflat]
      simp [liveSymbols, joinEntry]
    rw [hjoin]
    exact hsym

variable (hxy : x.key ≤ y.key) (hrest : ∀ e ∈ rest, y.key ≤ e.key)
include hxy hrest

theorem joins_joinTree : Joins (joinTree tree m x y) m x.n y.n := by
  obtain ⟨⟨hxm, hxw⟩, hym, hyw⟩ := h.written_least
  obtain ⟨hne, hneRest⟩ := h.node_ne_of_distinct
  have hsame := h.sameBelow_joinTree
  refine ⟨⟨_, h.nodeAt_joinTree⟩, ⟨hxm, hym⟩, ?_, ?_, fun j hj => ?_⟩
  · rw [h.weightAt_joinTree, hsame.weightAt_eq hxm, hsame.weightAt_eq hym, hxw, hyw]
  · rw [hsame.rank_eq hxm, hsame.rank_eq hym, ← h.key_eq_rank (by simp), ← h.key_eq_rank (by simp)]
    exact lt_of_le_of_ne hxy fun hk => hne (congrArg (·.n) (key_injective hk))
  · rw [hsame.rank_eq hym, hsame.rank_eq hj]
    obtain ⟨e, he, rfl⟩ | ⟨k, b, hk, hc⟩ := h.covered j hj
    · obtain rfl | he' := List.mem_cons.mp he
      · exact .inl rfl
      obtain rfl | he' := List.mem_cons.mp he'
      · exact .inr (.inl rfl)
      · rw [← h.key_eq_rank he, ← h.key_eq_rank (show y ∈ x :: y :: rest by simp)]
        exact .inr (.inr (.inr (lt_of_le_of_ne (hrest e he') fun hk =>
          (hneRest e he').2 (congrArg (·.n) (key_injective hk)))))
    · exact .inr (.inr (.inl ⟨k, b, hk, (hsame.childAt_iff hk).mpr hc⟩))

theorem heavier_joinTree (he : e ∈ joinEntry m x y :: rest) (hk : k.toNat < (m + 1).toNat)
    (hc : ChildAt (joinTree tree m x y) k b j) : weightAt (joinTree tree m x y) j ≤ e.w.toNat := by
  obtain ⟨⟨hxm, hxw⟩, hym, hyw⟩ := h.written_least
  have hsame := h.sameBelow_joinTree
  have hxyw := weight_le_of_key_le hxy
  have hsum : (joinEntry m x y).w.toNat = x.w.toNat + y.w.toNat := h.toNat_joinWeight
  have hyw' : y.w.toNat ≤ e.w.toNat := by
    obtain rfl | he := List.mem_cons.mp he
    · omega
    · exact weight_le_of_key_le (hrest e he)
  obtain ⟨-, rfl⟩ | ⟨hk, hc⟩ := (h.childAt_joinTree_iff hk).mp hc
  · cases b
    · rw [if_neg Bool.false_ne_true, hsame.weightAt_eq hxm]
      omega
    · rw [if_pos rfl, hsame.weightAt_eq hym]
      omega
  · rw [hsame.weightAt_eq ((h.child_lt hk hc).2.trans hk)]
    exact (h.heavier y (by simp) k b j hk hc).trans hyw'

/-- A round keeps what holds before it (42_tree.md R154, R157). -/
theorem merging_joinTree : Merging freq (joinTree tree m x y) (joinEntry m x y :: rest) (m + 1) := by
  have hsame := h.sameBelow_joinTree
  have hnext := h.toNat_next
  have hlive : ∀ e ∈ rest, e ∈ x :: y :: rest := fun e he => by simp [he]
  have hcount := h.count
  have hstarted := h.started
  have htotal := h.total
  have hw := h.toNat_joinWeight
  have hdistinct := h.distinct
  simp only [List.map_cons, List.nodup_cons] at hdistinct
  exact
    { count := by
        simp only [List.length_cons] at hcount ⊢
        omega
      started := by omega
      leaves := fun sym => by
        rw [hsame _ (by have := toNat_leafIndex_lt sym; omega)]
        exact h.leaves sym
      joined := fun i hi him => by
        by_cases hne : i = m
        · exact ⟨x.n, y.n, by rw [hne]; exact h.joins_joinTree hxy hrest⟩
        · obtain ⟨l, r, hj⟩ := h.joined i hi (h.toNat_lt_of_ne him hne)
          exact ⟨l, r, hsame.joins (h.toNat_lt_of_ne him hne) hj⟩
      distinct := by
        refine List.nodup_cons.mpr ⟨fun hmem => ?_, hdistinct.2.2⟩
        obtain ⟨e, he, hn⟩ := List.mem_map.mp hmem
        have hlt := (h.written e (hlive e he)).1
        rw [hn] at hlt
        exact lt_irrefl _ hlt
      written := fun e he => by
        obtain rfl | he := List.mem_cons.mp he
        · exact ⟨by show m.toNat < _; omega, hw.trans h.weightAt_joinTree.symm⟩
        · obtain ⟨hlt, hwe⟩ := h.written e (hlive e he)
          exact ⟨by omega, by rw [hsame.weightAt_eq hlt, hwe]⟩
      covered := fun j => h.covered_joinTree
      orphan := fun e he k b => h.orphan_joinTree he
      oneParent := fun k b k' b' j => h.oneParent_joinTree
      total := by
        simp only [liveWeight, joinEntry, List.map_cons, List.sum_cons] at htotal ⊢
        omega
      heavier := fun e he k b j => h.heavier_joinTree hxy hrest he
      monotone := fun i j => h.monotone_joinTree
      shapes := h.shapes_joinTree }

end

end Merging

/-! ### What `TBUILD` leaves (42_tree.md R154, R157) -/

/-- A merge round joins the two least entries of an ordered heap and keeps it ordered (42_tree.md R153, R154). -/
theorem mergeStep_joins {b b' : Builder} (ho : HeapOrdered b.heap) (h : mergeStep b = some b') :
    ∃ x y rest, b.heap.Perm (x :: y :: rest) ∧ x.key ≤ y.key ∧ (∀ e ∈ rest, y.key ≤ e.key) ∧
      b'.tree = joinTree b.tree b.nextIdx x y ∧ b'.nextIdx = b.nextIdx + 1 ∧ HeapOrdered b'.heap ∧
      b'.heap.Perm (joinEntry b.nextIdx x y :: rest) := by
  obtain ⟨x, y, h1, rest, hx, hy, rfl, -⟩ := mergeStep_eq_some h
  obtain ⟨hperm, ho1, hxleast⟩ := heapExtractMin_least ho hx
  obtain ⟨hperm1, ho2, hyleast⟩ := heapExtractMin_least ho1 hy
  refine ⟨x, y, rest, hperm.trans (hperm1.cons x), ?_, fun e he => ?_, rfl, rfl, heapInsert_ordered ho2 _,
    heapInsert_perm rest _⟩
  · exact hxleast y (hperm.mem_iff.mpr (List.mem_cons_of_mem _ (hperm1.mem_iff.mpr List.mem_cons_self)))
  · exact hyleast e (hperm1.mem_iff.mpr (List.mem_cons_of_mem _ he))

/-- What a round keeps, the merge loop keeps. -/
theorem mergeLoop_induction {P : Builder → Prop} (hstep : ∀ b b', P b → mergeStep b = some b' → P b') (n : Nat)
    {b : Builder} (h : P b) : P (mergeLoop n b) := by
  induction n generalizing b with
  | zero => exact h
  | succ n ih =>
    rw [mergeLoop]
    split
    · rename_i b' hb
      exact ih (hstep b b' h hb)
    · exact h

/-- The loop ends with one live entry when the heap is no larger than its bound. -/
theorem length_mergeLoop {n : Nat} {b : Builder} (h : b.heap.length ≤ n + 1) :
    (mergeLoop n b).heap.length ≤ 1 := by
  induction n generalizing b with
  | zero => exact h
  | succ n ih =>
    rw [mergeLoop]
    split
    · rename_i b' hb
      obtain ⟨-, -, -, -, -, -, -, hlen⟩ := mergeStep_eq_some hb
      exact ih (by omega)
    · rename_i hb
      exact mergeStep_eq_none.mp hb

/-- The state of `TBUILD` before a round. -/
def RoundInv (freq : FreqRam) (b : Builder) : Prop := HeapOrdered b.heap ∧ Merging freq b.tree b.heap b.nextIdx

theorem roundInv_mergeStep {b b' : Builder} (h : RoundInv freq b) (hb : mergeStep b = some b') :
    RoundInv freq b' := by
  obtain ⟨x, y, rest, hperm, hxy, hrest, htree, hnext, ho, hperm'⟩ := mergeStep_joins h.1 hb
  refine ⟨ho, ?_⟩
  rw [htree, hnext]
  exact ((h.2.perm hperm).merging_joinTree hxy hrest).perm hperm'.symm

/-! The seeding loop (42_tree.md R154). -/

theorem heap_seedLeaves (l : List Symbol) {b : Builder} (ho : HeapOrdered b.heap) :
    HeapOrdered (l.foldl (seedLeaf freq) b).heap ∧
      (l.foldl (seedLeaf freq) b).heap.Perm (l.map (leafEntry freq) ++ b.heap) ∧
      (l.foldl (seedLeaf freq) b).nextIdx = b.nextIdx := by
  induction l generalizing b with
  | nil => exact ⟨ho, List.Perm.refl _, rfl⟩
  | cons sym l ih =>
    obtain ⟨ho', hperm, hnext⟩ := ih (b := seedLeaf freq b sym) (heapInsert_ordered ho _)
    refine ⟨ho', hperm.trans ?_, hnext⟩
    exact ((heapInsert_perm b.heap (leafEntry freq sym)).append_left _).trans List.perm_middle

theorem nodeAt_seedLeaves (l : List Symbol) {b : Builder}
    (h : sym ∈ l ∨ nodeAt b.tree (leafIndex sym) = some (leafNode freq sym)) :
    nodeAt (l.foldl (seedLeaf freq) b).tree (leafIndex sym) = some (leafNode freq sym) := by
  induction l generalizing b with
  | nil => exact h.resolve_left List.not_mem_nil
  | cons s l ih =>
    refine ih ?_
    have hs : (leafIndex s).toNat < 511 := (toNat_leafIndex_lt s).trans (by decide)
    by_cases hsym : sym = s
    · subst hsym
      exact .inr ((nodeAt_setNode hs).trans (if_pos rfl))
    · refine h.imp (fun hm => (List.mem_cons.mp hm).resolve_left hsym) fun hn => ?_
      exact ((nodeAt_setNode hs).trans (if_neg fun heq => hsym (leafIndex_injective heq))).trans hn

theorem merging_of_leaves (hleaves : ∀ sym, nodeAt tree (leafIndex sym) = some (leafNode freq sym)) :
    Merging freq tree (allSymbols.map (leafEntry freq)) 256 := by
  have hno : ∀ {k b j}, k.toNat < (256 : NodeIndex).toNat → ¬ ChildAt tree k b j := by
    rintro k b j hk ⟨n, hn, hleaf, -⟩
    obtain ⟨sym, rfl⟩ := exists_leafIndex hk
    rw [hleaves] at hn
    cases hn
    cases hleaf
  exact
    { count := by rw [List.length_map, length_allSymbols]; rfl
      started := le_rfl
      leaves := hleaves
      joined := fun i hi hlt => absurd hlt hi.not_gt
      distinct := by
        rw [List.map_map]
        exact nodup_allSymbols.map leafIndex_injective
      written := fun e he => by
        obtain ⟨sym, -, rfl⟩ := List.mem_map.mp he
        exact ⟨toNat_leafIndex_lt sym, (weightAt_of_nodeAt (hleaves sym)).symm⟩
      covered := fun j hj => by
        obtain ⟨sym, rfl⟩ := exists_leafIndex hj
        exact .inl ⟨leafEntry freq sym, List.mem_map_of_mem (mem_allSymbols sym), rfl⟩
      orphan := fun _ _ _ _ hk => hno hk
      oneParent := fun _ _ _ _ _ hk _ hc => absurd hc (hno hk)
      total := by rw [liveWeight, List.map_map]; rfl
      heavier := fun _ _ _ _ _ hk hc => absurd hc (hno hk)
      monotone := fun i j hi hij hj => absurd hj (hi.trans hij).not_gt
      shapes := by
        refine ⟨fun i => .leaf (i.setWidth 8), fun i hi => ?_, ?_⟩
        · obtain ⟨sym, rfl⟩ := exists_leafIndex hi
          refine ⟨_, hleaves sym, rfl, ?_⟩
          exact (setWidth_leafIndex sym).symm
        · rw [liveSymbols, List.flatMap_map]
          simp [leafEntry, setWidth_leafIndex] }

theorem seedBuilder_heap (freq : FreqRam) (tree : TreeRam) :
    HeapOrdered (seedBuilder freq tree).heap ∧
      (seedBuilder freq tree).heap.Perm (allSymbols.map (leafEntry freq)) ∧ (seedBuilder freq tree).nextIdx = 256 := by
  have hempty : HeapOrdered [] := fun _ _ _ _ hx => nomatch hx
  have h := heap_seedLeaves (freq := freq) allSymbols (b := ⟨tree, [], Config.firstInternal⟩) hempty
  rwa [List.append_nil] at h

theorem roundInv_seedBuilder (freq : FreqRam) (tree : TreeRam) : RoundInv freq (seedBuilder freq tree) := by
  obtain ⟨ho, hperm, hnext⟩ := seedBuilder_heap freq tree
  refine ⟨ho, ?_⟩
  rw [hnext]
  exact (merging_of_leaves fun sym => nodeAt_seedLeaves allSymbols (.inl (mem_allSymbols sym))).perm hperm.symm

/-- The tree that `TBUILD` leaves: one entry is live, that of node 510. -/
structure Built (freq : FreqRam) (b : Builder) : Prop where
  heap : ∃ w, b.heap = [⟨w, 510⟩]
  next : b.nextIdx = 511
  merging : Merging freq b.tree b.heap 511

theorem built_of_roundInv {b : Builder} (h : RoundInv freq b) (hlen : b.heap.length ≤ 1) : Built freq b := by
  obtain ⟨-, h⟩ := h
  have hcount := h.count
  have hnext : b.nextIdx = 511 := BitVec.eq_of_toNat_eq (by
    have := b.nextIdx.isLt
    show b.nextIdx.toNat = 511
    omega)
  rw [hnext] at h
  refine ⟨?_, hnext, h⟩
  rw [hnext] at hcount
  obtain ⟨e, he⟩ := List.length_eq_one_iff.mp (Nat.add_right_cancel hcount : b.heap.length = 1)
  rw [he] at h ⊢
  obtain ⟨e', he', hn⟩ | ⟨k, c, hk, hc⟩ := h.covered 510 (by decide)
  · obtain rfl := List.mem_singleton.mp he'
    exact ⟨e'.w, by rw [← hn]⟩
  · have := (h.child_lt hk hc).2
    have hk : k.toNat < 511 := hk
    have : (510 : NodeIndex).toNat = 510 := rfl
    omega

/-- What `TBUILD` builds (42_tree.md R157). -/
theorem built_buildTree (freq : FreqRam) (tree : TreeRam) : Built freq (buildTree freq tree) :=
  built_of_roundInv (mergeLoop_induction (fun _ _ => roundInv_mergeStep) _ (roundInv_seedBuilder freq tree))
    (length_mergeLoop (by rw [length_heap_seedBuilder]; decide))

end Sys2Proof.Machine

namespace Sys2Proof.Machine

/-! ### The command `TBUILD` (42_tree.md R154, R157) -/

open Sys2Proof.Safety

variable {s t u v : State} {freq : FreqRam} {tree : TreeRam} {w : Weight} {i j : NodeIndex} {sym : Symbol}

/-- A finished tree: the merge loop has joined all nodes below 510, which alone is live. -/
abbrev Finished (freq : FreqRam) (tree : TreeRam) (w : Weight) : Prop := Merging freq tree [⟨w, 510⟩] 511

/-- The state after `TBUILD` has left this tree. -/
def State.withBuilt (s : State) (tree : TreeRam) (w : Weight) : State :=
  { s with fl := true, tv := true, root := 510, cur := 510, nextIdx := 511, heap := [⟨w, 510⟩], tree := tree }

@[simp] theorem State.withBuilt_tree (s : State) (tree : TreeRam) (w : Weight) : (s.withBuilt tree w).tree = tree := rfl

theorem bodyTbuild_built (hfl : s.fl = false) :
    ∃ w, Finished s.freq (buildTree s.freq s.tree).tree w ∧
      bodyTbuild s = .done () (s.withBuilt (buildTree s.freq s.tree).tree w) := by
  obtain ⟨⟨w, hheap⟩, hnext, hm⟩ := built_buildTree s.freq s.tree
  rw [hheap] at hm
  refine ⟨w, hm, (bodyTbuild_done hfl).trans ?_⟩
  rw [hheap, hnext]
  rfl

theorem exec_tbuild_built (hs : Running s) (hfl : s.fl = false) :
    ∃ tree w, Finished s.freq tree w ∧ exec .tbuild s = .next (s.withBuilt tree w) := by
  obtain ⟨w, hm, hb⟩ := bodyTbuild_built hfl
  exact ⟨_, w, hm, runCommand_done hs hb⟩

theorem exec_tbuild_eq_next (hs : Running s) (hfl : s.fl = false) (h : exec .tbuild s = .next t) :
    ∃ tree w, Finished s.freq tree w ∧ t = s.withBuilt tree w := by
  obtain ⟨tree, w, hm, hb⟩ := exec_tbuild_built hs hfl
  rw [hb] at h
  cases h
  exact ⟨tree, w, hm, rfl⟩

namespace Merging

variable {live : List HeapEntry} {m : NodeIndex} {n : Node}

/-- Every entry below `NEXT` is written (42_tree.md R157 b). -/
theorem exists_node (h : Merging freq tree live m) (hi : i.toNat < m.toNat) : ∃ n, nodeAt tree i = some n := by
  by_cases hleaf : i.toNat < 256
  · obtain ⟨sym, rfl⟩ := exists_leafIndex hleaf
    exact ⟨_, h.leaves sym⟩
  · obtain ⟨l, r, hj⟩ := h.joined i (by omega) hi
    obtain ⟨w, hn⟩ := hj.node
    exact ⟨_, hn⟩

/-- Every node but 510 has a parent (42_tree.md R157 d). -/
theorem exists_parent (h : Finished freq tree w) (hj : j.toNat < 510) : ∃ k b, k.toNat < 511 ∧ ChildAt tree k b j := by
  obtain ⟨e, he, hn⟩ | hp := h.covered j (hj.trans (by decide))
  · rw [List.mem_singleton.mp he] at hn
    rw [← hn] at hj
    exact absurd hj (lt_irrefl 510)
  · exact hp

/-- The finished tree has every symbol at one leaf (42_tree.md R157). -/
theorem treeOk (h : Finished freq tree w) : TreeOk tree 510 := by
  obtain ⟨shape, hshape, hsym⟩ := h.shapes
  refine treeOk_iff.mpr ⟨shape 510, hshape 510 (by decide), ?_⟩
  rwa [liveSymbols, List.flatMap_singleton] at hsym

end Merging

/-! `TBUILD` depends on the counts alone (42_tree.md R157 i): in two runs with the same counts the heaps are the
same, and so are all entries written so far. -/

/-- Two states of `TBUILD` with the same heap and the same entries below `NEXT`. -/
def SameBuild (b c : Builder) : Prop :=
  b.heap = c.heap ∧ b.nextIdx = c.nextIdx ∧
    ∀ i : NodeIndex, i.toNat < b.nextIdx.toNat → nodeAt b.tree i = nodeAt c.tree i

theorem tree_eq_of_nodeAt {tree tree' : TreeRam} (h : ∀ i : NodeIndex, i.toNat < 511 → nodeAt tree i = nodeAt tree' i) :
    tree = tree' := by
  refine Vector.ext fun k hk => ?_
  have hi : (BitVec.ofNat 9 k).toNat = k := Nat.mod_eq_of_lt (hk.trans (by decide))
  have := h (BitVec.ofNat 9 k) (by rw [hi]; exact hk)
  simpa [nodeAt, hi, hk] using this

theorem heap_seedLeaves_eq (freq : FreqRam) (l : List Symbol) (b : Builder) :
    (l.foldl (seedLeaf freq) b).heap = l.foldl (fun h sym => heapInsert h (leafEntry freq sym)) b.heap := by
  induction l generalizing b with
  | nil => rfl
  | cons sym l ih => exact ih _

theorem sameBuild_seedBuilder (freq : FreqRam) (tree tree' : TreeRam) :
    SameBuild (seedBuilder freq tree) (seedBuilder freq tree') := by
  have hb := roundInv_seedBuilder freq tree
  have hc := roundInv_seedBuilder freq tree'
  have hnext := fun tree => (seedBuilder_heap freq tree).2.2
  refine ⟨?_, (hnext tree).trans (hnext tree').symm, fun i hi => ?_⟩
  · simp only [seedBuilder, heap_seedLeaves_eq]
  · rw [hnext] at hi
    obtain ⟨sym, rfl⟩ := exists_leafIndex hi
    rw [hb.2.leaves, hc.2.leaves]

theorem SameBuild.mergeStep {b b' c : Builder} (h : SameBuild b c) (hb : mergeStep b = some b') :
    ∃ c', Machine.mergeStep c = some c' ∧ SameBuild b' c' := by
  obtain ⟨hheap, hnext, hnode⟩ := h
  obtain ⟨x, y, h1, h2, hx, hy, rfl, -⟩ := mergeStep_eq_some hb
  refine ⟨_, by simp only [Machine.mergeStep, ← hheap, hx, hy]; rfl, by rw [← hnext], by rw [← hnext], fun i hi => ?_⟩
  rw [← hnext]
  by_cases hm : b.nextIdx.toNat < 511
  · rw [nodeAt_setNode hm, nodeAt_setNode hm]
    split
    · rfl
    · rename_i hne
      refine hnode i ?_
      have : i.toNat ≠ b.nextIdx.toNat := fun hn => hne (BitVec.eq_of_toNat_eq hn)
      have hi : i.toNat < (b.nextIdx + 1).toNat := hi
      rw [BitVec.toNat_add] at hi
      have : (1 : NodeIndex).toNat = 1 := rfl
      omega
  · have hi : i.toNat < (b.nextIdx + 1).toNat := hi
    rw [BitVec.toNat_add] at hi
    have : (1 : NodeIndex).toNat = 1 := rfl
    have := b.nextIdx.isLt
    omega

theorem SameBuild.mergeLoop (n : Nat) {b c : Builder} (h : SameBuild b c) :
    SameBuild (mergeLoop n b) (Machine.mergeLoop n c) := by
  induction n generalizing b c with
  | zero => exact h
  | succ n ih =>
    rw [Machine.mergeLoop, Machine.mergeLoop]
    cases hb : Machine.mergeStep b with
    | none =>
      have hc : Machine.mergeStep c = none := by
        rw [mergeStep_eq_none, ← h.1]
        exact mergeStep_eq_none.mp hb
      rw [hc]
      exact h
    | some b' =>
      obtain ⟨c', hc, h'⟩ := h.mergeStep hb
      rw [hc]
      exact ih h'

theorem buildTree_eq_of_freq (freq : FreqRam) (tree tree' : TreeRam) : buildTree freq tree = buildTree freq tree' := by
  obtain ⟨hheap, hnext, hnode⟩ := (sameBuild_seedBuilder freq tree tree').mergeLoop Config.heapCap
  have htree : (buildTree freq tree).tree = (buildTree freq tree').tree := tree_eq_of_nodeAt fun i hi =>
    hnode i (by rw [show (Machine.mergeLoop _ _).nextIdx = 511 from (built_buildTree freq tree).next]; exact hi)
  have heta : ∀ b : Builder, b = ⟨b.tree, b.heap, b.nextIdx⟩ := fun _ => rfl
  rw [heta (buildTree freq tree), heta (buildTree freq tree'), htree]
  exact congrArg₂ (Builder.mk _) hheap hnext

/-! One symbol counted (42_tree.md R160 e): its leaf is taken from the heap in the last round, as the second. -/

/-- The leaf of the symbol is live, or it is the right child of the root. -/
def LeafWaits (freq : FreqRam) (sym : Symbol) (b : Builder) : Prop :=
  leafEntry freq sym ∈ b.heap ∨ b.heap.length ≤ 1 ∧ ChildAt b.tree 510 true (leafIndex sym)

theorem leafWaits_mergeStep {b b' : Builder} (h : RoundInv freq b) (hpos : 0 < (countWeight freq sym).toNat)
    (htotal : totalCount freq = (countWeight freq sym).toNat) (hwait : LeafWaits freq sym b)
    (hb : mergeStep b = some b') : LeafWaits freq sym b' := by
  obtain ⟨x, y, rest, hperm, hxy, hrest, htree, hnext, -, hperm'⟩ := mergeStep_joins h.1 hb
  have hm := h.2.perm hperm
  have hmem : leafEntry freq sym ∈ x :: y :: rest := by
    obtain hmem | ⟨hlen, -⟩ := hwait
    · exact hperm.mem_iff.mp hmem
    · rw [mergeStep_eq_none.mpr hlen] at hb
      cases hb
  have hsum : x.w.toNat + (y.w.toNat + liveWeight rest) = (countWeight freq sym).toNat := by
    rw [← htotal, ← hm.total]
    simp [liveWeight]
  have hweight : (leafEntry freq sym).w.toNat = (countWeight freq sym).toNat := rfl
  obtain hx | hmem := List.mem_cons.mp hmem
  · have := weight_le_of_key_le hxy
    rw [hx] at hweight
    omega
  obtain hy | hmem := List.mem_cons.mp hmem
  · cases hrest' : rest with
    | nil =>
      rw [hrest'] at hm hperm'
      have hm510 : b.nextIdx = 510 := BitVec.eq_of_toNat_eq (Nat.add_left_cancel hm.count)
      refine .inr ⟨hperm'.length_eq.le, ?_⟩
      rw [htree, show leafIndex sym = y.n from congrArg (·.n) hy, ← hm510]
      exact ⟨_, hm.nodeAt_joinTree, rfl, rfl⟩
    | cons e rest' =>
      have := weight_le_of_key_le (hrest e (by simp [hrest']))
      rw [hrest', liveWeight, List.map_cons, List.sum_cons] at hsum
      rw [hy] at hweight
      omega
  · exact .inl (hperm'.mem_iff.mpr (List.mem_cons_of_mem _ hmem))

/-- With one symbol counted the root's right child is its leaf. -/
theorem right_of_lone (tree : TreeRam) (hpos : 0 < (countWeight freq sym).toNat)
    (htotal : totalCount freq = (countWeight freq sym).toNat) :
    ChildAt (buildTree freq tree).tree 510 true (leafIndex sym) := by
  have hstart : LeafWaits freq sym (seedBuilder freq tree) :=
    .inl ((seedBuilder_heap freq tree).2.1.mem_iff.mpr (List.mem_map_of_mem (mem_allSymbols sym)))
  have hloop : LeafWaits freq sym (buildTree freq tree) :=
    (mergeLoop_induction (P := fun b => RoundInv freq b ∧ LeafWaits freq sym b)
      (fun b b' h hb => ⟨roundInv_mergeStep h.1 hb, leafWaits_mergeStep h.1 hpos htotal h.2 hb⟩) Config.heapCap
      ⟨roundInv_seedBuilder freq tree, hstart⟩).2
  obtain ⟨w, hheap⟩ := (built_buildTree freq tree).heap
  obtain hmem | ⟨-, hc⟩ := hloop
  · rw [hheap, List.mem_singleton] at hmem
    have hlt := toNat_leafIndex_lt sym
    rw [show leafIndex sym = 510 from congrArg (·.n) hmem] at hlt
    exact absurd hlt (by decide)
  · exact hc

theorem totalCount_of_lone (h : ∀ x, x ≠ sym → (countWeight freq x).toNat = 0) :
    totalCount freq = (countWeight freq sym).toNat := by
  rw [totalCount, List.sum_map_eq_nsmul_single sym _ fun x hx _ => h x hx,
    List.count_eq_one_of_mem nodup_allSymbols (mem_allSymbols sym), one_smul]

/-- A symbol whose leaf is the root's right child has the path 1. -/
theorem pathIs_of_right {root : NodeIndex} (hok : TreeOk tree root) (hc : ChildAt tree root true (leafIndex sym))
    (hleaf : nodeAt tree (leafIndex sym) = some (leafNode freq sym)) : PathIs tree root sym [true] := by
  obtain ⟨T, hT, hfull⟩ := treeOk_iff.mp hok
  obtain ⟨n, hn, hinner, hchild⟩ := hc
  have hwalk : walkFrom tree root [true] = some (leafIndex sym) := by simp [walkFrom, hn, hinner, hchild]
  obtain ⟨T', hsub, hT'⟩ := hT.of_walk hwalk
  refine (hfull.pathIs_iff hT).mpr (Shape.mem_codes_iff.mpr ?_)
  cases T' with
  | leaf x =>
    obtain ⟨n', hn', -, rfl⟩ := hT'
    rw [hleaf] at hn'
    cases hn'
    exact hsub
  | node L R =>
    obtain ⟨n', hn', hinner', -⟩ := hT'
    rw [hleaf] at hn'
    cases hn'
    cases hinner'

end Sys2Proof.Machine

namespace Sys2Proof.Proofs

open Sys2Proof.Machine Sys2Proof.Safety

/-- Settles O32: the invariant of the merge loop at its end. -/
theorem tbuildInternalNodesFormOneTree : Obligations.TbuildInternalNodesFormOneTree := by
  intro s t hs hfl ht
  obtain ⟨tree, w, hm, rfl⟩ := exec_tbuild_eq_next hs hfl ht
  refine ⟨fun i hi hi' => ?_, fun j hj => ?_, fun i j n m hi hij hn hm' => ?_⟩
  · obtain ⟨l, r, hj⟩ := hm.joined i hi (Nat.lt_succ_of_le hi')
    obtain ⟨w, hn⟩ := hj.node
    obtain ⟨hl, hr⟩ := hj.below
    obtain ⟨nl, hnl⟩ := hm.exists_node (hl.trans (Nat.lt_succ_of_le hi'))
    obtain ⟨nr, hnr⟩ := hm.exists_node (hr.trans (Nat.lt_succ_of_le hi'))
    refine ⟨_, nl, nr, hn, rfl, rfl, hl, hr, fun heq => ?_, hnl, hnr, ?_⟩
    · have hlt := hj.lesser
      rw [show l = r from heq] at hlt
      exact lt_irrefl _ hlt
    · have hw := hj.weight
      rwa [weightAt_of_nodeAt hn, weightAt_of_nodeAt hnl, weightAt_of_nodeAt hnr] at hw
  · obtain ⟨k, b, hk, hc⟩ := hm.exists_parent hj
    obtain ⟨n, hn, hleaf, hchild⟩ := id hc
    refine ⟨k, b, n, hn, hleaf, hchild, fun k' b' n' hn' hleaf' hchild' => ?_⟩
    exact hm.oneParent k b k' b' j hk (lt_of_nodeAt hn') hc ⟨n', hn', hleaf', hchild'⟩
  · rw [← weightAt_of_nodeAt hn, ← weightAt_of_nodeAt hm']
    exact hm.monotone i j hi hij (lt_of_nodeAt hm')

/-- Settles O60: when node `i` was made, a node below `i` was one of the two children, or had its parent already, or
came behind both in the order. -/
theorem tbuildMergesTheTwoLeast : Obligations.TbuildMergesTheTwoLeast := by
  intro s hs hfl
  obtain ⟨tree, w, hm, ht⟩ := exec_tbuild_built hs hfl
  refine ⟨_, ht, fun i hi hi' => ?_⟩
  have hi511 : i.toNat < (511 : NodeIndex).toNat := Nat.lt_succ_of_le hi'
  obtain ⟨l, r, hj⟩ := hm.joined i hi hi511
  obtain ⟨w, hn⟩ := hj.node
  obtain ⟨nl, hnl⟩ := hm.exists_node (hj.below.1.trans hi511)
  obtain ⟨nr, hnr⟩ := hm.exists_node (hj.below.2.trans hi511)
  refine ⟨_, nl, nr, hn, rfl, hnl, hnr, ?_, fun j k m parent b hji hik hnj hnk hleaf hchild => ?_⟩
  · have hlt := rank_lt_rank_iff.mp hj.lesser
    rwa [weightAt_of_nodeAt hnl, weightAt_of_nodeAt hnr] at hlt
  · rw [State.withBuilt_tree] at hnj
    have hc : ChildAt tree k b j := ⟨parent, hnk, hleaf, hchild⟩
    have hno : ∀ k' b', k'.toNat ≤ i.toNat → ¬ ChildAt tree k' b' j := fun k' b' hk' hc' => by
      obtain ⟨rfl, -⟩ := hm.oneParent k b k' b' j (lt_of_nodeAt hnk) (hk'.trans_lt hi511) hc hc'
      omega
    obtain rfl | rfl | ⟨k', b', hk', hc'⟩ | hlt := hj.least j hji
    · exact absurd hj.childAt_left (hno i false le_rfl)
    · exact absurd hj.childAt_right (hno i true le_rfl)
    · exact absurd hc' (hno k' b' hk'.le)
    · have hlt := rank_lt_rank_iff.mp hlt
      rwa [weightAt_of_nodeAt hnr, weightAt_of_nodeAt hnj] at hlt

/-- Settles O34: the trees below the live nodes hold each symbol once, and at the end there is one of them. -/
theorem tbuildGivesEverySymbolOnePath : Obligations.TbuildGivesEverySymbolOnePath := by
  intro s t hs hfl ht
  obtain ⟨tree, w, hm, rfl⟩ := exec_tbuild_eq_next hs hfl ht
  exact ⟨hm.treeOk, exists_path_of_treeOk hm.treeOk⟩

/-- Settles O31: the merge loop keeps the leaves and the sum of the live weights. -/
theorem tbuildWritesLeavesAndRoot : Obligations.TbuildWritesLeavesAndRoot := by
  refine ⟨rfl, fun s hs hfl => ?_⟩
  obtain ⟨tree, w, hm, ht⟩ := exec_tbuild_built hs hfl
  have hw : w.toNat = totalCount s.freq := by rw [← hm.total]; rfl
  obtain ⟨-, hroot⟩ := hm.written ⟨w, 510⟩ (by simp)
  obtain ⟨l, r, hj⟩ := hm.joined 510 (by decide) (by decide)
  obtain ⟨w', hn⟩ := hj.node
  refine ⟨_, w, ht, rfl, hm.leaves, ⟨_, hn, rfl, ?_⟩, hw.trans ?_⟩
  · rw [weightAt_of_nodeAt hn] at hroot
    exact BitVec.eq_of_toNat_eq hroot.symm
  · refine congrArg List.sum (List.map_congr_left fun sym _ => toNat_countWeight s sym)

/-- Settles O33: two runs on the same counts go round by round through the same heaps, and write every entry. -/
theorem tbuildDependsOnTheCountsAlone : Obligations.TbuildDependsOnTheCountsAlone := by
  intro s u t v hs hu hfls hflu hfreq ht hv
  rw [show exec .tbuild s = _ from runCommand_done hs (bodyTbuild_done hfls)] at ht
  rw [show exec .tbuild u = _ from runCommand_done hu (bodyTbuild_done hflu)] at hv
  cases ht
  cases hv
  rw [← hfreq, buildTree_eq_of_freq s.freq s.tree u.tree]
  exact ⟨rfl, rfl, rfl, rfl, rfl⟩

/-- Settles O37: the leaf of the symbol outweighs all others together, so it is taken last. -/
theorem loneSymbolHasCodewordOne : Obligations.LoneSymbolHasCodewordOne := by
  intro s sym hs hfl hcount hother
  have hpos : 0 < (countWeight s.freq sym).toNat := by
    rw [toNat_countWeight]
    exact Nat.pos_of_ne_zero fun h0 => hcount (BitVec.eq_of_toNat_eq h0)
  have htotal : totalCount s.freq = (countWeight s.freq sym).toNat :=
    totalCount_of_lone fun x hx => by rw [toNat_countWeight, hother x hx]; rfl
  have hright := right_of_lone s.tree hpos htotal
  obtain ⟨w, hm, hb⟩ := bodyTbuild_built hfl
  generalize (buildTree s.freq s.tree).tree = tree at hright hm hb
  obtain ⟨u, hu, -, hcodes⟩ := tcodesWritesEveryPath.2 (s.withBuilt tree w) hs rfl hm.treeOk
  exact ⟨_, u, runCommand_done hs hb, hu, (hcodes sym _).mpr (pathIs_of_right hm.treeOk hright (hm.leaves sym))⟩

end Sys2Proof.Proofs

namespace Sys2Proof.Machine

/-! ### The reconstruction `TRECON` (42_tree.md R161, R162)

The code table lists the paths of a tree `T`. While the symbols are scanned, `TREE` holds the part of `T` that the
paths so far have touched: `made` are the positions of the internal nodes in the order in which they were made, `done`
the symbols whose leaves are placed. -/

open Sys2Proof.Safety

variable {T : Shape} {made : List Codeword} {done : List Symbol} {tree : TreeRam} {freq : FreqRam} {sym : Symbol}
  {p q : Codeword} {b : Bit} {next cur i : NodeIndex} {code : CodeRam}

/-! Positions in the tree. -/

/-- Where the way goes on there is an internal node. -/
theorem Shape.mem_inner_of_sub {T' : Shape} {bs : Codeword} (h : T.sub (q ++ b :: bs) = some T') : q ∈ T.inner := by
  rw [Shape.sub_append] at h
  obtain ⟨S, hS, hgo⟩ := Option.bind_eq_some_iff.mp h
  cases S with
  | leaf s => cases hgo
  | node l r => exact Shape.mem_inner_iff.mpr ⟨l, r, hS⟩

theorem Shape.sub_child {l r : Shape} (h : T.sub q = some (.node l r)) (b : Bit) :
    T.sub (q ++ [b]) = some (if b then r else l) := by
  rw [Shape.sub_append, h]
  simp [Shape.sub]

theorem Shape.Full.sub_unique (h : T.Full) (hp : T.sub p = some (.leaf sym)) (hq : T.sub q = some (.leaf sym)) :
    p = q :=
  h.code_unique (Shape.mem_codes_iff.mpr hp) (Shape.mem_codes_iff.mpr hq)

theorem Shape.Full.length_inner (h : T.Full) : T.inner.length = 255 :=
  Nat.succ.inj (T.length_inner.trans h.length_codes)

theorem Shape.LiesAt.exists_node (h : T.LiesAt tree i) : ∃ n, nodeAt tree i = some n := by
  cases T with
  | leaf s => obtain ⟨n, hn, -⟩ := h; exact ⟨n, hn⟩
  | node l r => obtain ⟨n, hn, -⟩ := h; exact ⟨n, hn⟩

/-! Where `TRECON` has put the node at each position. -/

/-- The index of the node at a position: internal nodes from 256 on in the order in which they were made, a leaf at
its symbol, 511 for no node yet (42_tree.md R161). -/
def placeOf (T : Shape) (made : List Codeword) (done : List Symbol) (q : Codeword) : NodeIndex :=
  if q ∈ made then BitVec.ofNat 9 (256 + made.idxOf q)
  else
    match T.sub q with
    | some (.leaf sym) => if sym ∈ done then leafIndex sym else Config.noNode
    | some (.node _ _) | none => Config.noNode

/-- The internal node whose children are placed by `place`. -/
def nodeOf (place : Codeword → NodeIndex) (q : Codeword) : Node :=
  ⟨false, 0, place (q ++ [false]), place (q ++ [true]), 0⟩

theorem child_nodeOf (place : Codeword → NodeIndex) : (nodeOf place q).child b = place (q ++ [b]) := by
  cases b <;> rfl

/-- A new place below `q` changes one child of the node at `q` ... -/
theorem nodeOf_update_same (place : Codeword → NodeIndex) (x : NodeIndex) :
    nodeOf (Function.update place (q ++ [b]) x) q = (nodeOf place q).withChild b x := by
  cases b <;> simp [nodeOf, Node.withChild]

/-- ... and no other node. -/
theorem nodeOf_update_other (place : Codeword → NodeIndex) (x : NodeIndex) (h : p ≠ q) :
    nodeOf (Function.update place (q ++ [b]) x) p = nodeOf place p := by
  have hne : ∀ c, p ++ [c] ≠ q ++ [b] := fun c heq => h (List.append_inj_left' heq rfl)
  rw [nodeOf, Function.update_of_ne (hne _), Function.update_of_ne (hne _), nodeOf]

/-- What holds between two bits of the reconstruction. -/
structure Rebuilding (freq : FreqRam) (T : Shape) (made : List Codeword) (done : List Symbol) (tree : TreeRam)
    (next : NodeIndex) : Prop where
  full : T.Full
  root : made.head? = some []
  inner : ∀ q ∈ made, q ∈ T.inner
  nodup : made.Nodup
  next_eq : next.toNat = 256 + made.length
  closed : ∀ q b, q ++ [b] ∈ made → q ∈ made
  paths : ∀ sym ∈ done, ∀ q b, T.sub (q ++ [b]) = some (.leaf sym) → q ∈ made
  nodes : ∀ q ∈ made, nodeAt tree (placeOf T made done q) = some (nodeOf (placeOf T made done) q)
  leaves : ∀ sym ∈ done, nodeAt tree (leafIndex sym) = some (leafNode freq sym)

namespace Rebuilding

theorem length_made_le (h : Rebuilding freq T made done tree next) : made.length ≤ 255 :=
  h.full.length_inner ▸ (List.subperm_of_subset h.nodup h.inner).length_le

theorem toNat_placeOf (h : Rebuilding freq T made done tree next) (hq : q ∈ made) :
    (placeOf T made done q).toNat = 256 + made.idxOf q ∧ made.idxOf q < made.length := by
  have hlt := List.idxOf_lt_length_iff.mpr hq
  have := h.length_made_le
  refine ⟨?_, hlt⟩
  rw [placeOf, if_pos hq]
  exact Nat.mod_eq_of_lt (by omega)

theorem placeOf_nil (h : Rebuilding freq T made done tree next) : [] ∈ made ∧ placeOf T made done [] = 256 := by
  obtain ⟨rest, rfl⟩ : ∃ rest, made = [] :: rest := by
    have := h.root
    cases made with
    | nil => cases this
    | cons q rest => exact ⟨rest, by rw [Option.some.inj this]⟩
  refine ⟨List.mem_cons_self, ?_⟩
  rw [placeOf, if_pos List.mem_cons_self, List.idxOf_cons_self]
  rfl

theorem placeOf_ne (h : Rebuilding freq T made done tree next) (hp : p ∈ made) (hq : q ∈ made) (hne : p ≠ q) :
    placeOf T made done p ≠ placeOf T made done q := fun heq => by
  have hn := congrArg BitVec.toNat heq
  rw [(h.toNat_placeOf hp).1, (h.toNat_placeOf hq).1] at hn
  exact hne ((List.idxOf_inj hp).mp (Nat.add_left_cancel hn))

/-- Below a position where no node is made nothing is placed. -/
theorem placeOf_below (h : Rebuilding freq T made done tree next) (hq : q ∉ made) (b : Bit) :
    placeOf T made done (q ++ [b]) = Config.noNode := by
  rw [placeOf, if_neg fun hm => hq (h.closed q b hm)]
  split
  · rename_i sym hsub
    exact if_neg fun hm => hq (h.paths sym hm q b hsub)
  · rfl
  · rfl

/-- A position on the way to a made node is made. -/
theorem mem_made_of_append (h : Rebuilding freq T made done tree next) (hq : q ++ p ∈ made) : q ∈ made := by
  induction p using List.reverseRecOn with
  | nil => rwa [List.append_nil] at hq
  | append_singleton p b ih => exact ih (h.closed _ b (by rwa [List.append_assoc]))

/-! One bit that is not the last. -/

theorem placeOf_append (hp : p ∉ made) :
    placeOf T (made ++ [p]) done = Function.update (placeOf T made done) p (BitVec.ofNat 9 (256 + made.length)) := by
  funext q
  by_cases hq : q = p
  · subst hq
    rw [Function.update_self, placeOf, if_pos (by simp), List.idxOf_append_of_notMem hp]
    simp
  · rw [Function.update_of_ne hq, placeOf, placeOf]
    by_cases hm : q ∈ made
    · rw [if_pos (by simp [hm]), if_pos hm, List.idxOf_append_of_mem hm]
    · rw [if_neg (by simp [hm, hq]), if_neg hm]

/-- Two writes leave every other entry as it is. -/
theorem nodeAt_setNode_setNode_other {n m : Node} (hnext : next.toNat < 511) (hcur : cur.toNat < 511) (hin : i ≠ next)
    (hic : i ≠ cur) : nodeAt (setNode (setNode tree next n) cur m) i = nodeAt tree i := by
  rw [nodeAt_setNode hcur, if_neg hic, nodeAt_setNode hnext, if_neg hin]

theorem toNat_placeOf_bounds (h : Rebuilding freq T made done tree next) (hq : q ∈ made) :
    256 ≤ (placeOf T made done q).toNat ∧ (placeOf T made done q).toNat < next.toNat := by
  have := h.toNat_placeOf hq
  have := h.next_eq
  omega

theorem placeOf_ne_leafIndex (h : Rebuilding freq T made done tree next) (hq : q ∈ made) (sym : Symbol) :
    placeOf T made done q ≠ leafIndex sym := fun heq => by
  have hlt := toNat_leafIndex_lt sym
  rw [← heq] at hlt
  exact absurd (h.toNat_placeOf_bounds hq).1 hlt.not_ge

theorem placeOf_ne_next (h : Rebuilding freq T made done tree next) (hq : q ∈ made) :
    placeOf T made done q ≠ next := fun heq => by
  have hlt := (h.toNat_placeOf_bounds hq).2
  rw [heq] at hlt
  exact lt_irrefl _ hlt

section
variable (h : Rebuilding freq T made done tree next) (hp : q ++ [b] ∈ T.inner) (hnew : q ++ [b] ∉ made)
include h hp hnew

theorem inner_nodup_grow : (∀ p ∈ made ++ [q ++ [b]], p ∈ T.inner) ∧ (made ++ [q ++ [b]]).Nodup := by
  refine ⟨fun p hm => ?_, List.nodup_append'.mpr
    ⟨h.nodup, List.nodup_singleton _, List.disjoint_singleton.mpr hnew⟩⟩
  obtain hm | hm := List.mem_append.mp hm
  · exact h.inner p hm
  · exact List.mem_singleton.mp hm ▸ hp

/-- There is an entry left for a node that `T` has and `TREE` has not (42_tree.md R162 b). -/
theorem next_lt : next.toNat < 511 := by
  obtain ⟨hinner, hnodup⟩ := h.inner_nodup_grow hp hnew
  have hlen := (List.subperm_of_subset hnodup hinner).length_le
  rw [h.full.length_inner, List.length_append, List.length_singleton] at hlen
  have := h.next_eq
  omega

theorem placeOf_grow :
    placeOf T (made ++ [q ++ [b]]) done = Function.update (placeOf T made done) (q ++ [b]) next := by
  have hnext := h.next_eq
  have hlt := h.next_lt hp hnew
  rw [placeOf_append hnew, show BitVec.ofNat 9 (256 + made.length) = next from
    BitVec.eq_of_toNat_eq (by rw [hnext]; exact Nat.mod_eq_of_lt (by omega))]

/-- A bit along which no node was made makes one, where `NEXT` says. -/
theorem grow (hq : q ∈ made) :
    Rebuilding freq T (made ++ [q ++ [b]]) done
      (setNode (setNode tree next bareNode) (placeOf T made done q)
        ((nodeOf (placeOf T made done) q).withChild b next)) (next + 1) := by
  obtain ⟨hinner, hnodup⟩ := h.inner_nodup_grow hp hnew
  have hlt := h.next_lt hp hnew
  have hcur : (placeOf T made done q).toNat < 511 := (h.toNat_placeOf_bounds hq).2.trans hlt
  have hnext := h.next_eq
  exact
    { full := h.full
      root := by rw [List.head?_append, h.root]; rfl
      inner := hinner
      nodup := hnodup
      next_eq := by
        rw [BitVec.toNat_add, List.length_append]
        show (next.toNat + 1) % 512 = 256 + (made.length + 1)
        omega
      closed := fun p c hm => by
        rw [List.mem_append] at hm ⊢
        obtain hm | hm := hm
        · exact .inl (h.closed p c hm)
        · rw [List.append_inj_left' (List.mem_singleton.mp hm) rfl]
          exact .inl hq
      paths := fun sym hs p c hsub => List.mem_append_left _ (h.paths sym hs p c hsub)
      nodes := fun p hm => by
        rw [h.placeOf_grow hp hnew]
        obtain hm | hm := List.mem_append.mp hm
        · rw [Function.update_of_ne (ne_of_mem_of_not_mem hm hnew)]
          by_cases hpq : p = q
          · rw [hpq, nodeAt_setNode hcur, if_pos rfl, nodeOf_update_same]
          · rw [nodeAt_setNode_setNode_other hlt hcur (h.placeOf_ne_next hm) (h.placeOf_ne hm hq hpq), h.nodes p hm,
              nodeOf_update_other _ _ hpq]
        · have hchild : q ++ [b] ≠ q := by simp
          rw [List.mem_singleton.mp hm, Function.update_self, nodeAt_setNode hcur, if_neg (h.placeOf_ne_next hq).symm,
            nodeAt_setNode hlt, if_pos rfl, nodeOf_update_other _ _ hchild, nodeOf, h.placeOf_below hnew,
            h.placeOf_below hnew]
          rfl
      leaves := fun sym hs => by
        have hleaf := toNat_leafIndex_lt sym
        rw [nodeAt_setNode_setNode_other hlt hcur ?_ (h.placeOf_ne_leafIndex hq sym).symm, h.leaves sym hs]
        rintro heq
        rw [heq] at hleaf
        omega }

end

/-- One round of the inner loop: it goes on to the node at the next position, made or found there. -/
theorem reconEdge (h : Rebuilding freq T made done tree next) (hq : q ∈ made) (hp : q ++ [b] ∈ T.inner) :
    ∃ made' tree' next', Machine.reconEdge ⟨tree, next, placeOf T made done q⟩ b =
        some ⟨tree', next', placeOf T made' done (q ++ [b])⟩ ∧
      q ++ [b] ∈ made' ∧ Rebuilding freq T made' done tree' next' := by
  by_cases hold : q ++ [b] ∈ made
  · refine ⟨made, tree, next, ?_, hold, h⟩
    have hne : placeOf T made done (q ++ [b]) ≠ Config.noNode := fun heq => by
      have := lt_of_nodeAt (h.nodes _ hold)
      rw [heq] at this
      exact absurd this (by decide)
    simp only [Machine.reconEdge, h.nodes q hq, child_nodeOf, hne, if_false]
  · refine ⟨_, _, _, ?_, by simp, h.grow hp hold hq⟩
    have hnone : placeOf T made done (q ++ [b]) = Config.noNode := by
      obtain ⟨l, r, hsub⟩ := Shape.mem_inner_iff.mp hp
      rw [placeOf, if_neg hold, hsub]
    have hne : next ≠ Config.noNode := fun heq => by
      have hlt := h.next_lt hp hold
      rw [heq] at hlt
      exact absurd hlt (by decide)
    simp only [Machine.reconEdge, h.nodes q hq, child_nodeOf, hnone, hne, h.placeOf_grow hp hold,
      Function.update_self, if_true, if_false]

/-! The last bit of a codeword. -/

theorem placeOf_cons_done (hfull : T.Full) (hp : T.sub p = some (.leaf sym)) (hnew : p ∉ made) :
    placeOf T made (sym :: done) = Function.update (placeOf T made done) p (leafIndex sym) := by
  funext q
  by_cases hq : q = p
  · rw [hq, Function.update_self, placeOf, if_neg hnew, hp]
    exact if_pos List.mem_cons_self
  · rw [Function.update_of_ne hq, placeOf, placeOf]
    split
    · rfl
    · cases hsub : T.sub q with
      | none => rfl
      | some S =>
        cases S with
        | node l r => rfl
        | leaf x =>
          have hx : x ≠ sym := fun heq => hq (hfull.sub_unique (heq ▸ hsub) hp)
          simp [hx]

/-- The leaf is placed at the end of its path. -/
theorem placeLeaf (h : Rebuilding freq T made done tree next) (hq : q ∈ made)
    (hp : T.sub (q ++ [b]) = some (.leaf sym)) :
    Rebuilding freq T made (sym :: done)
      (setNode (setNode tree (leafIndex sym) (leafNode freq sym)) (placeOf T made done q)
        ((nodeOf (placeOf T made done) q).withChild b (leafIndex sym))) next := by
  have hnew : q ++ [b] ∉ made := fun hm => by
    obtain ⟨l, r, hsub⟩ := Shape.mem_inner_iff.mp (h.inner _ hm)
    rw [hp] at hsub
    cases hsub
  have hplace := placeOf_cons_done (done := done) h.full hp hnew
  have hleaf : ∀ s, (leafIndex s).toNat < 511 := fun s => (toNat_leafIndex_lt s).trans (by decide)
  have hcur : (placeOf T made done q).toNat < 511 := lt_of_nodeAt (h.nodes q hq)
  exact
    { h with
      paths := fun x hx p c hsub => by
        obtain rfl | hx := List.mem_cons.mp hx
        · rw [List.append_inj_left' (h.full.sub_unique hsub hp) rfl]
          exact hq
        · exact h.paths x hx p c hsub
      nodes := fun p hm => by
        rw [hplace, Function.update_of_ne (ne_of_mem_of_not_mem hm hnew)]
        by_cases hpq : p = q
        · rw [hpq, nodeAt_setNode hcur, if_pos rfl, nodeOf_update_same]
        · rw [nodeAt_setNode_setNode_other (hleaf sym) hcur (h.placeOf_ne_leafIndex hm sym) (h.placeOf_ne hm hq hpq),
            h.nodes p hm, nodeOf_update_other _ _ hpq]
      leaves := fun x hx => by
        rw [nodeAt_setNode hcur, if_neg (h.placeOf_ne_leafIndex hq x).symm, nodeAt_setNode (hleaf sym)]
        split
        · rename_i heq
          rw [leafIndex_injective heq]
        · rename_i heq
          exact h.leaves x ((List.mem_cons.mp hx).resolve_left fun hxs => heq (hxs ▸ rfl)) }

/-- The loops over one codeword place its leaf (42_tree.md R162 a). -/
theorem reconPath (h : Rebuilding freq T made done tree next) {bs : Codeword} (hq : q ∈ made) (hne : bs ≠ [])
    (hp : T.sub (q ++ bs) = some (.leaf sym)) :
    ∃ made' r, Machine.reconPath freq sym bs ⟨tree, next, placeOf T made done q⟩ = some r ∧
      Rebuilding freq T made' (sym :: done) r.tree r.nextIdx := by
  induction bs generalizing made tree next q with
  | nil => exact absurd rfl hne
  | cons b bs ih =>
    cases bs with
    | nil =>
      refine ⟨made, ⟨_, _, placeOf T made done q⟩, ?_, h.placeLeaf hq hp⟩
      rw [Machine.reconPath]
      simp only [h.nodes q hq]
      rfl
    | cons b' bs =>
      have hp' : T.sub ((q ++ [b]) ++ b' :: bs) = some (.leaf sym) := by rwa [List.append_assoc]
      obtain ⟨made', tree', next', hedge, hq', h'⟩ := h.reconEdge hq (Shape.mem_inner_of_sub hp')
      obtain ⟨made'', r, hr, h''⟩ := ih h' hq' (List.cons_ne_nil _ _) hp'
      refine ⟨made'', r, ?_, h''⟩
      rw [Machine.reconPath, hedge]
      · exact hr
      · exact List.cons_ne_nil _ _

/-- The scan over the symbols places a leaf for each. -/
theorem reconSymbols (hcode : ∀ sym p, codeAt code sym = some p ↔ T.sub p = some (.leaf sym)) (l : List Symbol)
    (cur : NodeIndex) (h : Rebuilding freq T made done tree next) :
    ∃ made' r, Machine.reconSymbols freq code l ⟨tree, next, cur⟩ = some r ∧
      Rebuilding freq T made' (l.reverse ++ done) r.tree r.nextIdx := by
  induction l generalizing made done tree next cur with
  | nil => exact ⟨made, _, rfl, h⟩
  | cons sym l ih =>
    obtain ⟨p, hp⟩ := h.full.exists_code sym
    have hsub := Shape.mem_codes_iff.mp hp
    obtain ⟨hroot, hplace⟩ := h.placeOf_nil
    obtain ⟨made', r, hr, h'⟩ := h.reconPath hroot (h.full.code_ne_nil hp) hsub
    obtain ⟨made'', r', hr', h''⟩ := ih r.cur h'
    refine ⟨made'', r', ?_, by rwa [List.reverse_cons, List.append_assoc]⟩
    rw [hplace] at hr
    rw [Machine.reconSymbols, (hcode sym p).mpr hsub]
    simp only [hr, Config.firstInternal]
    exact hr'

/-! When every leaf is placed. -/

/-- Every internal node of `T` is made, since there is a leaf below it. -/
theorem made_of_inner (h : Rebuilding freq T made done tree next) (hdone : ∀ sym, sym ∈ done) (hq : q ∈ T.inner) :
    q ∈ made := by
  obtain ⟨l, r, hsub⟩ := Shape.mem_inner_iff.mp hq
  obtain ⟨sym, p, hp⟩ := Shape.exists_code_of_sub hsub
  rw [Shape.mem_codes_iff] at hp
  obtain rfl | ⟨p, b, rfl⟩ := List.eq_nil_or_concat p
  · rw [List.append_nil, hsub] at hp
    cases hp
  · rw [List.concat_eq_append, ← List.append_assoc] at hp
    exact h.mem_made_of_append (h.paths sym (hdone sym) _ b hp)

/-- Exactly 255 internal nodes are made (42_tree.md R162 b). -/
theorem length_made (h : Rebuilding freq T made done tree next) (hdone : ∀ sym, sym ∈ done) : made.length = 255 := by
  refine le_antisymm h.length_made_le ?_
  rw [← h.full.length_inner]
  exact (List.subperm_of_subset T.nodup_inner fun q => h.made_of_inner hdone).length_le

/-- Every part of `T` lies where its position is placed (42_tree.md R162 d). -/
theorem liesAt_placeOf (h : Rebuilding freq T made done tree next) (hdone : ∀ sym, sym ∈ done) {S : Shape}
    (hsub : T.sub q = some S) : S.LiesAt tree (placeOf T made done q) := by
  induction S generalizing q with
  | leaf sym =>
    have hq : q ∉ made := fun hm => by
      obtain ⟨l, r, hn⟩ := Shape.mem_inner_iff.mp (h.inner q hm)
      rw [hsub] at hn
      cases hn
    rw [placeOf, if_neg hq, hsub]
    simp only [hdone sym, if_true]
    exact ⟨_, h.leaves sym (hdone sym), rfl, rfl⟩
  | node l r ihl ihr =>
    exact ⟨_, h.nodes q (h.made_of_inner hdone (Shape.mem_inner_iff.mpr ⟨l, r, hsub⟩)), rfl,
      ihl (Shape.sub_child hsub false), ihr (Shape.sub_child hsub true)⟩

/-- No child of an internal node is missing (42_tree.md R162 b, c). -/
theorem exists_inner (h : Rebuilding freq T made done tree next) (hdone : ∀ sym, sym ∈ done) (hi : 256 ≤ i.toNat)
    (hi' : i.toNat ≤ 510) : ∃ n, nodeAt tree i = some n ∧ n.leaf = false ∧ n.sym = 0 ∧ n.w = 0 ∧
      n.left ≠ 511 ∧ n.right ≠ 511 := by
  have hlen := h.length_made hdone
  have hk : i.toNat - 256 < made.length := by omega
  have hq : made[i.toNat - 256] ∈ made := List.getElem_mem hk
  have hplace : placeOf T made done made[i.toNat - 256] = i := BitVec.eq_of_toNat_eq (by
    rw [(h.toNat_placeOf hq).1, h.nodup.idxOf_getElem _ hk]
    omega)
  obtain ⟨l, r, hsub⟩ := Shape.mem_inner_iff.mp (h.inner _ hq)
  have hchild : ∀ b, placeOf T made done (made[i.toNat - 256] ++ [b]) ≠ 511 := fun b heq => by
    have hlies := h.liesAt_placeOf hdone (Shape.sub_child hsub b)
    obtain ⟨n, hn⟩ := hlies.exists_node
    have hlt := lt_of_nodeAt hn
    rw [heq] at hlt
    exact absurd hlt (by decide)
  have hn := h.nodes _ hq
  rw [hplace] at hn
  exact ⟨_, hn, rfl, rfl, rfl, hchild false, hchild true⟩

end Rebuilding

/-- What `TRECON` starts from: the root alone (42_tree.md R161). -/
theorem rebuilding_start (hfull : T.Full) (freq : FreqRam) (tree : TreeRam) :
    Rebuilding freq T [[]] [] (setNode tree Config.firstInternal bareNode) (Config.firstInternal + 1) := by
  have hroot : [] ∈ T.inner := by
    cases hT : T with
    | leaf s => rw [hT] at hfull; exact absurd hfull.length_codes (by simp [Shape.codes])
    | node l r => exact List.mem_cons_self
  have hplace : ∀ b, placeOf T [[]] [] [b] = Config.noNode := fun b => by
    rw [placeOf, if_neg (by simp)]
    split <;> simp
  exact
    { full := hfull
      root := rfl
      inner := fun q hq => List.mem_singleton.mp hq ▸ hroot
      nodup := List.nodup_singleton _
      next_eq := rfl
      closed := fun q b hq => by simp at hq
      paths := fun _ hs => by cases hs
      nodes := fun q hq => by
        rw [List.mem_singleton.mp hq, nodeOf, List.nil_append, List.nil_append, hplace, hplace]
        exact nodeAt_setNode_same tree bareNode (by decide)
      leaves := fun _ hs => by cases hs }

/-- The tree that `TRECON` builds from the paths of `T` is `T` (42_tree.md R162). -/
theorem reconTree_of_codes (hfull : T.Full) (hcode : ∀ sym p, codeAt code sym = some p ↔ T.sub p = some (.leaf sym))
    (freq : FreqRam) (tree : TreeRam) :
    ∃ r, reconTree freq code tree = some r ∧ r.nextIdx = 511 ∧ T.LiesAt r.tree 256 ∧
      (∀ sym, nodeAt r.tree (leafIndex sym) = some (leafNode freq sym)) ∧
      ∀ i : NodeIndex, 256 ≤ i.toNat → i.toNat ≤ 510 → ∃ n, nodeAt r.tree i = some n ∧ n.leaf = false ∧ n.sym = 0 ∧
        n.w = 0 ∧ n.left ≠ 511 ∧ n.right ≠ 511 := by
  obtain ⟨made, r, hr, h⟩ := (rebuilding_start hfull freq tree).reconSymbols hcode allSymbols Config.firstInternal
  have hdone : ∀ sym, sym ∈ allSymbols.reverse ++ [] := fun sym => by simp [mem_allSymbols]
  obtain ⟨hroot, hplace⟩ := h.placeOf_nil
  have hnext : r.nextIdx = 511 := BitVec.eq_of_toNat_eq (by rw [h.next_eq, h.length_made hdone]; rfl)
  exact ⟨r, hr, hnext, hplace ▸ h.liesAt_placeOf hdone T.sub_nil, fun sym => h.leaves sym (hdone sym),
    fun i => h.exists_inner hdone⟩

/-- The state after `TRECON` has left this tree. -/
def State.withRebuilt (s : State) (tree : TreeRam) : State :=
  { s with tree := tree, root := 256, cur := 256, nextIdx := 511, tv := true }

/-- `TRECON` from a good state. -/
theorem bodyTrecon_rebuilt {s : State} (h : Good s) (hcv : s.cv = true) :
    ∃ tree', bodyTrecon s = .done () (s.withRebuilt tree') ∧ TreeOk tree' 256 ∧
      (∀ sym p, PathIs tree' 256 sym p ↔ codeAt s.code sym = some p) ∧
      (∀ sym, nodeAt tree' (leafIndex sym) = some (leafNode s.freq sym)) ∧
      ∀ i : NodeIndex, 256 ≤ i.toNat → i.toNat ≤ 510 → ∃ n, nodeAt tree' i = some n ∧ n.leaf = false ∧ n.sym = 0 ∧
        n.w = 0 ∧ n.left ≠ 511 ∧ n.right ≠ 511 := by
  obtain ⟨T, -, hfull, hcode⟩ := exists_shape_of_good h hcv
  obtain ⟨r, hr, hnext, hT, hleaves, hinner⟩ := reconTree_of_codes hfull hcode s.freq s.tree
  refine ⟨r.tree, ?_, treeOk_iff.mpr ⟨T, hT, hfull⟩, fun sym p => ?_, hleaves, hinner⟩
  · rw [bodyTrecon, requireFlag_of hcv, hr]
    simp only [hnext]
    rfl
  · rw [hfull.pathIs_iff hT, hcode, Shape.mem_codes_iff]

end Sys2Proof.Machine

namespace Sys2Proof.Proofs

open Sys2Proof.Machine Sys2Proof.Safety

/-- Settles O38: at every moment `TREE` holds the part of the tree that the codewords so far have touched. -/
theorem treconKeepsEveryPath : Obligations.TreconKeepsEveryPath := by
  refine ⟨rfl, fun s hs hgood hcv => ?_⟩
  obtain ⟨tree, hbody, hok, hpath, hleaves, hinner⟩ := bodyTrecon_rebuilt hgood hcv
  exact ⟨s.withRebuilt tree, runCommand_done hs hbody, rfl, hok, hpath, hleaves, hinner⟩

end Sys2Proof.Proofs

namespace Sys2Proof.Machine

/-! ### From a good state nothing stops (42_tree.md R157, R162, 43_walker.md R180, 70_reset_and_hazards.md R275) -/

open Sys2Proof.Safety

variable {α β : Type} {s t u : State} {n : Nat} {sym : Symbol} {b : Bit}

/-- The body does not stop the model: it is done or raises. -/
def Body.Goes : Body α → Prop
  | .done _ _ | .raise _ _ => True
  | .stuck _ => False

theorem Body.Goes.andThen {r : Body α} {k : α → State → Body β} (h : r.Goes)
    (hk : ∀ a u, r = .done a u → (k a u).Goes) : (r.andThen k).Goes := by
  cases r with
  | done a u => exact hk a u rfl
  | raise e u => trivial
  | stuck f => exact h

theorem Body.Leaves.and {P Q : State → Prop} {r : Body α} (hP : r.Leaves P) (hQ : r.Leaves Q) :
    r.Leaves fun s => P s ∧ Q s := by
  cases r with
  | done a u => exact ⟨hP, hQ⟩
  | raise e u => exact ⟨hP, hQ⟩
  | stuck f => trivial

theorem requireFlag_goes {c : Bool} {k : State → Body Unit} (h : c = true → (k s).Goes) : (requireFlag c k s).Goes := by
  cases c with
  | false => trivial
  | true => exact h rfl

/-! The helpers that never stop. -/

theorem outByte_goes (v : Byte) (s : State) : (outByte v s).Goes := by
  unfold outByte; split <;> trivial

theorem outBytes_goes (bytes : List Byte) (s : State) : (outBytes bytes s).Goes := by
  induction bytes generalizing s with
  | nil => trivial
  | cons v vs ih => exact (outByte_goes v s).andThen fun _ u _ => ih u

theorem inByte_goes (e : ErrCode) (s : State) : (inByte e s).Goes := by
  unfold inByte; dsimp only; split <;> trivial

theorem inByteOrStop_goes (s : State) : (inByteOrStop s).Goes := by
  unfold inByteOrStop; dsimp only; split <;> trivial

theorem inFieldFrom_goes (n k : Nat) (c : Count) (s : State) : (inFieldFrom n k c s).Goes := by
  induction n generalizing k c s with
  | zero => trivial
  | succ n ih => exact (inByte_goes .eHeader s).andThen fun v u _ => ih _ _ u

theorem putBit_goes (b : Bit) (s : State) : (putBit b s).Goes := by
  unfold putBit
  dsimp only
  split
  · exact (outByte_goes _ s).andThen fun _ _ _ => trivial
  · trivial

theorem putBits_goes (c : Codeword) (s : State) : (putBits c s).Goes := by
  induction c generalizing s with
  | nil => trivial
  | cons b bs ih => exact (putBit_goes b s).andThen fun _ u _ => ih u

theorem flush_goes (s : State) : (flush s).Goes := by
  unfold flush
  split
  · trivial
  · exact (outByte_goes _ s).andThen fun _ _ _ => trivial

theorem getBit_goes (s : State) : (getBit s).Goes := by
  refine Body.Goes.andThen ?_ fun _ _ _ => trivial
  unfold refill
  split
  · exact (inByte_goes .eEof s).andThen fun _ _ _ => trivial
  · trivial

theorem countSym_goes (sym : Symbol) (s : State) : (countSym sym s).Goes := by
  unfold countSym; split <;> trivial

theorem countRest_goes (n : Nat) (s : State) : (countRest n s).Goes := by
  induction n generalizing s with
  | zero => trivial
  | succ n ih =>
    refine (inByteOrStop_goes s).andThen fun v u _ => ?_
    cases v with
    | none => trivial
    | some sym => exact (countSym_goes sym u).andThen fun _ v _ => ih v

theorem loadTable_goes (l : List Symbol) (s : State) : (loadTable l s).Goes := by
  induction l generalizing s with
  | nil => trivial
  | cons sym l ih => exact (inFieldFrom_goes _ _ _ s).andThen fun v u _ => ih _

/-! What `TreeInv` speaks of. -/

/-- All but the flags `TV` and `CV`, the walker, `TREE` and `CODE` erased. -/
def treePart (s : State) : State :=
  { State.reset with
    root := s.root, cur := s.cur, nextIdx := s.nextIdx, tv := s.tv, cv := s.cv, tree := s.tree, code := s.code }

theorem treePart_blind : BlindToStreams treePart := fun _ _ => rfl

theorem treeInv_treePart_iff : TreeInv (treePart s) ↔ TreeInv s :=
  ⟨fun h => ⟨h.tree, h.root, h.next, h.cursor, h.codes⟩, fun h => ⟨h.tree, h.root, h.next, h.cursor, h.codes⟩⟩

theorem treeInv_congr (h : TreeInv s) (he : treePart u = treePart s) : TreeInv u :=
  treeInv_treePart_iff.mp (he ▸ treeInv_treePart_iff.mpr h)

theorem treeInv_of_invalid (htv : s.tv = false) (hcv : s.cv = false) : TreeInv s := by
  refine ⟨?_, ?_, ?_, ?_, ?_⟩ <;> simp [htv, hcv]

theorem treePart_of_writerErased (h : writerErased u = writerErased s) : treePart u = treePart s := by
  have he := congrArg treePart h
  exact he

theorem treePart_of_countsErased (h : countsErased u = countsErased s) : treePart u = treePart s := by
  have he := congrArg treePart h
  exact he

theorem treePart_faultEntry (e : ErrCode) (w : CmdWord) (s : State) : treePart (faultEntry e w s) = treePart s := by
  simp [treePart, faultEntry]

/-- A body whose last states have the tree part that it found leaves the invariant. -/
theorem treeInv_leaves {r : Body α} (h : TreeInv s) (hr : r.Leaves fun u => treePart u = treePart s) :
    r.Leaves TreeInv :=
  hr.mono fun _ => treeInv_congr h

theorem getBit_keepsTreePart (s : State) : (getBit s).Leaves fun u => treePart u = treePart s := by
  refine leaves_erased_andThen treePart ?_ fun _ _ => rfl
  unfold refill
  split
  · exact leaves_erased_andThen treePart (inByte_keeps treePart_blind .eEof s) fun _ _ => rfl
  · rfl

/-! The codewords are there (42_tree.md R160 a). -/

/-- Every symbol has a codeword. -/
def CodesWritten (s : State) : Prop := ∀ sym, ∃ c, codeAt s.code sym = some c

theorem codesWritten_of_good (h : Good s) (hcv : s.cv = true) : CodesWritten s := fun sym => by
  obtain ⟨p, hp, -⟩ := exists_path_of_treeOk (h.tree.tree (h.regs.codesNeedTree hcv)) sym
  exact ⟨p, h.tree.codes hcv sym p hp⟩

theorem CodesWritten.congr (h : CodesWritten s) (he : treePart u = treePart s) : CodesWritten u := by
  have hcode : (treePart u).code = (treePart s).code := congrArg State.code he
  intro sym
  rw [show u.code = s.code from hcode]
  exact h sym

theorem putSymbol_goes (sym : Symbol) (h : CodesWritten s) : (putSymbol sym s).Goes := by
  obtain ⟨c, hc⟩ := h sym
  rw [putSymbol, hc]
  exact putBits_goes c s

theorem encodeRest_goes (n : Nat) (h : CodesWritten s) : (encodeRest n s).Goes := by
  induction n generalizing s with
  | zero => trivial
  | succ n ih =>
    refine (inByteOrStop_goes s).andThen fun v u hu => ?_
    have hw := h.congr ((inByteOrStop_keeps treePart_blind s).of_done hu)
    cases v with
    | none => trivial
    | some sym =>
      refine (putSymbol_goes sym hw).andThen fun _ t ht => ih ?_
      exact hw.congr (treePart_of_writerErased ((putSymbol_keeps sym u).of_done ht))

/-! The walker stays in the tree (43_walker.md R180, R181). -/

theorem walkFrom_child {tree : TreeRam} {i : NodeIndex} {m : Node} (hm : nodeAt tree i = some m)
    (hleaf : m.leaf = false) : walkFrom tree i [b] = some (m.child b) := by
  simp [walkFrom, hm, hleaf]

/-- The root is internal (42_tree.md R157). -/
theorem Shape.Full.root_internal {T : Shape} {tree : TreeRam} {root : NodeIndex} (h : T.Full)
    (hT : T.LiesAt tree root) : ∃ m, nodeAt tree root = some m ∧ m.leaf = false := by
  cases T with
  | leaf s => exact absurd h.length_codes (by simp [Shape.codes])
  | node l r =>
    obtain ⟨m, hm, hleaf, -⟩ := hT
    exact ⟨m, hm, hleaf⟩

/-- `Advance` finds the entries it reads, and puts the walker where bits lead from the root. -/
theorem advance_of_treeInv (b : Bit) (h : TreeInv s) (htv : s.tv = true) :
    ∃ c, advance b s = .done () { s with cur := c } ∧ TreeInv { s with cur := c } := by
  obtain ⟨T, hT, hfull⟩ := treeOk_iff.mp (h.tree htv)
  obtain ⟨q, hq⟩ := h.cursor htv
  obtain ⟨T', -, hT'⟩ := hT.of_walk hq
  obtain ⟨n, hn⟩ := hT'.exists_node
  have hcursor : ∀ {c}, (∃ q, walkFrom s.tree s.root q = some c) → TreeInv { s with cur := c } := fun hc =>
    ⟨h.tree, h.root, h.next, fun _ => hc, h.codes⟩
  by_cases hleaf : n.leaf = true
  · obtain ⟨m, hm, hinner⟩ := hfull.root_internal hT
    refine ⟨m.child b, ?_, hcursor ⟨[b], walkFrom_child hm hinner⟩⟩
    simp [advance, hn, hleaf, hm]
  · have hinner : n.leaf = false := by simpa using hleaf
    refine ⟨n.child b, ?_, hcursor ⟨q ++ [b], ?_⟩⟩
    · simp [advance, hn, hinner]
    · rw [walkFrom_append, hq]
      exact walkFrom_child hn hinner

theorem exists_node_at_cur (h : TreeInv s) (htv : s.tv = true) : ∃ n, nodeAt s.tree s.cur = some n := by
  obtain ⟨T, hT, -⟩ := treeOk_iff.mp (h.tree htv)
  obtain ⟨q, hq⟩ := h.cursor htv
  obtain ⟨T', -, hT'⟩ := hT.of_walk hq
  exact hT'.exists_node

/-! Each `GetBit` takes a bit, so the bits left bound the rounds (70_reset_and_hazards.md R275). -/

theorem bitsLeft_getBit (h : getBit s = .done b u) : u.bitsLeft + 1 = s.bitsLeft := by
  obtain ⟨h0, -, rfl⟩ | ⟨h0, v, ha, -, rfl⟩ := getBit_eq_done h
  · have hpos : s.rcnt.toNat ≠ 0 := fun hn => h0 (BitVec.eq_of_toNat_eq hn)
    have hsub : (s.rcnt - 1).toNat = s.rcnt.toNat - 1 := by
      have := s.rcnt.isLt
      rw [BitVec.toNat_sub]
      simp
      omega
    simp only [State.bitsLeft, hsub]
    omega
  · have hlt := (inPos_lt_of_byte _ ha).1
    have h7 : (7 : BitVec 4).toNat = 7 := rfl
    have h0' : s.rcnt.toNat = 0 := by rw [h0]; rfl
    simp only [State.bitsLeft, Streams.remaining, tookBytes, h7, h0']
    omega

theorem walkToLeaf_good (n : Nat) (h : TreeInv s) (htv : s.tv = true) (hn : s.bitsLeft < n) :
    (walkToLeaf n s).Goes ∧ (walkToLeaf n s).Leaves TreeInv ∧
      ∀ sym u, walkToLeaf n s = .done sym u → u.bitsLeft < s.bitsLeft := by
  induction n generalizing s with
  | zero => exact absurd hn (Nat.not_lt_zero _)
  | succ n ih =>
    rw [walkToLeaf]
    cases hbit : getBit s with
    | stuck f => exact absurd (getBit_goes s) (by rw [hbit]; exact id)
    | raise e u =>
      refine ⟨trivial, treeInv_congr h ((getBit_keepsTreePart s).of_raise hbit), fun _ _ hd => by cases hd⟩
    | done b u =>
      have hpart := (getBit_keepsTreePart s).of_done hbit
      have hleft := bitsLeft_getBit hbit
      have htvu : u.tv = true := (congrArg State.tv hpart).trans htv
      obtain ⟨c, hadv, hinv⟩ := advance_of_treeInv b (treeInv_congr h hpart) htvu
      obtain ⟨nd, hnd⟩ := exists_node_at_cur hinv htvu
      have hleft' : ({ u with cur := c } : State).bitsLeft = u.bitsLeft := rfl
      rw [andThen_done, hadv, andThen_done, hnd]
      dsimp only
      split
      · refine ⟨trivial, hinv, fun _ _ hd => ?_⟩
        cases hd
        omega
      · obtain ⟨hgoes, hleaves, hfewer⟩ := ih hinv htvu (by omega)
        exact ⟨hgoes, hleaves, fun sym v hd => (hfewer sym v hd).trans (by omega)⟩

theorem bodyDsym_good (h : TreeInv s) :
    (bodyDsym s).Goes ∧ (bodyDsym s).Leaves TreeInv ∧ ∀ u, bodyDsym s = .done () u → u.bitsLeft < s.bitsLeft := by
  rw [bodyDsym]
  cases htv : s.tv with
  | false => exact ⟨trivial, h, fun _ hd => by cases hd⟩
  | true =>
    rw [requireFlag_true]
    obtain ⟨hgoes, hleaves, hfewer⟩ := walkToLeaf_good (s.bitsLeft + 1) h htv (Nat.lt_succ_self _)
    refine ⟨hgoes.andThen fun sym u _ => (outByte_goes sym u).andThen fun _ _ _ => trivial,
      hleaves.andThen fun sym u hu => (treeInv_leaves hu (outByte_keeps treePart_blind sym u)).andThen fun _ v hv =>
        treeInv_congr hv rfl, fun v hd => ?_⟩
    obtain ⟨sym, u, hu, hd⟩ := andThen_eq_done.mp hd
    obtain ⟨_, v, hv, hd⟩ := andThen_eq_done.mp hd
    cases hd
    obtain rfl := outByte_eq_done hv
    exact hfewer sym u hu

/-- Each round of `DECODE` takes a bit or raises. -/
theorem decodeLoop_good (n : Nat) (h : TreeInv s) (hn : s.bitsLeft < n) :
    (decodeLoop n s).Goes ∧ (decodeLoop n s).Leaves TreeInv := by
  induction n generalizing s with
  | zero => exact absurd hn (Nat.not_lt_zero _)
  | succ n ih =>
    rw [decodeLoop]
    split
    · exact ⟨trivial, h⟩
    · obtain ⟨hgoes, hleaves, hfewer⟩ := bodyDsym_good h
      have hrest : ∀ u, bodyDsym s = .done () u → _ := fun u hu =>
        ih (hleaves.of_done hu) (by have := hfewer u hu; omega)
      cases hb : bodyDsym s with
      | stuck f => rw [hb] at hgoes; exact hgoes.elim
      | raise e u => exact ⟨trivial, hleaves.of_raise hb⟩
      | done a u => exact hrest u hb

/-! The bodies. -/

/-- From a good state the body does not stop and leaves the tree, the walker and the code table in order. -/
def TreeSafe (x : State → Body Unit) : Prop := ∀ s, Good s → (x s).Goes ∧ (x s).Leaves TreeInv

/-- A body that writes none of what `TreeInv` speaks of. -/
theorem treeSafe_of_keeps {x : State → Body Unit} (hgoes : ∀ s, Good s → (x s).Goes)
    (hkeeps : ∀ s, (x s).Leaves fun u => treePart u = treePart s) : TreeSafe x := fun s h =>
  ⟨hgoes s h, treeInv_leaves h.tree (hkeeps s)⟩

theorem treeSafe_tbuild : TreeSafe bodyTbuild := fun s h => by
  cases hfl : s.fl with
  | true =>
    rw [bodyTbuild, hfl]
    exact ⟨trivial, h.tree⟩
  | false =>
    obtain ⟨w, hm, hb⟩ := bodyTbuild_built hfl
    generalize (buildTree s.freq s.tree).tree = tree at hm hb
    rw [hb]
    have hcv : s.cv = false := by
      cases hcv : s.cv with
      | false => rfl
      | true => exact absurd (h.regs.treeNeedsLock (h.regs.codesNeedTree hcv)) (by simp [hfl])
    exact ⟨trivial, fun _ => hm.treeOk, fun _ => .inl rfl, fun _ => rfl, fun _ => ⟨[], rfl⟩,
      fun hcv' => absurd (hcv.symm.trans hcv') Bool.false_ne_true⟩

theorem treeSafe_tcodes : TreeSafe bodyTcodes := fun s h => by
  cases htv : s.tv with
  | false =>
    rw [bodyTcodes, htv]
    exact ⟨trivial, h.tree⟩
  | true =>
    rw [bodyTcodes_done htv]
    exact ⟨trivial, h.tree.tree, h.tree.root, h.tree.next, h.tree.cursor, fun _ sym p hp =>
      (codeAt_derivedCodes (h.tree.tree htv)).mpr hp⟩

theorem treeSafe_trecon : TreeSafe bodyTrecon := fun s h => by
  cases hcv : s.cv with
  | false =>
    rw [bodyTrecon, hcv]
    exact ⟨trivial, h.tree⟩
  | true =>
    obtain ⟨tree, hb, hok, hpath, -⟩ := bodyTrecon_rebuilt h hcv
    rw [hb]
    exact ⟨trivial, fun _ => hok, fun _ => .inr rfl, fun _ => rfl, fun _ => ⟨[], rfl⟩,
      fun _ sym p => (hpath sym p).mp⟩

theorem treeSafe_wkrst : TreeSafe bodyWkrst := fun _ h =>
  ⟨requireFlag_goes fun _ => trivial, requireFlag_leaves h.tree fun _ =>
    ⟨h.tree.tree, h.tree.root, h.tree.next, fun _ => ⟨[], rfl⟩, h.tree.codes⟩⟩

theorem treeSafe_wkadv (b : Bit) : TreeSafe (bodyWkadv b) := fun s h => by
  cases htv : s.tv with
  | false =>
    rw [bodyWkadv, htv]
    exact ⟨trivial, h.tree⟩
  | true =>
    obtain ⟨c, hadv, hinv⟩ := advance_of_treeInv b h.tree htv
    rw [bodyWkadv, requireFlag_of htv, hadv]
    exact ⟨trivial, hinv⟩

theorem treeSafe_csave : TreeSafe bodyCsave :=
  treeSafe_of_keeps (fun s _ => outBytes_goes _ s) (bodyCsave_keeps treePart_blind)

theorem treeSafe_fsave : TreeSafe bodyFsave :=
  treeSafe_of_keeps (fun s _ => outBytes_goes _ s) (bodyFsave_keeps treePart_blind)

theorem treeSafe_cload : TreeSafe bodyCload :=
  treeSafe_of_keeps (fun s _ => (inFieldFrom_goes _ _ _ s).andThen fun _ _ _ => trivial)
    fun s => (bodyCload_keeps s).mono fun _ => treePart_of_countsErased

theorem treeSafe_fadds : TreeSafe bodyFadds :=
  treeSafe_of_keeps (fun s _ => requireFlag_goes fun _ => countRest_goes _ s)
    fun s => (bodyFadds_keeps s).mono fun _ => treePart_of_countsErased

theorem treeSafe_fload : TreeSafe bodyFload :=
  treeSafe_of_keeps (fun s _ => requireFlag_goes fun _ => loadTable_goes _ s)
    fun s => (bodyFload_keeps s).mono fun _ => treePart_of_countsErased

theorem treeSafe_esyms : TreeSafe bodyEsyms :=
  treeSafe_of_keeps (fun _ h => requireFlag_goes fun hcv => encodeRest_goes _ (codesWritten_of_good h hcv))
    fun s => (bodyEsyms_keeps s).mono fun _ => treePart_of_writerErased

theorem treeSafe_wflush : TreeSafe bodyWflush :=
  treeSafe_of_keeps (fun s _ => flush_goes s) fun s => (bodyWflush_keeps s).mono fun _ => treePart_of_writerErased

theorem treeSafe_rewindInput : TreeSafe rewindInput :=
  treeSafe_of_keeps (fun _ _ => trivial) (rewindInput_keeps treePart_blind)

theorem treeSafe_decodeLoop : TreeSafe fun s => decodeLoop (s.bitsLeft + 1) s := fun _ h =>
  decodeLoop_good _ h.tree (Nat.lt_succ_self _)

/-- A step of `ENCODE` or `DECODE`: it keeps the register invariant too. -/
def SequenceStep (x : State → Body Unit) : Prop :=
  TreeSafe x ∧ ∀ base s, RunInv base s → (x s).Leaves (RunInv base)

theorem doAll_good {l : List (State → Body Unit)} (hl : ∀ x ∈ l, SequenceStep x) (h : Good s) :
    (doAll l s).Goes ∧ (doAll l s).Leaves TreeInv := by
  induction l generalizing s with
  | nil => exact ⟨trivial, h.tree⟩
  | cons x l ih =>
    obtain ⟨hsafe, hrun⟩ := hl x (by simp)
    obtain ⟨hgoes, hleaves⟩ := hsafe s h
    have hregs := hrun s.io s (runInv_of_regInv h.regs)
    have hrest : ∀ u, x s = .done () u → _ := fun u hu =>
      ih (fun y hy => hl y (by simp [hy])) ⟨(hregs.of_done hu).regs, hleaves.of_done hu⟩
    rw [doAll]
    cases hb : x s with
    | stuck f => rw [hb] at hgoes; exact hgoes.elim
    | raise e u => exact ⟨trivial, hleaves.of_raise hb⟩
    | done a u => exact hrest u hb

theorem good_sessionInit (h : RegInv s) : Good s.sessionInit :=
  ⟨(runInv_of_regInv h).sessionInit.regs, treeInv_of_invalid rfl rfl⟩

theorem treeSafe_encode : TreeSafe bodyEncode := fun _ h => by
  have hall := doAll_good (l := [rewindInput, bodyFadds, bodyTbuild, bodyTcodes, bodyCsave, bodyFsave, rewindInput,
    bodyEsyms, bodyWflush]) ?_ (good_sessionInit h.regs)
  · exact ⟨hall.1.andThen fun _ _ _ => trivial, hall.2.andThen fun _ _ hu => treeInv_congr hu rfl⟩
  · have hrewind : SequenceStep rewindInput := ⟨treeSafe_rewindInput, fun _ _ h => h.inRewind⟩
    simp only [List.forall_mem_cons, List.not_mem_nil, false_imp_iff, implies_true, and_true]
    exact ⟨hrewind, ⟨treeSafe_fadds, fun _ _ => bodyOf_keepsRunInv .fadds⟩,
      ⟨treeSafe_tbuild, fun _ _ => bodyTbuild_keepsRunInv⟩, ⟨treeSafe_tcodes, fun _ _ => bodyTcodes_keepsRunInv⟩,
      ⟨treeSafe_csave, fun _ _ => outBytes_keepsRunInv _⟩, ⟨treeSafe_fsave, fun _ _ => outBytes_keepsRunInv _⟩, hrewind,
      ⟨treeSafe_esyms, fun _ _ => bodyOf_keepsRunInv .esyms⟩, ⟨treeSafe_wflush, fun _ _ => flush_keepsRunInv⟩⟩

theorem treeSafe_decode : TreeSafe bodyDecode := fun _ h => by
  have hall := doAll_good (l := [rewindInput, bodyCload, bodyFload, bodyTbuild, bodyTcodes,
    fun s => decodeLoop (s.bitsLeft + 1) s]) ?_ (good_sessionInit h.regs)
  · exact ⟨hall.1.andThen fun _ _ _ => trivial, hall.2.andThen fun _ _ hu => treeInv_congr hu rfl⟩
  · simp only [List.forall_mem_cons, List.not_mem_nil, false_imp_iff, implies_true, and_true]
    exact ⟨⟨treeSafe_rewindInput, fun _ _ h => h.inRewind⟩, ⟨treeSafe_cload, fun _ _ => bodyCload_keepsRunInv⟩,
      ⟨treeSafe_fload, fun _ _ => bodyOf_keepsRunInv .fload⟩, ⟨treeSafe_tbuild, fun _ _ => bodyTbuild_keepsRunInv⟩,
      ⟨treeSafe_tcodes, fun _ _ => bodyTcodes_keepsRunInv⟩,
      ⟨treeSafe_decodeLoop, fun _ _ => decodeLoop_keepsRunInv _⟩⟩

theorem treeSafe_bodyOf (i : Instr) : TreeSafe (bodyOf i) := by
  cases i with
  | nop | init => exact fun _ h => ⟨trivial, h.tree⟩
  | wbit b =>
    exact treeSafe_of_keeps (fun s _ => putBit_goes b s) fun s =>
      (bodyWbit_keeps b s).mono fun _ => treePart_of_writerErased
  | wcode sym =>
    exact treeSafe_of_keeps (fun s h => requireFlag_goes fun hcv => putSymbol_goes sym (codesWritten_of_good h hcv))
      fun s => (bodyWcode_keeps sym s).mono fun _ => treePart_of_writerErased
  | wflush => exact treeSafe_wflush
  | rbit =>
    exact treeSafe_of_keeps (fun s _ => (getBit_goes s).andThen fun _ _ _ => trivial) fun s =>
      leaves_erased_andThen treePart (getBit_keepsTreePart s) fun _ _ => rfl
  | fadd sym =>
    exact treeSafe_of_keeps (fun s _ => requireFlag_goes fun _ => countSym_goes sym s) fun s =>
      (bodyFadd_keeps sym s).mono fun _ => treePart_of_countsErased
  | fadds => exact treeSafe_fadds
  | fsave => exact treeSafe_fsave
  | fload => exact treeSafe_fload
  | tbuild => exact treeSafe_tbuild
  | tcodes => exact treeSafe_tcodes
  | trecon => exact treeSafe_trecon
  | wkrst => exact treeSafe_wkrst
  | wkadv b => exact treeSafe_wkadv b
  | csave => exact treeSafe_csave
  | cload => exact treeSafe_cload
  | esyms => exact treeSafe_esyms
  | dsym => exact fun _ h => ⟨(bodyDsym_good h.tree).1, (bodyDsym_good h.tree).2.1⟩
  | encode => exact treeSafe_encode
  | decode => exact treeSafe_decode

/-! Commands, words and events. -/

theorem pathsBroken_of_good (h : Good s) : s.pathsBroken = false := by
  cases htv : s.tv with
  | true => exact pathsBroken_of_treeOk (h.tree.tree htv)
  | false => simp [State.pathsBroken, htv]

theorem exec_good (i : Instr) (h : Good s) : ∃ t, exec i s = .next t ∧ TreeInv t := by
  by_cases hi : i = .init
  · subst hi
    exact ⟨_, rfl, treeInv_of_invalid rfl rfl⟩
  rw [exec_eq_runCommand hi (pathsBroken_of_good h)]
  by_cases hs : Running s
  · obtain ⟨hgoes, hleaves⟩ := treeSafe_bodyOf i s h
    rw [runCommand_running i _ hs]
    cases hb : bodyOf i s with
    | done a u => exact ⟨u, rfl, hleaves.of_done hb⟩
    | raise e u => exact ⟨_, rfl, treeInv_congr (hleaves.of_raise hb) (treePart_faultEntry e _ u)⟩
    | stuck f => rw [hb] at hgoes; exact hgoes.elim
  · exact ⟨s, runCommand_faulted i _ hs, h.tree⟩

theorem takeWord_good (w : CmdWord) (h : Good s) : ∃ t, takeWord w s = .next t ∧ TreeInv t := by
  unfold takeWord
  split
  · split
    · exact exec_good .init h
    · exact ⟨s, rfl, h.tree⟩
  · split
    · exact ⟨_, rfl, treeInv_congr h.tree (treePart_faultEntry _ _ s)⟩
    · exact exec_good _ h

/-- A step from a good state, by the event that the host presented. -/
theorem step_good (h : Good s) : ∃ t, step s = .next t ∧ TreeInv t := by
  have hrest : ∀ rest, Good { s with pending := rest } := fun _ => ⟨{ h.regs with }, treeInv_congr h.tree rfl⟩
  unfold step hostStep
  split
  · exact ⟨s, rfl, h.tree⟩
  · exact takeWord_good _ (hrest _)
  · exact ⟨_, rfl, treeInv_of_invalid rfl rfl⟩
  · rename_i w n rest hp
    obtain ⟨t, ht, -⟩ := takeWord_good w (hrest rest)
    exact ⟨_, by rw [resetWhileRunning, ht], treeInv_of_invalid rfl rfl⟩
  · exact ⟨_, rfl, treeInv_congr h.tree rfl⟩

end Sys2Proof.Machine

namespace Sys2Proof.Proofs

open Sys2Proof.Machine Sys2Proof.Safety

/-- Settles O59: `TBUILD` and `TRECON` leave whole trees, `TCODES` their paths, the walker moves along edges, and each
round of a loop takes a byte or a bit or raises. -/
theorem everyStepFromAGoodStateGoesOn : Obligations.EveryStepFromAGoodStateGoesOn := by
  intro s h
  obtain ⟨t, ht, htree⟩ := step_good h
  exact ⟨t, ht, step_keepsRegInv h.regs ht, htree⟩

end Sys2Proof.Proofs

namespace Sys2Proof.Machine

/-! ### The walker (43_walker.md R181 to R185) -/

open Sys2Proof.Safety

variable {s t : State} {b : Bit} {n m : Node} {tree : TreeRam} {i j : NodeIndex} {T T' : Shape} {q : List Bit}

/-! One bit: `Advance` and `WKADV`. -/

theorem advance_inner (hn : nodeAt s.tree s.cur = some n) (hleaf : n.leaf = false) :
    advance b s = .done () { s with cur := n.child b } := by
  simp [advance, hn, hleaf]

/-- At a leaf the bit is applied from the root (43_walker.md R183). -/
theorem advance_atLeaf (hn : nodeAt s.tree s.cur = some n) (hleaf : n.leaf = true)
    (hm : nodeAt s.tree s.root = some m) : advance b s = .done () { s with cur := m.child b } := by
  simp [advance, hn, hleaf, hm]

theorem exec_wkadv_of_advance (hs : Running s) (htv : s.tv = true) (h : advance b s = .done () t) :
    exec (.wkadv b) s = .next t :=
  runCommand_done hs (by rw [bodyWkadv, requireFlag_of htv, h])

theorem leafView_inner (hn : nodeAt s.tree s.cur = some n) (hleaf : n.leaf = false) : s.leafView = false := by
  simp [State.leafView, State.atLeaf, hn, hleaf]

/-! Several bits: `WKADV` for each goes where the bits lead in `TREE`. -/

theorem walkFrom_cons_eq_some :
    walkFrom tree i (b :: q) = some j ↔
      ∃ n, nodeAt tree i = some n ∧ n.leaf = false ∧ walkFrom tree (n.child b) q = some j := by
  rw [walkFrom]
  cases nodeAt tree i with
  | none => simp
  | some n => cases hleaf : n.leaf <;> simp [hleaf]

theorem feedWalker_cons (hs : Running s) (htv : s.tv = true) (h : advance b s = .done () t) :
    feedWalker (b :: q) s = feedWalker q t := by
  rw [feedWalker, exec_wkadv_of_advance hs htv h]

theorem feedWalker_of_walkFrom (hs : Running s) (htv : s.tv = true) (hw : walkFrom s.tree s.cur q = some j) :
    feedWalker q s = .next { s with cur := j } := by
  induction q generalizing s with
  | nil =>
    obtain rfl : s.cur = j := Option.some.inj hw
    rfl
  | cons b q ih =>
    obtain ⟨n, hn, hleaf, hw⟩ := walkFrom_cons_eq_some.mp hw
    rw [feedWalker_cons hs htv (advance_inner hn hleaf)]
    exact ih (s := { s with cur := n.child b }) hs htv hw

/-- With no bit of a codeword taken, the bits lead from the root, also where the walker still stands at the leaf of the
codeword before. -/
theorem feedWalker_of_walkFrom_root (hs : Running s) (htv : s.tv = true) (hfresh : s.cur = s.root ∨ s.leafView = true)
    (hq : q ≠ []) (hw : walkFrom s.tree s.root q = some j) : feedWalker q s = .next { s with cur := j } := by
  obtain hroot | hview := hfresh
  · exact feedWalker_of_walkFrom hs htv (hroot ▸ hw)
  · obtain ⟨-, n, hn, hleaf⟩ := leafView_iff.mp hview
    obtain ⟨b, q, rfl⟩ := List.exists_cons_of_ne_nil hq
    obtain ⟨m, hm, -, hw⟩ := walkFrom_cons_eq_some.mp hw
    rw [feedWalker_cons hs htv (advance_atLeaf hn hleaf hm)]
    exact feedWalker_of_walkFrom (s := { s with cur := m.child b }) hs htv hw

/-- Bits that lead somewhere in a tree lead there in the `TREE` that holds it. -/
theorem Shape.LiesAt.exists_walk (h : T.LiesAt tree i) (hsub : T.sub q = some T') :
    ∃ j, walkFrom tree i q = some j ∧ T'.LiesAt tree j := by
  induction q generalizing T i with
  | nil =>
    obtain rfl : T = T' := by simpa using hsub
    exact ⟨i, rfl, h⟩
  | cons b q ih =>
    cases T with
    | leaf sym => cases hsub
    | node l r =>
      obtain ⟨n, hn, hleaf, hl, hr⟩ := h
      have hchild : (if b then r else l).LiesAt tree (n.child b) := by
        cases b
        · exact hl
        · exact hr
      obtain ⟨j, hw, hj⟩ := ih hchild hsub
      exact ⟨j, walkFrom_cons_eq_some.mpr ⟨n, hn, hleaf, hw⟩, hj⟩

/-- What the walker shows after the bits to a node of the tree, from the root or from a leaf. -/
theorem feedWalker_of_sub (hs : Running s) (htv : s.tv = true) (hfresh : s.cur = s.root ∨ s.leafView = true)
    (hT : T.LiesAt s.tree s.root) (hq : q ≠ []) (hsub : T.sub q = some T') :
    ∃ j, feedWalker q s = .next { s with cur := j } ∧ T'.LiesAt s.tree j := by
  obtain ⟨j, hw, hj⟩ := hT.exists_walk hsub
  exact ⟨j, feedWalker_of_walkFrom_root hs htv hfresh hq hw, hj⟩

end Sys2Proof.Machine

namespace Sys2Proof.Proofs

open Sys2Proof.Machine Sys2Proof.Safety

/-- Settles O41: the bits of a path lead to the leaf of its symbol, those of a proper part to an internal node. -/
theorem walkerDecodesAPath : Obligations.WalkerDecodesAPath := by
  intro s sym p hs hgood htv hfresh hpath
  obtain ⟨T, hT, hfull⟩ := treeOk_iff.mp (hgood.tree.tree htv)
  have hcode := (hfull.pathIs_iff hT).mp hpath
  have hend := Shape.mem_codes_iff.mp hcode
  constructor
  · obtain ⟨j, hfeed, n, hn, hleaf, hsym⟩ := feedWalker_of_sub hs htv hfresh hT (hfull.code_ne_nil hcode) hend
    have hview : ({ s with cur := j } : State).leafView = true := leafView_iff.mpr ⟨htv, n, hn, hleaf⟩
    obtain ⟨n', hn', hshown⟩ := symView_atLeaf hview
    obtain rfl : n = n' := Option.some.inj (hn.symm.trans hn')
    exact ⟨_, hfeed, rfl, hview, hshown.trans hsym⟩
  · intro q ⟨r, hr⟩ hq hne
    obtain ⟨b, r, rfl⟩ : ∃ b r', r = b :: r' := List.exists_cons_of_ne_nil fun h => hne (by simpa [h] using hr)
    rw [← hr] at hend
    obtain ⟨_, _, hinner⟩ := Shape.mem_inner_iff.mp (Shape.mem_inner_of_sub hend)
    obtain ⟨j, hfeed, n, hn, hleaf, -⟩ := feedWalker_of_sub hs htv hfresh hT hq hinner
    exact ⟨_, hfeed, leafView_inner hn hleaf⟩

/-- Settles O39: the command writes `CUR` alone, and the root of a whole tree is internal. -/
theorem wkrstReturnsToTheRoot : Obligations.WkrstReturnsToTheRoot := by
  refine ⟨rfl, fun s hs => ⟨fun htv => ?_, fun htv => ?_, fun hgood htv => ?_⟩⟩
  · exact runCommand_done hs (by rw [bodyWkrst, requireFlag_of htv])
  · exact runCommand_raised hs (by rw [bodyWkrst, htv, requireFlag_false])
  · obtain ⟨T, hT, hfull⟩ := treeOk_iff.mp (hgood.tree.tree htv)
    obtain ⟨m, hm, hleaf⟩ := hfull.root_internal hT
    exact leafView_inner hm hleaf

/-- Settles O40: `Advance` at an internal node and at a leaf; without a tree the body raises before it. -/
theorem wkadvFollowsTheBit : Obligations.WkadvFollowsTheBit := by
  refine fun s b hs => ⟨by revert b; decide, fun n htv hn hleaf => ?_, fun n m htv hn hleaf hm => ?_, fun htv => ?_⟩
  · exact exec_wkadv_of_advance hs htv (advance_inner hn hleaf)
  · exact exec_wkadv_of_advance hs htv (advance_atLeaf hn hleaf hm)
  · exact runCommand_raised hs (by rw [bodyWkadv, htv, requireFlag_false])

end Sys2Proof.Proofs

namespace Sys2Proof.Machine

/-! ### `DSYM` takes the bits of one path (44_archiver.md R195) -/

open Sys2Proof.Safety

variable {s t u : State} {sym : Symbol} {b : Bit} {n : Nat} {p q rest : List Bit} {T l r : Shape} {m : Node}

/-! What recorded calls leave to the calls that follow. -/

theorem readsSucceed_of_reaches (h : Reaches s.io t.io) (hr : ReadsSucceed s) : ReadsSucceed t := by
  obtain ⟨cs, hcs⟩ := h
  intro d hd
  rw [hcs, replay_readDraws] at hd
  exact hr d (List.mem_of_mem_drop hd)

theorem writesSucceed_of_reaches (h : Reaches s.io t.io) (hw : WritesSucceed s) : WritesSucceed t := by
  obtain ⟨cs, hcs⟩ := h
  intro d hd
  rw [hcs, replay_writeDraws] at hd
  exact hw d (List.mem_of_mem_drop hd)

theorem inData_of_reaches (h : Reaches s.io t.io) : t.io.inData = s.io.inData := by
  obtain ⟨cs, hcs⟩ := h
  rw [hcs, replay_inData]

/-! The frame of `GetBit` and `Advance`. -/

/-- All but what taking bits and walking write. A byte taken moves `IN.pos` and `RBYTES` together and stays inside
the input, so of the two their difference is kept, and that `IN.pos` is not behind the end. -/
def bitsErased (s : State) : State :=
  { s with
    rsr := 0, rcnt := 0, cur := 0, rbytes := s.rbytes - BitVec.ofNat 64 s.io.inPos
    io := { s.io with inPos := max s.io.inPos s.io.inData.length, readDraws := [], calls := [] } }

theorem bitsErased_byteTaken {v : Byte} (ha : s.io.inAnswer = .byte v) (a : BitVec 8) (c : BitVec 4) :
    bitsErased { s with rsr := a, rcnt := c, rbytes := s.rbytes + 1, io := s.io.afterRead (.byte v) } =
      bitsErased s := by
  have hlt := (inPos_lt_of_byte s.io ha).1
  have hpos : max (s.io.inPos + 1) s.io.inData.length = max s.io.inPos s.io.inData.length := by omega
  have hcount : s.rbytes + 1 - BitVec.ofNat 64 (s.io.inPos + 1) = s.rbytes - BitVec.ofNat 64 s.io.inPos := by
    rw [BitVec.ofNat_add]
    exact add_sub_add_right_eq_sub _ _ _
  simp only [bitsErased, Streams.afterRead, hpos, hcount]

theorem getBit_keepsBitsErased (s : State) : (getBit s).Leaves fun u => bitsErased u = bitsErased s := by
  by_cases h0 : s.rcnt = 0
  · cases ha : s.io.inAnswer with
    | byte v => rw [getBit_refilled h0 ha]; exact bitsErased_byteTaken ha _ _
    | eof => rw [getBit_eof h0 ha]; rfl
    | err => rw [getBit_err h0 ha]; rfl
  · rw [getBit_buffered h0]; rfl

theorem advance_keepsBitsErased (b : Bit) (s : State) :
    (advance b s).Leaves fun u => bitsErased u = bitsErased s := by
  unfold advance
  split
  · trivial
  · split
    · trivial
    · rfl

theorem walkToLeaf_keepsBitsErased (n : Nat) (s : State) :
    (walkToLeaf n s).Leaves fun u => bitsErased u = bitsErased s := by
  induction n generalizing s with
  | zero => trivial
  | succ n ih =>
    refine leaves_erased_andThen bitsErased (getBit_keepsBitsErased s) fun b u => ?_
    refine leaves_erased_andThen bitsErased (advance_keepsBitsErased b u) fun _ v => ?_
    split
    · trivial
    · split
      · rfl
      · exact ih v

/-! Where the next bit is applied. -/

/-- The node at which the next bit is applied: `CUR`, or the root when `CUR` is a leaf (43_walker.md R181). -/
def State.bitNode (s : State) : NodeIndex := if s.atLeaf then s.root else s.cur

theorem advance_bitNode (hm : nodeAt s.tree s.bitNode = some m) :
    advance b s = .done () { s with cur := m.child b } := by
  by_cases hleaf : s.atLeaf = true
  · rw [State.bitNode, if_pos hleaf] at hm
    obtain ⟨n, hn, hnleaf⟩ := atLeaf_iff.mp hleaf
    exact advance_atLeaf hn hnleaf hm
  · rw [State.bitNode, if_neg hleaf] at hm
    exact advance_inner hm (by simpa [State.atLeaf, hm] using hleaf)

/-- At an internal node the next bit is applied there. -/
theorem bitNode_of_inner (h : (Shape.node l r).LiesAt s.tree s.cur) : s.bitNode = s.cur := by
  obtain ⟨m, hm, hleaf, -⟩ := h
  have hnot : s.atLeaf = false := by simp [State.atLeaf, hm, hleaf]
  rw [State.bitNode, hnot]
  rfl

/-- At a leaf no bit of the next codeword is taken (43_walker.md R181). -/
theorem walkedBits_atLeaf (h : (Shape.leaf sym).LiesAt s.tree s.cur) : WalkedBits s [] := by
  obtain ⟨m, hm, hleaf, -⟩ := h
  rw [WalkedBits, if_pos (atLeaf_iff.mpr ⟨m, hm, hleaf⟩)]

theorem walkFrom_of_walkedBits (h : WalkedBits s q) : walkFrom s.tree s.root q = some s.bitNode := by
  by_cases hleaf : s.atLeaf = true
  · rw [WalkedBits, if_pos hleaf] at h
    rw [State.bitNode, if_pos hleaf, h]
    rfl
  · rw [WalkedBits, if_neg hleaf] at h
    rw [State.bitNode, if_neg hleaf, h]

/-- Inside a codeword the next bit is applied at an internal node of the tree. -/
theorem exists_inner_of_walkedBits (hT : T.LiesAt s.tree s.root) (hfull : T.Full) (h : WalkedBits s q) :
    ∃ l r, T.sub q = some (.node l r) ∧ (Shape.node l r).LiesAt s.tree s.bitNode := by
  obtain ⟨S, hsub, hS⟩ := hT.of_walk (walkFrom_of_walkedBits h)
  cases S with
  | node l r => exact ⟨l, r, hsub, hS⟩
  | leaf x =>
    obtain ⟨m, hm, hleaf, -⟩ := hS
    have hinner : ∃ m', nodeAt s.tree s.bitNode = some m' ∧ m'.leaf = false := by
      by_cases hat : s.atLeaf = true
      · rw [State.bitNode, if_pos hat]
        exact hfull.root_internal hT
      · rw [State.bitNode, if_neg hat] at hm ⊢
        exact ⟨m, hm, by simpa [State.atLeaf, hm] using hat⟩
    obtain ⟨m', hm', hnot⟩ := hinner
    obtain rfl : m = m' := Option.some.inj (hm.symm.trans hm')
    exact absurd hleaf (by simp [hnot])

/-! The bits that are left. -/

theorem length_inputBits (s : State) : (inputBits s).length = s.bitsLeft := by
  simp [inputBits, readerBits, length_bytesBits, length_restOfInput, State.bitsLeft]

theorem getBit_atEnd (hr : ReadsSucceed s) (h : inputBits s = []) :
    getBit s = .raise .eEof { s with io := s.io.afterRead .eof } := by
  have hlen := length_inputBits s
  rw [h, List.length_nil, State.bitsLeft, ← length_restOfInput] at hlen
  refine getBit_eof (BitVec.eq_of_toNat_eq ?_) (inAnswer_eq_eof hr (List.length_eq_zero_iff.mp (by omega)))
  show s.rcnt.toNat = 0
  omega

/-- `GetBit` moves neither the tree nor the walker. -/
theorem getBit_walker (h : getBit s = .done b u) : u.tree = s.tree ∧ u.bitNode = s.bitNode := by
  have hpart := (getBit_keepsTreePart s).of_done h
  have htree : (treePart u).tree = (treePart s).tree := congrArg State.tree hpart
  have hnode : (treePart u).bitNode = (treePart s).bitNode := congrArg State.bitNode hpart
  exact ⟨htree, hnode⟩

/-- One round of `DSYM` goes to a child of the node at which the bit is applied: at a leaf it is the last round. -/
theorem walkToLeaf_round (hbit : getBit s = .done b u) (hS : (Shape.node l r).LiesAt s.tree s.bitNode) (n : Nat) :
    ∃ m, nodeAt s.tree s.bitNode = some m ∧ m.leaf = false ∧
      (if b then r else l).LiesAt s.tree (m.child b) ∧
      (∀ sym, (if b then r else l) = .leaf sym → walkToLeaf (n + 1) s = .done sym { u with cur := m.child b }) ∧
      ∀ l' r', (if b then r else l) = .node l' r' →
        walkToLeaf (n + 1) s = walkToLeaf n { u with cur := m.child b } := by
  obtain ⟨htree, hnode⟩ := getBit_walker hbit
  obtain ⟨m, hm, hinner, hl, hr⟩ := hS
  have hadv : advance b u = .done () { u with cur := m.child b } := advance_bitNode (by rw [htree, hnode, hm])
  have hchild : (if b then r else l).LiesAt s.tree (m.child b) := by
    cases b
    · exact hl
    · exact hr
  refine ⟨m, hm, hinner, hchild, fun sym hleaf => ?_, fun l' r' hgo => ?_⟩
  · rw [hleaf] at hchild
    obtain ⟨nd, hnd, hndleaf, rfl⟩ := hchild
    rw [walkToLeaf, hbit, andThen_done, hadv, andThen_done]
    simp only [htree, hnd, hndleaf, if_true]
  · rw [hgo] at hchild
    obtain ⟨nd, hnd, hndleaf, -⟩ := hchild
    rw [walkToLeaf, hbit, andThen_done, hadv, andThen_done]
    simp only [htree, hnd, hndleaf, Bool.false_eq_true, if_false]

/-- The bits of a path lead `DSYM` to its leaf, and those behind it stay. -/
theorem walkToLeaf_path (hS : (Shape.node l r).LiesAt s.tree s.bitNode)
    (hp : (Shape.node l r).sub p = some (.leaf sym)) (hr : ReadsSucceed s) (h8 : s.rcnt.toNat ≤ 8)
    (hin : inputBits s = p ++ rest) (hn : p.length ≤ n) :
    ∃ u, walkToLeaf n s = .done sym u ∧ (Shape.leaf sym).LiesAt s.tree u.cur ∧ inputBits u = rest ∧
      u.rcnt.toNat < 8 := by
  induction p generalizing s n l r with
  | nil => cases hp
  | cons b p ih =>
    obtain ⟨n, rfl⟩ := Nat.exists_eq_succ_of_ne_zero (Nat.ne_zero_of_lt hn)
    obtain ⟨u, hbit, hrest, hlt, hru⟩ := getBit_inputBits hr h8 hin
    obtain ⟨m, -, -, hchild, hlast, hgo⟩ := walkToLeaf_round hbit hS n
    have hp : (if b then r else l).sub p = some (.leaf sym) := hp
    have htree := (getBit_walker hbit).1
    cases hc : (if b then r else l) with
    | leaf x =>
      rw [hc] at hp hchild
      cases p with
      | cons c p => cases hp
      | nil =>
        cases hp
        exact ⟨_, hlast sym hc, hchild, hrest, hlt⟩
    | node l' r' =>
      rw [hc] at hp hchild
      have hS' : (Shape.node l' r').LiesAt u.tree (m.child b) := htree ▸ hchild
      have hnode : ({ u with cur := m.child b } : State).bitNode = m.child b := bitNode_of_inner hS'
      obtain ⟨v, hv, hleaf, hvrest, hvlt⟩ :=
        ih (s := { u with cur := m.child b }) (by rw [hnode]; exact hS') hp hru hlt.le hrest (Nat.le_of_succ_le_succ hn)
      exact ⟨v, (hgo l' r' hc).trans hv, htree ▸ hleaf, hvrest, hvlt⟩

/-- Bits that do not reach a leaf are all taken, and the next one is missing (60_exceptions.md R224). -/
theorem walkToLeaf_short (hS : (Shape.node l r).LiesAt s.tree s.bitNode)
    (hshort : ∀ sym p, (Shape.node l r).sub p = some (.leaf sym) → ¬ p <+: q) (hr : ReadsSucceed s)
    (h8 : s.rcnt.toNat ≤ 8) (hin : inputBits s = q) (hn : q.length < n) :
    ∃ u, walkToLeaf n s = .raise .eEof u ∧ inputBits u = [] ∧ (q = [] → u.cur = s.cur) ∧
      (q ≠ [] → walkFrom s.tree s.bitNode q = some u.cur) := by
  induction q generalizing s n l r with
  | nil =>
    obtain ⟨n, rfl⟩ := Nat.exists_eq_succ_of_ne_zero (Nat.ne_zero_of_lt hn)
    have hwalk : walkToLeaf (n + 1) s = .raise .eEof { s with io := s.io.afterRead .eof } := by
      rw [walkToLeaf, getBit_atEnd hr hin, andThen_raise]
    exact ⟨_, hwalk, hin, fun _ => rfl, fun h => absurd rfl h⟩
  | cons b q ih =>
    obtain ⟨n, rfl⟩ := Nat.exists_eq_succ_of_ne_zero (Nat.ne_zero_of_lt hn)
    obtain ⟨u, hbit, hrest, hlt, hru⟩ := getBit_inputBits hr h8 hin
    obtain ⟨m, hm, hinner, hchild, -, hgo⟩ := walkToLeaf_round hbit hS n
    have htree := (getBit_walker hbit).1
    cases hc : (if b then r else l) with
    | leaf x =>
      exact absurd (List.cons_prefix_cons.mpr ⟨rfl, List.nil_prefix⟩) (hshort x [b] (congrArg some hc))
    | node l' r' =>
      rw [hc] at hchild
      have hS' : (Shape.node l' r').LiesAt u.tree (m.child b) := htree ▸ hchild
      have hnode : ({ u with cur := m.child b } : State).bitNode = m.child b := bitNode_of_inner hS'
      have hshort' : ∀ sym p, (Shape.node l' r').sub p = some (.leaf sym) → ¬ p <+: q := fun sym p hp hpre =>
        hshort sym (b :: p) ((congrArg (Shape.sub · p) hc).trans hp) (List.cons_prefix_cons.mpr ⟨rfl, hpre⟩)
      obtain ⟨v, hv, hend, hnone, hsome⟩ := ih (s := { u with cur := m.child b }) (by rw [hnode]; exact hS') hshort' hru
        hlt.le hrest (Nat.lt_of_succ_lt_succ hn)
      refine ⟨v, (hgo l' r' hc).trans hv, hend, nofun, fun _ => walkFrom_cons_eq_some.mpr ⟨m, hm, hinner, ?_⟩⟩
      by_cases hq : q = []
      · rw [hq, hnone hq]
        rfl
      · rw [← htree, ← hnode]
        exact hsome hq

end Sys2Proof.Machine

namespace Sys2Proof.Machine

/-! ### What `DSYM` leaves (44_archiver.md R195) -/

open Sys2Proof.Safety

variable {s t u : State} {sym : Symbol} {p rest : List Bit} {l r : Shape}

theorem eq_of_bitsErased (h : bitsErased t = bitsErased s) :
    t = { s with rsr := t.rsr, rcnt := t.rcnt, rbytes := t.rbytes, cur := t.cur, io := t.io } := by
  cases s; cases t; simp_all [bitsErased]

/-- All but what decoding symbols writes: the output and `EMIT` too. -/
def symbolsErased (s : State) : State :=
  { bitsErased s with emit := 0, io := { (bitsErased s).io with outData := [], writeDraws := [] } }

theorem eq_of_symbolsErased (h : symbolsErased t = symbolsErased s) :
    t = { s with
      rsr := t.rsr, rcnt := t.rcnt, rbytes := t.rbytes, cur := t.cur, emit := t.emit, io := t.io } := by
  cases s; cases t; simp_all [symbolsErased, bitsErased]

/-- Bits that were taken and a byte that was written are erased. -/
theorem symbolsErased_emitted (h : bitsErased u = bitsErased s) (v : Byte) (c : Count) :
    symbolsErased { u with io := u.io.afterWrite v true, emit := c } = symbolsErased s :=
  congrArg (fun e : State => { e with emit := 0, io := { e.io with outData := [], writeDraws := [] } }) h

/-- From `s` to `u` these symbols were decoded, and these bits are left. -/
structure Decoded (xs : List Symbol) (rest : List Bit) (s u : State) : Prop where
  frame : symbolsErased u = symbolsErased s
  output : u.io.outData = s.io.outData ++ xs
  count : u.emit = s.emit + BitVec.ofNat 64 xs.length
  bits : inputBits u = rest
  buffered : u.rcnt.toNat < 8

/-- `DSYM` with the bits of a path to come. -/
theorem bodyDsym_decodes (htv : s.tv = true) (hS : (Shape.node l r).LiesAt s.tree s.bitNode)
    (hp : (Shape.node l r).sub p = some (.leaf sym)) (hr : ReadsSucceed s) (hw : WritesSucceed s)
    (h8 : s.rcnt.toNat ≤ 8) (hin : inputBits s = p ++ rest) :
    ∃ u, bodyDsym s = .done () u ∧ (Shape.leaf sym).LiesAt s.tree u.cur ∧ Decoded [sym] rest s u := by
  have hn : p.length ≤ s.bitsLeft + 1 := by
    rw [← length_inputBits, hin, List.length_append]
    omega
  obtain ⟨u, hu, hleaf, hrest, hlt⟩ := walkToLeaf_path hS hp hr h8 hin hn
  have hframe := (walkToLeaf_keepsBitsErased _ s).of_done hu
  have hout : u.io.outData = s.io.outData := congrArg (·.io.outData) hframe
  have hemit : u.emit = s.emit := congrArg (·.emit) hframe
  have hacc := outAccepts_of_writesSucceed (writesSucceed_of_reaches ((walkToLeaf_reaches _ s).of_done hu) hw)
  refine ⟨{ u with io := u.io.afterWrite sym true, emit := u.emit + 1 }, ?_, hleaf,
    symbolsErased_emitted hframe sym _, congrArg (· ++ [sym]) hout, congrArg (· + 1) hemit, hrest, hlt⟩
  rw [bodyDsym, requireFlag_of htv, hu, andThen_done, outByte_accepted sym hacc, andThen_done]

/-- `DSYM` with the input ending inside a codeword. -/
theorem bodyDsym_short (htv : s.tv = true) (hS : (Shape.node l r).LiesAt s.tree s.bitNode)
    (hshort : ∀ sym p, (Shape.node l r).sub p = some (.leaf sym) → ¬ p <+: inputBits s) (hr : ReadsSucceed s)
    (h8 : s.rcnt.toNat ≤ 8) :
    ∃ u, bodyDsym s = .raise .eEof u ∧ bitsErased u = bitsErased s ∧ inputBits u = [] ∧
      (inputBits s = [] → u.cur = s.cur) ∧
      (inputBits s ≠ [] → walkFrom s.tree s.bitNode (inputBits s) = some u.cur) := by
  obtain ⟨u, hu, hend⟩ :=
    walkToLeaf_short hS hshort hr h8 rfl (n := s.bitsLeft + 1) (by rw [length_inputBits]; exact Nat.lt_succ_self _)
  exact ⟨u, by rw [bodyDsym, requireFlag_of htv, hu, andThen_raise], (walkToLeaf_keepsBitsErased _ s).of_raise hu, hend⟩

end Sys2Proof.Machine

namespace Sys2Proof.Proofs

open Sys2Proof.Machine Sys2Proof.Safety

/-- Settles O45: the bits to come lead from where the walker stands to the leaf of the symbol. -/
theorem dsymDecodesOneSymbol : Obligations.DsymDecodesOneSymbol := by
  intro s sym q p rest hs hgood htv hr hw hwalked hpath hin
  obtain ⟨T, hT, hfull⟩ := treeOk_iff.mp (hgood.tree.tree htv)
  obtain ⟨l, r, hsub, hS⟩ := exists_inner_of_walkedBits hT hfull hwalked
  have hp : (Shape.node l r).sub p = some (.leaf sym) := by
    have hqp := Shape.mem_codes_iff.mp ((hfull.pathIs_iff hT).mp hpath)
    rwa [Shape.sub_append, hsub] at hqp
  obtain ⟨t, ht, hleaf, hdec⟩ := bodyDsym_decodes htv hS hp hr hw hgood.regs.readerCount hin
  obtain ⟨n, hn, hnleaf, hnsym⟩ := hleaf
  have hframe := eq_of_symbolsErased hdec.frame
  have htree : t.tree = s.tree := congrArg (·.tree) hdec.frame
  have hview : t.leafView = true := leafView_iff.mpr ⟨(congrArg (·.tv) hdec.frame).trans htv, n, htree ▸ hn, hnleaf⟩
  have hshown : t.symView = sym := by
    obtain ⟨n', hn', hshown⟩ := symView_atLeaf hview
    rw [htree, hn] at hn'
    rw [hshown, ← Option.some.inj hn', hnsym]
  refine ⟨t, runCommand_done hs ht, ?_, hview, hshown, hdec.bits, hdec.buffered, hdec.output,
    congrArg (·.io.inData) hdec.frame⟩
  rw [hdec.count] at hframe
  exact hframe

/-- Settles O46: no way from where the walker stands to a leaf is among the bits left, so `GetBit` meets the end. -/
theorem dsymInsideACodewordIsEEof : Obligations.DsymInsideACodewordIsEEof := by
  intro s q hs hgood htv hr hwalked hnone
  obtain ⟨T, hT, hfull⟩ := treeOk_iff.mp (hgood.tree.tree htv)
  obtain ⟨l, r, hsub, hS⟩ := exists_inner_of_walkedBits hT hfull hwalked
  have hshort : ∀ sym p, (Shape.node l r).sub p = some (.leaf sym) → ¬ p <+: inputBits s := fun sym p hp => by
    refine hnone sym p ((hfull.pathIs_iff hT).mpr (Shape.mem_codes_iff.mpr ?_))
    rw [Shape.sub_append, hsub]
    exact hp
  obtain ⟨t, ht, hframe, hend, hstay, hmove⟩ := bodyDsym_short htv hS hshort hr hgood.regs.readerCount
  refine ⟨t, runCommand_raised hs ht, eq_of_bitsErased hframe, hend, congrArg (·.io.outData) hframe, hstay,
    fun hne => ?_⟩
  rw [walkFrom_append, walkFrom_of_walkedBits hwalked]
  exact hmove hne

end Sys2Proof.Proofs

namespace Sys2Proof.Machine

/-! ### The count field and the codewords of the rest of the input (44_archiver.md R192 to R194) -/

open Sys2Proof.Safety

variable {s t u : State} {n : Nat} {xs : List Byte}

/-! The count field. -/

theorem getElem?_fieldBytes (v : Count) {k : Nat} (hk : k < 8) : (fieldBytes v)[k]? = some (fieldByte v k) := by
  simp [fieldBytes, hk]

/-- The reading of a field up to the read that fails (44_archiver.md R193, 20_memory.md R61). -/
theorem inFieldFrom_failed {j : Nat} (k : Nat) (c : Count) (hn : j < n) (hlen : j ≤ (restOfInput s).length)
    (hj : s.io.readDraws[j]? = some true) (hbelow : ∀ k < j, s.io.readDraws[k]? = some false) :
    inFieldFrom n k c s = .raise .eIO { s with io := (tookBytes s.io j).afterRead .err } := by
  induction j generalizing s n k c with
  | zero =>
    obtain ⟨n, rfl⟩ := Nat.exists_eq_succ_of_ne_zero (Nat.ne_zero_of_lt hn)
    have ha : s.io.inAnswer = .err := inAnswer_of_failure s.io (by rw [List.head?_eq_getElem?, hj]; rfl)
    rw [inFieldFrom, inByte_err .eHeader ha, andThen_raise, tookBytes_zero]
  | succ j ih =>
    obtain ⟨n, rfl⟩ := Nat.exists_eq_succ_of_ne_zero (Nat.ne_zero_of_lt hn)
    obtain ⟨v, vs, hrest⟩ := List.exists_cons_of_length_pos (Nat.zero_lt_of_lt hlen)
    have ha : s.io.inAnswer = .byte v :=
      inAnswer_of_byte s.io (by rw [List.head?_eq_getElem?, hbelow 0 (Nat.succ_pos j)]; rfl) (restOfInput_cons hrest).1
    have hdraw (k : Nat) : (tookBytes s.io 1).readDraws[k]? = s.io.readDraws[k + 1]? := by
      simp [tookBytes]
    have hlen' : j ≤ (restOfInput { s with io := tookBytes s.io 1 }).length := by
      rw [restOfInput_tookBytes, List.length_drop]
      omega
    rw [inFieldFrom, inByte_byte .eHeader ha, ← tookBytes_one ha, andThen_done,
      ih (s := { s with io := tookBytes s.io 1 }) _ _ (Nat.lt_of_succ_lt_succ hn) hlen' ((hdraw j).trans hj)
        fun k hk => (hdraw k).trans (hbelow (k + 1) (Nat.succ_lt_succ hk)),
      tookBytes_add, Nat.add_comm 1]

/-! The loop of `ESYMS`. -/

/-- From `s` to `t` bytes were added to the output, and `WBYTES` counted them. -/
def CountedOutput (s t : State) : Prop :=
  ∃ bytes, t.io.outData = s.io.outData ++ bytes ∧ t.wbytes = s.wbytes + BitVec.ofNat 64 bytes.length

theorem CountedWrites.countedOutput (h : CountedWrites s t) : CountedOutput s t := by
  obtain ⟨bytes, hio, hcount⟩ := h
  exact ⟨bytes, congrArg Streams.outData hio, hcount⟩

theorem CountedOutput.of_eq (hout : t.io.outData = s.io.outData) (hcount : t.wbytes = s.wbytes) : CountedOutput s t :=
  ⟨[], by rw [hout, List.append_nil], by rw [hcount]; exact (BitVec.add_zero _).symm⟩

theorem CountedOutput.trans (h₁ : CountedOutput s t) (h₂ : CountedOutput t u) : CountedOutput s u := by
  obtain ⟨a, hout, hcount⟩ := h₁
  obtain ⟨b, hout', hcount'⟩ := h₂
  refine ⟨a ++ b, ?_, ?_⟩
  · rw [hout', hout, List.append_assoc]
  · rw [hcount', hcount, List.length_append, BitVec.ofNat_add, BitVec.add_assoc]

theorem encodeRest_atEnd (n : Nat) (ha : s.io.inAnswer = .eof) :
    encodeRest (n + 1) s = .done () { s with io := s.io.afterRead .eof } := by
  rw [encodeRest, inByteOrStop_eof ha, andThen_done]

/-- One round of the loop of `ESYMS`. -/
theorem encodeRest_byte (n : Nat) {v : Byte} (ha : s.io.inAnswer = .byte v)
    (hput : putSymbol v { s with io := s.io.afterRead (.byte v) } = .done () u) :
    encodeRest (n + 1) s = encodeRest n u := by
  rw [encodeRest, inByteOrStop_byte ha, andThen_done]
  exact congrArg (Body.andThen · fun _ s => encodeRest n s) hput

/-- The loop of `ESYMS` puts the codewords of the bytes left and sees the end of the input. -/
theorem encodeRest_writes (hx : restOfInput s = xs) (hn : xs.length ≤ n) (hr : ReadsSucceed s) (hw : WritesSucceed s)
    (hcodes : CodesWritten s) :
    ∃ t, encodeRest (n + 1) s = .done () t ∧ writtenBits t = writtenBits s ++ codewordsOf s.code xs ∧
      t.io.inPos = s.io.inPos + xs.length ∧ CountedOutput s t := by
  induction xs generalizing s n with
  | nil =>
    exact ⟨_, encodeRest_atEnd n (inAnswer_eq_eof hr hx), (List.append_nil _).symm, rfl,
      .of_eq rfl rfl⟩
  | cons v vs ih =>
    obtain ⟨n, rfl⟩ := Nat.exists_eq_succ_of_ne_zero (Nat.ne_zero_of_lt hn)
    have ha : s.io.inAnswer = .byte v :=
      inAnswer_of_byte s.io (readHead_of_readsSucceed hr) (restOfInput_cons hx).1
    obtain ⟨c, hc⟩ := hcodes v
    obtain ⟨u, hu, hbits, hwu, hcode, hin, hpos, hdraws⟩ :=
      putBits_writtenBits (s := { s with io := s.io.afterRead (.byte v) }) c hw
    have hput : putSymbol v { s with io := s.io.afterRead (.byte v) } = .done () u := by rw [putSymbol, hc]; exact hu
    have hvs : restOfInput u = vs := by
      rw [restOfInput, hin, hpos]
      exact (restOfInput_cons hx).2
    have hru : ReadsSucceed u := fun d hd => hr d (List.mem_of_mem_tail (by rw [hdraws] at hd; exact hd))
    have hcodesu : CodesWritten u := by rw [CodesWritten, hcode]; exact hcodes
    obtain ⟨t, ht, hbits', hpos', hcount⟩ := ih hvs (Nat.le_of_succ_le_succ hn) hru hwu hcodesu
    refine ⟨t, (encodeRest_byte _ ha hput).trans ht, ?_, ?_, (putBits_countedWrites hu).countedOutput.trans hcount⟩
    · have hcodeword : codewordsOf s.code (v :: vs) = c ++ codewordsOf s.code vs := by
        rw [codewordsOf, List.flatMap_cons, hc]
        rfl
      rw [hbits', hbits, hcode, hcodeword, ← List.append_assoc]
      rfl
    · rw [hpos', hpos, List.length_cons, Streams.afterRead_byte_inPos]
      omega

/-- `ESYMS` with every codeword there. -/
theorem bodyEsyms_writes (hcv : s.cv = true) (hr : ReadsSucceed s) (hw : WritesSucceed s) (hcodes : CodesWritten s) :
    ∃ t, bodyEsyms s = .done () t ∧ writtenBits t = writtenBits s ++ codewordsOf s.code (restOfInput s) ∧
      t.io.inPos = s.io.inPos + (restOfInput s).length ∧ CountedOutput s t := by
  rw [bodyEsyms, requireFlag_of hcv]
  exact encodeRest_writes rfl (length_restOfInput s).le hr hw hcodes

/-- The number of bits put fixes how many bytes were added and how many bits are pending. -/
theorem CountedOutput.wcnt_wbytes {c : List Bit} (h : CountedOutput s t) (hbits : writtenBits t = writtenBits s ++ c) :
    t.wcnt.toNat = (s.wcnt.toNat + c.length) % 8 ∧
      t.wbytes = s.wbytes + BitVec.ofNat 64 ((s.wcnt.toNat + c.length) / 8) := by
  obtain ⟨bytes, hout, hcount⟩ := h
  obtain ⟨hwcnt, hlen⟩ := byteCount_of_writtenBits (s := s)
    (t := { t with io := wroteBytes s.io bytes }) rfl (by rw [← hbits, writtenBits, writtenBits, hout]; rfl)
  exact ⟨hwcnt, by rw [hcount, hlen]⟩

end Sys2Proof.Machine

namespace Sys2Proof.Proofs

open Sys2Proof.Machine Sys2Proof.Safety

/-- Settles O42: the bytes of the field go out up to the first that is rejected. -/
theorem csaveWritesTheCount : Obligations.CsaveWritesTheCount := by
  refine ⟨rfl, fun s hs => ⟨fieldBytes s.symcnt, length_fieldBytes _, fun k => getElem?_fieldBytes _, fun hw => ?_, ?_⟩⟩
  · exact runCommand_done hs (bodyCsave_done hw)
  · intro j v hj hbelow hv
    exact runCommand_raised hs (outBytes_rejected hj hbelow hv)

/-- Settles O43: `SYMCNT` is written after the eighth byte, which an end of input or a failed read comes before. -/
theorem cloadReadsTheCount : Obligations.CloadReadsTheCount := by
  refine ⟨rfl, fun s hs => ⟨fun hr hlen => ?_, fun hr hlen => ?_, fun j hj hlen hfail hbelow => ?_⟩⟩
  · refine ⟨_, runCommand_done hs (bodyCload_done hr hlen), fun k hk => ?_⟩
    have hbyte : (restOfInput s)[k]? = some (restOfInput s)[k] := List.getElem?_eq_getElem (by omega)
    have hfield := fieldByte_fieldOf ((restOfInput s).take 8) 0 (i := k) (k := 0) (by omega)
      (by rw [List.getElem?_take_of_lt hk, hbyte])
    rw [Nat.zero_add] at hfield
    rw [hbyte, ← hfield]
    rfl
  · exact runCommand_raised hs (by rw [bodyCload, inField, inFieldFrom_short _ _ _ hr hlen, andThen_raise])
  · exact runCommand_raised hs (by rw [bodyCload, inField, inFieldFrom_failed _ _ hj hlen hfail hbelow, andThen_raise])

/-- Settles O44: each byte read puts its codeword, and the bits put give `WCNT` and `WBYTES`. -/
theorem esymsEncodesTheRestOfTheInput : Obligations.EsymsEncodesTheRestOfTheInput := by
  intro s hs hgood hcv hr hw
  obtain ⟨t, ht, hbits, hpos, hcount⟩ := bodyEsyms_writes hcv hr hw (codesWritten_of_good hgood hcv)
  obtain ⟨hwcnt, hwbytes⟩ := hcount.wcnt_wbytes hbits
  exact ⟨t, runCommand_done hs ht, hbits, hwcnt, hwbytes, eq_of_writerErased ((bodyEsyms_keeps s).of_done ht),
    inData_of_reaches ((bodyOf_reaches .esyms s).of_done ht), hpos⟩

/-- Settles O17: the body is empty, and while a fault is recorded no body is run. -/
theorem nopChangesNothing : Obligations.NopChangesNothing := by
  refine ⟨rfl, fun s => ?_⟩
  by_cases hs : Running s
  · exact runCommand_done hs rfl
  · exact runCommand_faulted .nop bodyNop hs

/-- Settles O18: `SessionInit()` with a cleared fault record writes every field of the engine but `TREE` and `CODE`. -/
theorem initStartsAFreshSession : Obligations.InitStartsAFreshSession :=
  ⟨rfl, fun _ => rfl⟩

end Sys2Proof.Proofs

namespace Sys2Proof.Machine

/-! ### `ESYMS` and `WFLUSH` pack the codewords into bytes (20_memory.md R69, 44_archiver.md R197) -/

open Sys2Proof.Safety

variable {s t u : State}

/-! No bit of an output byte is left in the shift register. -/

/-- With no bit pending the shift register is 0. -/
def NoStaleBits (s : State) : Prop := s.wcnt = 0 → s.wsr = 0

theorem putBit_noStaleBits (b : Bit) (s : State) : (putBit b s).Leaves NoStaleBits := by
  by_cases h7 : s.wcnt = 7
  · cases ha : s.io.outAccepts with
    | true => rw [putBit_completes b h7 ha]; exact fun _ => rfl
    | false => rw [putBit_rejected b h7 ha]; exact fun h0 => absurd (h7.symm.trans h0) (by decide)
  · rw [putBit_pending b h7]
    have hne : s.wcnt + 1 ≠ 0 := fun h0 => h7 (eq_neg_of_add_eq_zero_left h0)
    exact fun h0 => absurd h0 hne

theorem putBits_noStaleBits (c : Codeword) (h : NoStaleBits s) : (putBits c s).Leaves NoStaleBits := by
  induction c generalizing s with
  | nil => exact h
  | cons b bs ih => exact (putBit_noStaleBits b s).andThen fun _ _ => ih

theorem putSymbol_noStaleBits (sym : Symbol) (h : NoStaleBits s) : (putSymbol sym s).Leaves NoStaleBits := by
  unfold putSymbol
  split
  · exact putBits_noStaleBits _ h
  · trivial

theorem inByteOrStop_noStaleBits (h : NoStaleBits s) : (inByteOrStop s).Leaves NoStaleBits := by
  unfold inByteOrStop; dsimp only; split <;> exact h

theorem encodeRest_noStaleBits (n : Nat) (h : NoStaleBits s) : (encodeRest n s).Leaves NoStaleBits := by
  induction n generalizing s with
  | zero => exact h
  | succ n ih =>
    refine (inByteOrStop_noStaleBits h).andThen fun v u hu => ?_
    cases v with
    | none => exact hu
    | some sym => exact (putSymbol_noStaleBits sym hu).andThen fun _ _ => ih

/-! The last byte. -/

theorem writtenBits_of_noPending (h : s.wcnt = 0) : writtenBits s = bytesBits s.io.outData := by
  simp [writtenBits, writerBits, h]

/-- The byte that `Flush` writes is the pending bits and zeros behind them (40_bitstream.md R111). -/
theorem byteBits_paddedByte (s : State) :
    byteBits s.paddedByte = writerBits s ++ List.replicate (8 - s.wcnt.toNat) false := by
  have hc : s.wcnt.toNat < 8 := s.wcnt.isLt
  refine List.ext_getElem (by simp [byteBits, writerBits]; omega) fun k hk _ => ?_
  have hk8 : k < 8 := by rwa [length_byteBits] at hk
  have hbit : s.paddedByte.getMsbD k = s.wsr.getMsbD (k + (8 - s.wcnt.toNat)) := by
    rw [State.paddedByte, BitVec.getMsbD_shiftLeft]
  by_cases hlow : k < s.wcnt.toNat
  · rw [List.getElem_append_left (by simpa [writerBits] using hlow)]
    simp only [byteBits, writerBits, List.getElem_map, List.getElem_range, hbit]
    rw [BitVec.getMsbD, decide_eq_true (by omega), Bool.true_and,
      show 8 - 1 - (k + (8 - s.wcnt.toNat)) = s.wcnt.toNat - 1 - k by omega]
  · rw [List.getElem_append_right (by simpa [writerBits] using hlow)]
    simp only [byteBits, List.getElem_map, List.getElem_range, hbit, List.getElem_replicate]
    rw [BitVec.getMsbD, decide_eq_false (by omega), Bool.false_and]

/-- `Flush` completes the written bits to whole bytes. -/
theorem flush_pads (hw : WritesSucceed s) (hclean : NoStaleBits s) :
    ∃ u n, flush s = .done () u ∧ n < 8 ∧ writtenBits u = writtenBits s ++ List.replicate n false ∧
      CountedOutput s u ∧ u.wsr = 0 ∧ u.wcnt = 0 ∧ u.io.inPos = s.io.inPos := by
  by_cases h0 : s.wcnt = 0
  · exact ⟨s, 0, bodyWflush_empty h0, Nat.succ_pos 7, (List.append_nil _).symm, .of_eq rfl rfl, hclean h0, h0,
      rfl⟩
  · have hpos : s.wcnt.toNat ≠ 0 := fun hn => h0 (BitVec.eq_of_toNat_eq hn)
    refine ⟨_, 8 - s.wcnt.toNat, flush_accepted h0 (outAccepts_of_writesSucceed hw), by omega, ?_,
      ⟨[s.paddedByte], rfl, rfl⟩, rfl, rfl, rfl⟩
    rw [writtenBits_of_noPending rfl, State.writerEmptied_io, Streams.afterWrite_accepted_outData, bytesBits_append,
      writtenBits, List.append_assoc, ← byteBits_paddedByte]
    exact congrArg (bytesBits s.io.outData ++ ·) (List.append_nil _)

/-- The two steps of `ENCODE` that write the payload. -/
theorem esyms_wflush_pack (hcv : s.cv = true) (hr : ReadsSucceed s) (hw : WritesSucceed s) (hcodes : CodesWritten s)
    (h0 : s.wcnt = 0) (hwsr : s.wsr = 0) :
    ∃ t u payload, bodyEsyms s = .done () t ∧ bodyWflush t = .done () u ∧
      Packed payload (codewordsOf s.code (restOfInput s)) ∧ u.io.outData = s.io.outData ++ payload ∧
      u.wbytes = s.wbytes + BitVec.ofNat 64 payload.length ∧ u.wsr = 0 ∧ u.wcnt = 0 ∧
      writerErased u = writerErased s ∧ u.io.inData = s.io.inData ∧
      u.io.inPos = s.io.inPos + (restOfInput s).length := by
  obtain ⟨t, ht, hbits, hpos, hcount⟩ := bodyEsyms_writes hcv hr hw hcodes
  have hreach : Reaches s.io t.io := (bodyOf_reaches .esyms s).of_done ht
  have hclean : NoStaleBits t := by
    rw [bodyEsyms, requireFlag_of hcv] at ht
    exact (encodeRest_noStaleBits _ fun _ => hwsr).of_done ht
  obtain ⟨u, n, hu, hn, hpad, hcount', hwsr', hwcnt', hpos'⟩ :=
    flush_pads (writesSucceed_of_reaches hreach hw) hclean
  obtain ⟨payload, hout, hwbytes⟩ := hcount.trans hcount'
  have hpacked : bytesBits payload = codewordsOf s.code (restOfInput s) ++ List.replicate n false := by
    rw [writtenBits_of_noPending hwcnt', hout, bytesBits_append, hbits, writtenBits_of_noPending h0,
      List.append_assoc] at hpad
    exact List.append_cancel_left hpad
  refine ⟨t, u, payload, ht, hu, ⟨n, hn, hpacked⟩, hout, hwbytes, hwsr', hwcnt', ?_, ?_, hpos'.trans hpos⟩
  · exact ((flush_keeps t).of_done hu).trans ((bodyEsyms_keeps s).of_done ht)
  · exact (inData_of_reaches ((flush_reaches t).of_done hu)).trans (inData_of_reaches hreach)

end Sys2Proof.Machine

namespace Sys2Proof.Machine

/-! ### The tree and the code table that `ENCODE` and `DECODE` derive from counts (44_archiver.md R197, R198) -/

open Sys2Proof.Safety

variable {s : State} {T : Shape} {xs : List Byte}

theorem code_eq_of_codeAt_eq {code code' : CodeRam} (h : ∀ sym, codeAt code sym = codeAt code' sym) : code = code' := by
  refine Vector.ext fun i hi => ?_
  have hsym := h (BitVec.ofNat 8 i)
  have hi' : (BitVec.ofNat 8 i).toNat = i := Nat.mod_eq_of_lt hi
  simpa only [codeAt, hi'] using hsym

/-- The codes of a whole tree overwrite every entry (42_tree.md R159). -/
theorem Shape.Full.writeCodes_eq (h : T.Full) (code code' : CodeRam) :
    writeCodes code T.codes = writeCodes code' T.codes := by
  refine code_eq_of_codeAt_eq fun sym => ?_
  obtain ⟨p, hp⟩ := h.exists_code sym
  rw [h.codeAt_writeCodes.mpr hp, h.codeAt_writeCodes.mpr hp]

/-- The code table of a tree: its codewords are the ways to the leaves. -/
def IsCodeTable (T : Shape) (code : CodeRam) : Prop :=
  T.Full ∧ ∀ sym p, codeAt code sym = some p ↔ T.sub p = some (.leaf sym)

theorem isCodeTable_writeCodes (h : T.Full) (code : CodeRam) : IsCodeTable T (writeCodes code T.codes) :=
  ⟨h, fun _ _ => h.codeAt_writeCodes.trans Shape.mem_codes_iff⟩

/-- The tree built from counts over any old `TREE`, and its code table written over any old `CODE`. -/
theorem exists_shape_of_freq (freq : FreqRam) (tree : TreeRam) :
    ∃ T : Shape, T.LiesAt (buildTree freq tree).tree 510 ∧ IsCodeTable T (codeTableOf freq) ∧
      ∀ code, writeCodes code ((treeCodes (buildTree freq tree).tree 510).getD []) = codeTableOf freq := by
  have htable : codeTableOf freq = writeCodes (Vector.replicate _ none)
      ((treeCodes (buildTree freq tree).tree (heapTop (buildTree freq tree).heap)).getD []) := by
    rw [buildTree_eq_of_freq freq tree (Vector.replicate _ none)]
    rfl
  obtain ⟨⟨w, hheap⟩, -, hm⟩ := built_buildTree freq tree
  rw [hheap] at hm htable
  generalize (buildTree freq tree).tree = built at hm htable
  obtain ⟨T, hT, hfull⟩ := treeOk_iff.mp (Merging.treeOk hm)
  have hcodes : ∀ code, writeCodes code ((treeCodes built 510).getD []) = writeCodes code T.codes := fun code => by
    rw [hfull.treeCodes_eq hT, Option.getD_some]
  have htable' : codeTableOf freq = writeCodes (Vector.replicate _ none) T.codes := htable.trans (hcodes _)
  refine ⟨T, hT, ?_, fun code => ?_⟩
  · rw [htable']
    exact isCodeTable_writeCodes hfull _
  · rw [hcodes, htable', hfull.writeCodes_eq]

/-- The state after `TBUILD` has left this tree and `TCODES` this code table. -/
def State.withCodes (s : State) (tree : TreeRam) (w : Weight) (code : CodeRam) : State :=
  { s.withBuilt tree w with cv := true, code := code }

/-- `TBUILD` and `TCODES` as two steps of `ENCODE` or `DECODE`. -/
theorem doAll_tbuild_tcodes (l : List (State → Body Unit)) (hfl : s.fl = false) :
    ∃ T tree w, T.LiesAt tree 510 ∧ IsCodeTable T (codeTableOf s.freq) ∧
      doAll (bodyTbuild :: bodyTcodes :: l) s = doAll l (s.withCodes tree w (codeTableOf s.freq)) := by
  obtain ⟨T, hT, htable, hcode⟩ := exists_shape_of_freq s.freq s.tree
  obtain ⟨w, -, hbuild⟩ := bodyTbuild_built hfl
  generalize (buildTree s.freq s.tree).tree = tree at hT hcode hbuild
  refine ⟨T, tree, w, hT, htable, ?_⟩
  have hcodes : bodyTcodes (s.withBuilt tree w) = .done () (s.withCodes tree w (codeTableOf s.freq)) := by
    rw [bodyTcodes_done rfl, ← hcode s.code]
    rfl
  rw [doAll_next hbuild, doAll_next hcodes]

/-! ### The steps of `ENCODE` (44_archiver.md R197) -/

theorem IsCodeTable.codesWritten (h : IsCodeTable T s.code) : CodesWritten s := fun sym => by
  obtain ⟨p, hp⟩ := h.1.exists_code sym
  exact ⟨p, (h.2 sym p).mpr (Shape.mem_codes_iff.mp hp)⟩

/-- A fresh session with these counts and streams. -/
def State.counted (s : State) (freq : FreqRam) (count : Count) (io : Streams) : State :=
  { s.sessionInit with freq := freq, symcnt := count, io := io }

theorem doAll_rewind (l : List (State → Body Unit)) (s : State) :
    doAll (rewindInput :: l) s.sessionInit = doAll l (s.counted (Vector.replicate _ 0) 0 s.io.inRewind) := rfl

/-- `FADDS` at the start of a session gives the counts of the input. -/
theorem bodyFadds_counted {io : Streams} (hx : io.inData.drop io.inPos = xs) (hr : ∀ d ∈ io.readDraws, d = false)
    (hlen : xs.length < 2 ^ 64) :
    bodyFadds (s.counted (Vector.replicate _ 0) 0 io) =
      .done () (s.counted (countsOf xs) (BitVec.ofNat 64 xs.length) (sawEof (tookBytes io xs.length))) := by
  obtain ⟨a, ha⟩ : ∃ a, a = s.counted (Vector.replicate _ 0) 0 io := ⟨_, rfl⟩
  have hzero : ∀ x, a.freqAt x = 0 := fun x => by simp [State.freqAt, ha, State.counted]
  have hsym : a.symcnt = 0 := by rw [ha]; rfl
  have hcountable : Countable xs a := by
    refine ⟨by rw [hsym]; simpa using hlen, fun x => ?_⟩
    rw [hzero]
    simpa using List.count_le_length.trans_lt hlen
  have hrest : restOfInput a = xs := by rw [ha]; exact hx
  obtain ⟨t, ht, hio, hcnt, hcounts⟩ :=
    countRest_counts hrest (by rw [← hrest, length_restOfInput]) (by rw [ha]; exact hr) hcountable
  have hbody : bodyFadds a = .done () t := (requireFlag_unlocked (by rw [ha]; rfl)).trans ht
  have htable : t.freq = countsOf xs := Vector.ext fun i hi => by
    have hat := hcounts (BitVec.ofNat 8 i)
    have hi' : (BitVec.ofNat 8 i).toNat = i := Nat.mod_eq_of_lt hi
    rw [hzero] at hat
    simpa only [State.freqAt, hi', countsOf, Vector.getElem_ofFn, BitVec.ofNat_eq_ofNat, BitVec.zero_add] using hat
  rw [← ha, hbody, eq_of_countsErased ((bodyFadds_keeps a).of_done hbody), htable, hcnt, hsym, hio, ha]
  simp [State.counted]

/-- `CSAVE` and `FSAVE` write the header. -/
theorem doAll_csave_fsave (l : List (State → Body Unit)) (hw : WritesSucceed s) :
    doAll (bodyCsave :: bodyFsave :: l) s =
      doAll l { s with io := wroteBytes s.io (fieldBytes s.symcnt ++ tableBytes s.freq) } := by
  rw [doAll_next (bodyCsave_done hw), doAll_next (bodyFsave_done fun d hd => hw d (List.mem_of_mem_drop hd)),
    ← wroteBytes_append]

theorem length_headerOf (xs : List Byte) : (headerOf xs).length = 2056 := by
  rw [headerOf, List.length_append, length_fieldBytes, length_tableBytes]

theorem sizeOfArchive (payload : List Byte) :
    headerCount + BitVec.ofNat 64 payload.length = BitVec.ofNat 64 (2056 + payload.length) :=
  (BitVec.ofNat_add ..).symm

end Sys2Proof.Machine

namespace Sys2Proof.Machine

/-! ### `ENCODE` writes the archive (44_archiver.md R197, 20_memory.md R67) -/

open Sys2Proof.Safety

variable {s : State} {xs : List Byte}

/-- The body of `ENCODE`: all but the writer and the streams is as the counts give it. -/
theorem bodyEncode_archive (hr : ReadsSucceed s) (hw : WritesSucceed s) (hx : s.io.inData = xs)
    (hlen : xs.length < 2 ^ 64) :
    ∃ tree w code t payload, code = codeTableOf (countsOf xs) ∧
      bodyEncode s = .done () { t with resA := t.symcnt, resB := headerCount + t.wbytes } ∧
      IsPayload payload xs ∧ t.io.outData = s.io.outData ++ headerOf xs ++ payload ∧
      t.wbytes = BitVec.ofNat 64 payload.length ∧ t.wsr = 0 ∧ t.wcnt = 0 ∧ t.io.inData = xs ∧
      t.io.inPos = xs.length ∧
      writerErased t = writerErased
        ((s.counted (countsOf xs) (BitVec.ofNat 64 xs.length) s.io).withCodes tree w code) := by
  obtain ⟨b, hb⟩ : ∃ b, b = s.counted (countsOf xs) (BitVec.ofNat 64 xs.length)
    (sawEof (tookBytes s.io.inRewind xs.length)) := ⟨_, rfl⟩
  have hcount : bodyFadds (s.counted (Vector.replicate _ 0) 0 s.io.inRewind) = .done () b := by
    rw [hb]
    exact bodyFadds_counted hx hr hlen
  obtain ⟨T, tree, w, -, htable, hbuild⟩ :=
    doAll_tbuild_tcodes [bodyCsave, bodyFsave, rewindInput, bodyEsyms, bodyWflush] (s := b) (by rw [hb]; rfl)
  have hfreq : b.freq = countsOf xs := by rw [hb]; rfl
  obtain ⟨code, hcode⟩ : ∃ code, code = codeTableOf (countsOf xs) := ⟨_, rfl⟩
  rw [hfreq, ← hcode] at htable hbuild
  obtain ⟨d, hd⟩ : ∃ d, d = b.withCodes tree w code := ⟨_, rfl⟩
  have hio : d.io = sawEof (tookBytes s.io.inRewind xs.length) := by rw [hd, hb]; rfl
  have hheader : fieldBytes d.symcnt ++ tableBytes d.freq = headerOf xs := by rw [hd, hb]; rfl
  have hwd : WritesSucceed d := by rw [WritesSucceed, hio]; exact hw
  obtain ⟨g, hg⟩ : ∃ g, g = ({ d with io := (wroteBytes d.io (headerOf xs)).inRewind } : State) := ⟨_, rfl⟩
  have hgio : g.io = (wroteBytes d.io (headerOf xs)).inRewind := by rw [hg]
  have hgcode : g.code = code := by rw [hg, hd]; rfl
  have hgrest : restOfInput g = xs := by rw [restOfInput, hgio, hio, ← hx]; rfl
  have hrg : ReadsSucceed g := by
    rw [ReadsSucceed, hgio, hio]
    exact fun d hd => hr d (List.mem_of_mem_drop (List.mem_of_mem_tail hd))
  have hwg : WritesSucceed g := by
    rw [WritesSucceed, hgio]
    exact fun x hx => hwd x (List.mem_of_mem_drop hx)
  obtain ⟨t, u, payload, ht, hu, hpacked, hout, hwbytes, hwsr, hwcnt, hframe, hin, hpos⟩ :=
    esyms_wflush_pack (s := g) (by rw [hg, hd]; rfl) hrg hwg (IsCodeTable.codesWritten (hgcode ▸ htable))
      (by rw [hg, hd, hb]; rfl) (by rw [hg, hd, hb]; rfl)
  rw [hgrest, hgcode, hcode] at hpacked
  refine ⟨tree, w, code, u, payload, hcode, ?_, hpacked, ?_, ?_, hwsr, hwcnt, ?_, ?_, ?_⟩
  · rw [bodyEncode, doAll_rewind, doAll_next hcount, hbuild, ← hd, doAll_csave_fsave _ hwd, hheader,
      doAll_next (t := g) (by rw [hg]; rfl), doAll_next ht, doAll_next hu, doAll, andThen_done]
  · rw [hout, hgio, hio]
    rfl
  · rw [hwbytes, hg, hd, hb]
    exact BitVec.zero_add _
  · rw [hin, hgio, hio, ← hx]
    rfl
  · rw [hpos, hgrest, hgio]
    exact Nat.zero_add _
  · rw [hframe, hg, hd, hb]
    rfl

end Sys2Proof.Machine

namespace Sys2Proof.Proofs

open Sys2Proof.Machine Sys2Proof.Safety

/-- Settles O47: step by step, with the payload the codewords that `WFLUSH` completes to whole bytes. -/
theorem encodeWritesTheArchive : Obligations.EncodeWritesTheArchive := by
  refine ⟨rfl, fun s hs hr hw hlen => ?_⟩
  obtain ⟨tree, w, code, t, payload, hcode, hbody, hpayload, hout, hwbytes, hwsr, hwcnt, hin, hpos, hframe⟩ :=
    bodyEncode_archive hr hw rfl hlen
  have hsymcnt : t.symcnt = BitVec.ofNat 64 s.io.inData.length := congrArg (·.symcnt) hframe
  refine ⟨_, payload, runCommand_done hs hbody, hpayload, hout, length_headerOf _, hsymcnt, ?_, hwbytes, rfl,
    congrArg (·.freq) hframe, (congrArg (·.code) hframe).trans hcode, congrArg (·.fl) hframe, congrArg (·.tv) hframe,
    congrArg (·.cv) hframe, congrArg (·.root) hframe, congrArg (·.cur) hframe, congrArg (·.nextIdx) hframe, hwsr, hwcnt,
    congrArg (·.rsr) hframe, congrArg (·.rcnt) hframe, congrArg (·.rbytes) hframe, congrArg (·.rb) hframe,
    congrArg (·.emit) hframe, (congrArg (·.errCode) hframe).trans hs, congrArg (·.errCmd) hframe,
    congrArg (·.pending) hframe, hin, hpos⟩
  exact (congrArg (headerCount + ·) hwbytes).trans (sizeOfArchive payload)

end Sys2Proof.Proofs

namespace Sys2Proof.Machine

/-! ### The header as `DECODE` reads it (20_memory.md R67, R68) -/

open Sys2Proof.Safety

variable {s t u : State} {xs ys : List Byte} {T : Shape} {code : CodeRam} {rest : List Bit} {n : Nat}

theorem fieldOf_fieldBytes (v : Count) : fieldOf 0 0 (fieldBytes v) = v :=
  eq_of_fieldByte_eq fun k hk => by
    have hfield := fieldByte_fieldOf (fieldBytes v) 0 (i := k) (k := 0) (by omega) (getElem?_fieldBytes v hk)
    rwa [Nat.zero_add] at hfield

theorem loadInto_tableBytes (freq old : FreqRam) (more : List Byte) :
    loadInto allSymbols (tableBytes freq ++ more) old = freq := by
  obtain ⟨loaded, hloaded⟩ : ∃ loaded, loaded = loadInto allSymbols (tableBytes freq ++ more) old := ⟨_, rfl⟩
  rw [← hloaded]
  rw [← take_allSymbols] at hloaded
  refine freq_eq_of_freqAt_eq (s := { State.reset with freq := freq }) (t := { State.reset with freq := loaded })
    fun sym => ?_
  refine (tableBytes_holdsEntry { State.reset with freq := freq } sym).freqAt_eq (more := more)
    (holdsEntry_of_loaded hloaded sym.isLt ?_)
  have hsym : sym.toNat < 256 := sym.isLt
  rw [List.length_append, length_tableBytes]
  omega

/-- `CLOAD` and `FLOAD` take a header and nothing behind it. -/
theorem doAll_cload_fload (l : List (State → Body Unit)) (hr : ReadsSucceed s) (hfl : s.fl = false) {count : Count}
    {freq : FreqRam} {more : List Byte} (h : restOfInput s = fieldBytes count ++ (tableBytes freq ++ more)) :
    doAll (bodyCload :: bodyFload :: l) s =
      doAll l { s with freq := freq, symcnt := count, io := tookBytes s.io 2056 } := by
  have htake : (restOfInput s).take 8 = fieldBytes count := by rw [h, List.take_left' (length_fieldBytes count)]
  have hcload : bodyCload s = .done () { s with symcnt := count, io := tookBytes s.io 8 } := by
    rw [bodyCload_done hr (by simp [h, length_fieldBytes]), htake, fieldOf_fieldBytes]
  obtain ⟨a, ha⟩ : ∃ a, a = ({ s with symcnt := count, io := tookBytes s.io 8 } : State) := ⟨_, rfl⟩
  have hio : a.io = tookBytes s.io 8 := by rw [ha]
  have hrest : restOfInput a = tableBytes freq ++ more := by
    rw [restOfInput_eq_drop hio, h, List.drop_left' (length_fieldBytes count)]
  have hra : ReadsSucceed a := by rw [ReadsSucceed, hio]; exact readsSucceed_tookBytes 8 hr
  have hfload : bodyFload a = .done () { a with freq := freq, io := tookBytes a.io 2048 } := by
    rw [bodyFload_took hra (by rw [ha]; exact hfl) (by simp [hrest, length_tableBytes]), hrest, loadInto_tableBytes]
  rw [doAll_next hcload, ← ha, doAll_next hfload, hio, tookBytes_add, ha]

/-! ### The loop of `DECODE` (44_archiver.md R198) -/

theorem Decoded.refl (s : State) (h : s.rcnt.toNat < 8) : Decoded [] (inputBits s) s s :=
  ⟨rfl, (List.append_nil _).symm, (BitVec.add_zero _).symm, rfl, h⟩

theorem Decoded.trans {bits : List Bit} (h₁ : Decoded xs bits s t) (h₂ : Decoded ys rest t u) :
    Decoded (xs ++ ys) rest s u where
  frame := h₂.frame.trans h₁.frame
  output := by rw [h₂.output, h₁.output, List.append_assoc]
  count := by rw [h₂.count, h₁.count, List.length_append, BitVec.ofNat_add, BitVec.add_assoc]
  bits := h₂.bits
  buffered := h₂.buffered

theorem codewordsOf_cons {v : Byte} {vs : List Byte} {c : Codeword} (hc : codeAt code v = some c) :
    codewordsOf code (v :: vs) = c ++ codewordsOf code vs := by
  rw [codewordsOf, List.flatMap_cons, hc]
  rfl

/-- No codeword is empty, so there are at least as many bits as symbols (42_tree.md R160 b). -/
theorem IsCodeTable.length_le (h : IsCodeTable T code) (xs : List Byte) : xs.length ≤ (codewordsOf code xs).length := by
  induction xs with
  | nil => exact Nat.zero_le _
  | cons v vs ih =>
    obtain ⟨c, hc⟩ := h.1.exists_code v
    have hpos := List.length_pos_iff.mpr (h.1.code_ne_nil hc)
    rw [codewordsOf_cons ((h.2 v c).mpr (Shape.mem_codes_iff.mp hc)), List.length_append, List.length_cons]
    omega

theorem walkedBits_nil (h : s.cur = s.root) : WalkedBits s [] := by
  unfold WalkedBits
  split
  · rfl
  · rw [h]
    rfl

theorem emit_ne_symcnt {k : Nat} (h : s.symcnt = s.emit + BitVec.ofNat 64 (k + 1)) (hk : k + 1 < 2 ^ 64) :
    s.emit ≠ s.symcnt := fun heq => by
  rw [← heq] at h
  have hzero := congrArg BitVec.toNat (left_eq_add.mp h)
  rw [BitVec.toNat_ofNat, Nat.mod_eq_of_lt hk] at hzero
  exact absurd hzero (Nat.succ_ne_zero k)

/-- While codewords are to come, each round decodes one symbol. -/
theorem decodeLoop_decodes (htv : s.tv = true) (hT : T.LiesAt s.tree s.root) (hcode : IsCodeTable T code)
    (hfresh : WalkedBits s []) (hr : ReadsSucceed s) (hw : WritesSucceed s) (h8 : s.rcnt.toNat < 8)
    (hin : inputBits s = codewordsOf code xs ++ rest) (hcount : s.symcnt = s.emit + BitVec.ofNat 64 xs.length)
    (hlen : xs.length < 2 ^ 64) (hn : xs.length < n) :
    ∃ u, decodeLoop n s = .done () u ∧ Decoded xs rest s u := by
  induction xs generalizing s n with
  | nil =>
    obtain ⟨n, rfl⟩ := Nat.exists_eq_succ_of_ne_zero (Nat.ne_zero_of_lt hn)
    have hdone : s.emit = s.symcnt := (hcount.trans (BitVec.add_zero _)).symm
    have hrest : inputBits s = rest := hin
    exact ⟨s, decodeLoop_done n hdone, hrest ▸ Decoded.refl s h8⟩
  | cons v vs ih =>
    obtain ⟨n, rfl⟩ := Nat.exists_eq_succ_of_ne_zero (Nat.ne_zero_of_lt hn)
    obtain ⟨c, hc⟩ := hcode.1.exists_code v
    have hsub := Shape.mem_codes_iff.mp hc
    obtain ⟨l, r, hlr, hS⟩ := exists_inner_of_walkedBits hT hcode.1 hfresh
    obtain rfl : T = .node l r := by simpa using hlr
    rw [codewordsOf_cons ((hcode.2 v c).mpr hsub), List.append_assoc] at hin
    obtain ⟨u, hu, hleaf, hone⟩ := bodyDsym_decodes htv hS hsub hr hw h8.le hin
    have hreach := (bodyDsym_reaches s).of_done hu
    have htree : u.tree = s.tree := congrArg (·.tree) hone.frame
    have hroot : u.root = s.root := congrArg (·.root) hone.frame
    have hsymcnt : u.symcnt = s.symcnt := congrArg (·.symcnt) hone.frame
    have hcount' : u.symcnt = u.emit + BitVec.ofNat 64 vs.length := by
      rw [hsymcnt, hcount, hone.count, BitVec.add_assoc, ← BitVec.ofNat_add, List.length_singleton, Nat.add_comm 1]
      rfl
    obtain ⟨w, hloop, hmore⟩ := ih ((congrArg (·.tv) hone.frame).trans htv) (by rw [htree, hroot]; exact hT)
      (walkedBits_atLeaf (by rw [htree]; exact hleaf)) (readsSucceed_of_reaches hreach hr)
      (writesSucceed_of_reaches hreach hw) hone.buffered hone.bits hcount' (Nat.lt_of_succ_lt hlen)
      (Nat.lt_of_succ_lt_succ hn)
    refine ⟨w, ?_, hone.trans hmore⟩
    rw [decodeLoop, if_neg (emit_ne_symcnt hcount hlen), hu, andThen_done, hloop]

/-- With less than a byte of padding left no byte behind is read. -/
theorem Decoded.inPos {pad : List Bit} {more : List Byte} (h : Decoded xs (pad ++ bytesBits more) s u)
    (hpad : pad.length < 8) (hpos : s.io.inPos ≤ s.io.inData.length) :
    u.io.inPos + more.length = s.io.inData.length := by
  have hin : u.io.inData = s.io.inData := congrArg (·.io.inData) h.frame
  have hinside : max u.io.inPos u.io.inData.length = max s.io.inPos s.io.inData.length := congrArg (·.io.inPos) h.frame
  have hleft := length_inputBits u
  have hbuffered := h.buffered
  rw [h.bits, List.length_append, length_bytesBits, State.bitsLeft, Streams.remaining] at hleft
  omega

/-- `RBYTES` counts the bytes by which `IN.pos` moved. -/
theorem Decoded.rbytes (h : Decoded xs rest s u) {k : Nat} (hpos : u.io.inPos = s.io.inPos + k) :
    u.rbytes = s.rbytes + BitVec.ofNat 64 k := by
  have hkept : u.rbytes - BitVec.ofNat 64 u.io.inPos = s.rbytes - BitVec.ofNat 64 s.io.inPos :=
    congrArg (·.rbytes) h.frame
  rw [hpos, BitVec.ofNat_add] at hkept
  linear_combination hkept

end Sys2Proof.Machine

namespace Sys2Proof.Machine

/-! ### `DECODE` reads the archive (44_archiver.md R198, R200) -/

open Sys2Proof.Safety

variable {s : State} {xs payload more : List Byte} {T : Shape} {code : CodeRam}

/-- The loop of `DECODE` on a payload: it takes the payload's bytes and none behind it. -/
theorem decodeLoop_payload (htv : s.tv = true) (hT : T.LiesAt s.tree s.root) (hcode : IsCodeTable T code)
    (hcur : s.cur = s.root) (hr : ReadsSucceed s) (hw : WritesSucceed s) (hrcnt : s.rcnt = 0)
    (hpacked : Packed payload (codewordsOf code xs)) (hrest : restOfInput s = payload ++ more)
    (hpos : s.io.inPos ≤ s.io.inData.length) (hcount : s.symcnt = s.emit + BitVec.ofNat 64 xs.length)
    (hlen : xs.length < 2 ^ 64) :
    ∃ u, decodeLoop (s.bitsLeft + 1) s = .done () u ∧ symbolsErased u = symbolsErased s ∧
      u.io.outData = s.io.outData ++ xs ∧ u.emit = s.emit + BitVec.ofNat 64 xs.length ∧
      u.rbytes = s.rbytes + BitVec.ofNat 64 payload.length ∧ u.io.inPos = s.io.inPos + payload.length := by
  obtain ⟨pad, hpad, hbits⟩ := hpacked
  have hin : inputBits s = codewordsOf code xs ++ (List.replicate pad false ++ bytesBits more) := by
    rw [inputBits, readerBits, hrcnt, hrest, bytesBits_append, hbits, List.append_assoc]
    rfl
  have hn : xs.length < s.bitsLeft + 1 := by
    have hle := hcode.length_le xs
    rw [← length_inputBits, hin, List.length_append]
    omega
  obtain ⟨u, hloop, hdec⟩ := decodeLoop_decodes htv hT hcode (walkedBits_nil hcur) hr hw (by rw [hrcnt]; decide) hin
    hcount hlen hn
  have hend : u.io.inPos = s.io.inPos + payload.length := by
    have hmore := hdec.inPos (by rw [List.length_replicate]; exact hpad) hpos
    have hleft := congrArg List.length hrest
    rw [length_restOfInput, Streams.remaining, List.length_append] at hleft
    omega
  exact ⟨u, hloop, hdec.frame, hdec.output, hdec.count, hdec.rbytes hend, hend⟩

/-- The body of `DECODE`: all but the reader, the walker, `EMIT` and the streams is as the counts give it. -/
theorem bodyDecode_archive (hr : ReadsSucceed s) (hw : WritesSucceed s) (hlen : xs.length < 2 ^ 64)
    (hpayload : IsPayload payload xs) (hx : s.io.inData = headerOf xs ++ payload ++ more) :
    ∃ tree w code u, code = codeTableOf (countsOf xs) ∧
      bodyDecode s = .done () { u with resA := headerCount + u.rbytes, resB := u.emit } ∧
      u.io.outData = s.io.outData ++ xs ∧ u.emit = BitVec.ofNat 64 xs.length ∧
      u.rbytes = BitVec.ofNat 64 payload.length ∧ u.io.inPos = 2056 + payload.length ∧
      symbolsErased u = symbolsErased
        ((s.counted (countsOf xs) (BitVec.ofNat 64 xs.length)
          (tookBytes s.io.inRewind 2056)).withCodes tree w code) := by
  obtain ⟨b, hb⟩ : ∃ b, b = s.counted (countsOf xs) (BitVec.ofNat 64 xs.length)
    (tookBytes s.io.inRewind 2056) := ⟨_, rfl⟩
  have hheader (l : List (State → Body Unit)) :
      doAll (bodyCload :: bodyFload :: l) (s.counted (Vector.replicate _ 0) 0 s.io.inRewind) = doAll l b := by
    rw [hb]
    refine doAll_cload_fload (s := s.counted _ 0 s.io.inRewind) (more := payload ++ more) l hr rfl ?_
    rw [← List.append_assoc, ← headerOf, ← List.append_assoc, ← hx]
    rfl
  obtain ⟨T, tree, w, hT, htable, hbuild⟩ :=
    doAll_tbuild_tcodes [fun s => decodeLoop (s.bitsLeft + 1) s] (s := b) (by rw [hb]; rfl)
  obtain ⟨code, hcode⟩ : ∃ code, code = codeTableOf (countsOf xs) := ⟨_, rfl⟩
  have hfreq : b.freq = countsOf xs := by rw [hb]; rfl
  rw [hfreq, ← hcode] at htable hbuild
  rw [IsPayload, payloadBitsOf, ← hcode] at hpayload
  obtain ⟨d, hd⟩ : ∃ d, d = b.withCodes tree w code := ⟨_, rfl⟩
  have hio : d.io = tookBytes s.io.inRewind 2056 := by rw [hd, hb]; rfl
  have hpos : d.io.inPos = 2056 := by rw [hio]; exact Nat.zero_add _
  have hin : d.io.inData = headerOf xs ++ payload ++ more := by rw [hio, ← hx]; rfl
  have hrest : restOfInput d = payload ++ more := by
    rw [restOfInput, hpos, hin, List.append_assoc, List.drop_left' (length_headerOf xs)]
  have hinside : d.io.inPos ≤ d.io.inData.length := by
    rw [hpos, hin, List.append_assoc, List.length_append, length_headerOf]
    exact Nat.le_add_right _ _
  obtain ⟨u, hloop, hframe, hout, hemit, hrbytes, hend⟩ := decodeLoop_payload (s := d) (by rw [hd]; rfl)
    (by rw [hd]; exact hT) htable (by rw [hd]; rfl)
    (by rw [ReadsSucceed, hio]; exact fun x hx => hr x (List.mem_of_mem_drop hx)) (by rw [WritesSucceed, hio]; exact hw)
    (by rw [hd, hb]; rfl) hpayload hrest hinside (by rw [hd, hb]; exact (BitVec.zero_add _).symm) hlen
  refine ⟨tree, w, code, u, hcode, ?_, ?_, ?_, ?_, by rw [hend, hpos], ?_⟩
  · rw [bodyDecode, doAll_rewind, hheader, hbuild, ← hd, doAll_next (x := fun s => decodeLoop (s.bitsLeft + 1) s) hloop,
      doAll, andThen_done]
  · rw [hout, hio]
    rfl
  · rw [hemit, hd, hb]
    exact BitVec.zero_add _
  · rw [hrbytes, hd, hb]
    exact BitVec.zero_add _
  · rw [hframe, hd, hb]

end Sys2Proof.Machine

namespace Sys2Proof.Proofs

open Sys2Proof.Machine Sys2Proof.Safety

/-- Settles O48: the header gives back the counts, so the tree is that of `ENCODE`, and the bits of the payload are read
up to the last codeword. -/
theorem decodeReadsTheArchive : Obligations.DecodeReadsTheArchive := by
  refine ⟨rfl, fun s xs payload more hs hr hw hlen hpayload hx => ?_⟩
  obtain ⟨tree, w, code, t, hcode, hbody, hout, hemit, hrbytes, hpos, hframe⟩ :=
    bodyDecode_archive hr hw hlen hpayload hx
  have hsymcnt : t.symcnt = BitVec.ofNat 64 xs.length := congrArg (·.symcnt) hframe
  refine ⟨_, runCommand_done hs hbody, hout, ?_, hemit, hrbytes, hsymcnt.trans hemit.symm, rfl,
    congrArg (·.freq) hframe, (congrArg (·.code) hframe).trans hcode, congrArg (·.fl) hframe, congrArg (·.tv) hframe,
    congrArg (·.cv) hframe, congrArg (·.root) hframe, congrArg (·.nextIdx) hframe, congrArg (·.wsr) hframe,
    congrArg (·.wcnt) hframe, congrArg (·.wbytes) hframe, congrArg (·.rb) hframe,
    (congrArg (·.errCode) hframe).trans hs,
    congrArg (·.errCmd) hframe, congrArg (·.pending) hframe, congrArg (·.io.inData) hframe, hpos⟩
  exact (congrArg (headerCount + ·) hrbytes).trans (sizeOfArchive payload)

end Sys2Proof.Proofs

namespace Sys2Proof.Machine

/-! ### Draws of the host do no more than raise (20_memory.md R61, R64)

An operation that raised nothing has met no drawn failure, so it does the same where none is drawn. -/

open Sys2Proof.Safety

variable {α β : Type} {s t u : State} {xs : List Byte}

/-- The state with a host that draws no failure. -/
def State.calm (s : State) : State := { s with io := { s.io with readDraws := [], writeDraws := [] } }

@[simp] theorem State.calm_root : s.calm.root = s.root := rfl
@[simp] theorem State.calm_cur : s.calm.cur = s.cur := rfl
@[simp] theorem State.calm_freq : s.calm.freq = s.freq := rfl
@[simp] theorem State.calm_tree : s.calm.tree = s.tree := rfl
@[simp] theorem State.calm_code : s.calm.code = s.code := rfl

theorem readsSucceed_calm (s : State) : ReadsSucceed s.calm := nofun

theorem writesSucceed_calm (s : State) : WritesSucceed s.calm := nofun

/-- Where the operation is done, it is done in the same way with a host that draws no failure. -/
def IgnoresDraws (k : State → Body α) : Prop := ∀ s a t, k s = .done a t → k s.calm = .done a t.calm

theorem IgnoresDraws.andThen {r : State → Body α} {k : α → State → Body β} (hr : IgnoresDraws r)
    (hk : ∀ a, IgnoresDraws (k a)) : IgnoresDraws fun s => (r s).andThen k := by
  intro s b t h
  obtain ⟨a, u, hu, ht⟩ := andThen_eq_done.mp h
  dsimp only
  rw [hr s a u hu, andThen_done]
  exact hk a u b t ht

/-- A test that does not look at the draws. -/
theorem IgnoresDraws.ite {c : State → Prop} [∀ s, Decidable (c s)] {k l : State → Body α}
    (hc : ∀ s, c s.calm ↔ c s) (hk : IgnoresDraws k) (hl : IgnoresDraws l) :
    IgnoresDraws fun s => if c s then k s else l s := by
  intro s a t h
  dsimp only at h ⊢
  simp only [hc]
  split at h
  · rw [if_pos ‹_›]
    exact hk s a t h
  · rw [if_neg ‹_›]
    exact hl s a t h

theorem requireFlag_ignoresDraws {c : State → Bool} {k : State → State → Body Unit} (hc : ∀ s, c s.calm = c s)
    (hk : IgnoresDraws fun s => k s s) : IgnoresDraws fun s => requireFlag (c s) (k s) s := by
  intro s a t h
  dsimp only at h ⊢
  rw [hc]
  cases hcs : c s with
  | false => rw [hcs] at h; cases h
  | true =>
    rw [hcs] at h
    exact hk s a t h

/-! The stream helpers. -/

theorem outByte_ignoresDraws (v : Byte) : IgnoresDraws (outByte v) := by
  intro s _ t h
  obtain rfl := outByte_eq_done h
  rw [outByte_accepted v rfl]
  rfl

theorem outBytes_ignoresDraws (bytes : List Byte) : IgnoresDraws (outBytes bytes) := by
  induction bytes with
  | nil => exact fun _ _ _ h => by cases h; rfl
  | cons v vs ih => exact (outByte_ignoresDraws v).andThen fun _ => ih

/-- An answer that is no failure does not depend on the draws. -/
theorem inAnswer_calm (h : s.io.inAnswer ≠ .err) : s.calm.io.inAnswer = s.io.inAnswer := by
  unfold Streams.inAnswer at h ⊢
  by_cases hd : s.io.readDraws.head?.getD false = true
  · exact absurd (if_pos hd) h
  · rw [if_neg hd]
    rfl

theorem inByte_ignoresDraws (e : ErrCode) : IgnoresDraws (inByte e) := by
  intro s v t h
  obtain ⟨ha, rfl⟩ := inByte_eq_done h
  rw [inByte_byte e ((inAnswer_calm (by rw [ha]; nofun)).trans ha), tookBytes_one ha]
  rfl

theorem inByteOrStop_ignoresDraws : IgnoresDraws inByteOrStop := by
  intro s v t h
  cases ha : s.io.inAnswer with
  | byte b =>
    rw [inByteOrStop_byte ha] at h
    cases h
    exact inByteOrStop_byte ((inAnswer_calm (by rw [ha]; nofun)).trans ha)
  | eof =>
    rw [inByteOrStop_eof ha] at h
    cases h
    exact inByteOrStop_eof ((inAnswer_calm (by rw [ha]; nofun)).trans ha)
  | err => rw [inByteOrStop_err ha] at h; cases h

theorem inFieldFrom_ignoresDraws (n k : Nat) (c : Count) : IgnoresDraws (inFieldFrom n k c) := by
  induction n generalizing k c with
  | zero => exact fun _ _ _ h => by cases h; rfl
  | succ n ih => exact (inByte_ignoresDraws .eHeader).andThen fun _ => ih _ _

/-! The helpers of the units. -/

theorem putBit_ignoresDraws (b : Bit) : IgnoresDraws (putBit b) :=
  .ite (fun _ => Iff.rfl)
    (fun s => (outByte_ignoresDraws (s.wsr.shiftConcat b)).andThen (fun _ _ _ _ h => by cases h; rfl) s)
    (fun _ _ _ h => by cases h; rfl)

theorem putBits_ignoresDraws (c : Codeword) : IgnoresDraws (putBits c) := by
  induction c with
  | nil => exact fun _ _ _ h => by cases h; rfl
  | cons b bs ih => exact (putBit_ignoresDraws b).andThen fun _ => ih

theorem putSymbol_ignoresDraws (sym : Symbol) : IgnoresDraws (putSymbol sym) := by
  intro s a t h
  unfold putSymbol at h ⊢
  rw [State.calm_code]
  cases hc : codeAt s.code sym with
  | none => rw [hc] at h; cases h
  | some c =>
    rw [hc] at h
    exact putBits_ignoresDraws c s a t h

theorem flush_ignoresDraws : IgnoresDraws flush :=
  .ite (fun _ => Iff.rfl) (fun _ _ _ h => by cases h; rfl)
    fun s => (outByte_ignoresDraws s.paddedByte).andThen (fun _ _ _ _ h => by cases h; rfl) s

theorem getBit_ignoresDraws : IgnoresDraws getBit := by
  have hrefill : IgnoresDraws refill :=
    .ite (fun _ => Iff.rfl) ((inByte_ignoresDraws .eEof).andThen fun _ _ _ _ h => by cases h; rfl)
      (fun _ _ _ h => by cases h; rfl)
  refine hrefill.andThen fun _ s a t h => ?_
  cases h
  rfl

theorem countSym_ignoresDraws (sym : Symbol) : IgnoresDraws (countSym sym) :=
  .ite (fun _ => Iff.rfl) (fun _ _ _ h => by cases h) (fun _ _ _ h => by cases h; rfl)

theorem countRest_ignoresDraws (n : Nat) : IgnoresDraws (countRest n) := by
  induction n with
  | zero => exact fun _ _ _ h => by cases h; rfl
  | succ n ih =>
    refine inByteOrStop_ignoresDraws.andThen fun v => ?_
    cases v with
    | none => exact fun _ _ _ h => by cases h; rfl
    | some sym => exact (countSym_ignoresDraws sym).andThen fun _ => ih

theorem encodeRest_ignoresDraws (n : Nat) : IgnoresDraws (encodeRest n) := by
  induction n with
  | zero => exact fun _ _ _ h => by cases h; rfl
  | succ n ih =>
    refine inByteOrStop_ignoresDraws.andThen fun v => ?_
    cases v with
    | none => exact fun _ _ _ h => by cases h; rfl
    | some sym => exact (putSymbol_ignoresDraws sym).andThen fun _ => ih

theorem loadTable_ignoresDraws (l : List Symbol) : IgnoresDraws (loadTable l) := by
  induction l with
  | nil => exact fun _ _ _ h => by cases h; rfl
  | cons sym rest ih => exact (inFieldFrom_ignoresDraws _ _ _).andThen fun c s => ih (s.setFreq sym c)

theorem advance_ignoresDraws (b : Bit) : IgnoresDraws (advance b) := by
  intro s a t h
  unfold advance at h ⊢
  rw [State.calm_tree, State.calm_cur, State.calm_root]
  split at h
  · cases h
  · split at h
    · cases h
    · cases h
      rfl

theorem walkToLeaf_ignoresDraws (n : Nat) : IgnoresDraws (walkToLeaf n) := by
  induction n with
  | zero => exact fun _ _ _ h => by cases h
  | succ n ih =>
    refine getBit_ignoresDraws.andThen fun b => (advance_ignoresDraws b).andThen fun _ s sym t h => ?_
    rw [State.calm_tree, State.calm_cur]
    split at h
    · cases h
    · split at h
      · cases h
        simp only [*, if_true]
      · simp only [*]
        exact ih s sym t h

theorem bodyDsym_ignoresDraws : IgnoresDraws bodyDsym :=
  requireFlag_ignoresDraws (fun _ => rfl) fun s =>
    (walkToLeaf_ignoresDraws (s.bitsLeft + 1)).andThen
      (fun sym => (outByte_ignoresDraws sym).andThen fun _ _ _ _ h => by cases h; rfl) s

theorem decodeLoop_ignoresDraws (n : Nat) : IgnoresDraws (decodeLoop n) := by
  induction n with
  | zero => exact fun _ _ _ h => by cases h
  | succ n ih =>
    exact .ite (fun _ => Iff.rfl) (fun _ _ _ h => by cases h; rfl) (bodyDsym_ignoresDraws.andThen fun _ => ih)

theorem doAll_ignoresDraws {l : List (State → Body Unit)} (hl : ∀ x ∈ l, IgnoresDraws x) : IgnoresDraws (doAll l) := by
  induction l with
  | nil => exact fun _ _ _ h => by cases h; rfl
  | cons x xs ih => exact (hl x (by simp)).andThen fun _ => ih fun y hy => hl y (by simp [hy])

/-! `ENCODE` and `DECODE`. -/

theorem rewindInput_ignoresDraws : IgnoresDraws rewindInput := fun _ _ _ h => by cases h; rfl

theorem bodyTbuild_ignoresDraws : IgnoresDraws bodyTbuild := by
  refine requireFlag_ignoresDraws (fun _ => rfl) fun s a t h => ?_
  dsimp only [State.calm_freq, State.calm_tree] at h ⊢
  generalize buildTree s.freq s.tree = b at h ⊢
  cases h
  rfl

theorem bodyTcodes_ignoresDraws : IgnoresDraws bodyTcodes := by
  refine requireFlag_ignoresDraws (fun _ => rfl) fun s a t h => ?_
  dsimp only [State.calm_code, State.calm_tree, State.calm_root] at h ⊢
  generalize writeCodes s.code ((treeCodes s.tree s.root).getD []) = code at h ⊢
  cases h
  rfl

theorem bodyEncode_ignoresDraws : IgnoresDraws bodyEncode := by
  intro s
  refine (doAll_ignoresDraws ?_).andThen (fun _ _ _ _ h => by cases h; rfl) s.sessionInit
  simp only [List.forall_mem_cons, List.not_mem_nil, false_imp_iff, implies_true, and_true]
  exact ⟨rewindInput_ignoresDraws, requireFlag_ignoresDraws (fun _ => rfl) fun s => countRest_ignoresDraws _ s,
    bodyTbuild_ignoresDraws, bodyTcodes_ignoresDraws, fun s => outBytes_ignoresDraws _ s,
    fun s => outBytes_ignoresDraws _ s, rewindInput_ignoresDraws,
    requireFlag_ignoresDraws (fun _ => rfl) fun s => encodeRest_ignoresDraws _ s, flush_ignoresDraws⟩

theorem bodyDecode_ignoresDraws : IgnoresDraws bodyDecode := by
  intro s
  refine (doAll_ignoresDraws ?_).andThen (fun _ _ _ _ h => by cases h; rfl) s.sessionInit
  simp only [List.forall_mem_cons, List.not_mem_nil, false_imp_iff, implies_true, and_true]
  exact ⟨rewindInput_ignoresDraws, (inFieldFrom_ignoresDraws _ _ _).andThen fun _ _ _ _ h => by cases h; rfl,
    requireFlag_ignoresDraws (fun _ => rfl) (loadTable_ignoresDraws _), bodyTbuild_ignoresDraws,
    bodyTcodes_ignoresDraws, fun s => decodeLoop_ignoresDraws _ s⟩

/-! ### `ENCODE` ends without a fault only where the input can be counted (41_frequency.md R130) -/

theorem countSym_eq_done {sym : Symbol} (h : countSym sym s = .done () u) :
    s.symcnt ≠ countMax ∧ u = countOne sym s := by
  by_cases hmax : s.freqAt sym = countMax ∨ s.symcnt = countMax
  · rw [countSym_overflow hmax] at h
    cases h
  · obtain ⟨hf, hc⟩ := not_or.mp hmax
    rw [countSym_done hf hc] at h
    cases h
    exact ⟨hc, rfl⟩

theorem toNat_lt_of_ne_countMax {c : Count} (h : c ≠ countMax) : c.toNat + 1 < 2 ^ 64 := by
  have hmax : c.toNat ≠ 2 ^ 64 - 1 := fun hn => h (BitVec.eq_of_toNat_eq (hn.trans BitVec.toNat_allOnes.symm))
  have := c.isLt
  omega

/-- A loop of `FADDS` that raises nothing has passed no count. -/
theorem length_lt_of_countRest_done {n : Nat} (hx : restOfInput s = xs) (hn : xs.length ≤ n) (hr : ReadsSucceed s)
    (h : countRest (n + 1) s = .done () u) : s.symcnt.toNat + xs.length < 2 ^ 64 := by
  induction xs generalizing s n with
  | nil => exact s.symcnt.isLt
  | cons v vs ih =>
    obtain ⟨n, rfl⟩ := Nat.exists_eq_succ_of_ne_zero (Nat.ne_zero_of_lt hn)
    have ha : s.io.inAnswer = .byte v :=
      inAnswer_of_byte s.io (readHead_of_readsSucceed hr) (restOfInput_cons hx).1
    rw [countRest, inByteOrStop_byte ha, andThen_done] at h
    obtain ⟨_, a, hsym, hloop⟩ := andThen_eq_done.mp h
    obtain ⟨hmax, rfl⟩ := countSym_eq_done hsym
    have hlt := toNat_lt_of_ne_countMax (c := s.symcnt) hmax
    have hcount := ih (s := countOne v { s with io := s.io.afterRead (.byte v) }) (restOfInput_cons hx).2
      (Nat.le_of_succ_le_succ hn) (fun d hd => hr d (List.mem_of_mem_tail hd)) hloop
    have hone : (countOne v { s with io := s.io.afterRead (.byte v) }).symcnt.toNat = s.symcnt.toNat + 1 :=
      (BitVec.toNat_add ..).trans (Nat.mod_eq_of_lt hlt)
    rw [hone] at hcount
    rw [List.length_cons]
    omega

theorem length_lt_of_bodyEncode_done (hr : ReadsSucceed s) (h : bodyEncode s = .done () t) :
    s.io.inData.length < 2 ^ 64 := by
  obtain ⟨_, _, hall, -⟩ := andThen_eq_done.mp h
  rw [doAll_rewind] at hall
  obtain ⟨_, u, hadds, -⟩ := andThen_eq_done.mp hall
  have hloop := length_lt_of_countRest_done (s := s.counted (Vector.replicate _ 0) 0 s.io.inRewind) rfl
    (length_restOfInput _).le hr hadds
  exact (Nat.zero_add _ ▸ hloop :)

end Sys2Proof.Machine

namespace Sys2Proof.Proofs

open Sys2Proof.Machine Sys2Proof.Safety

/-- Settles O49: neither command met a drawn failure, so both did what they do with a host that draws none, and there
the output of `ENCODE` is the archive that `DECODE` reads. -/
theorem decodeInvertsEncode : Obligations.DecodeInvertsEncode := by
  intro s t u v hs hout henc ht hu hin hout' hdec hv
  have hbody : bodyEncode s.calm = .done () t.calm :=
    bodyEncode_ignoresDraws s () t (runCommand_eq_next_running hs henc ht)
  have hbody' : bodyDecode u.calm = .done () v.calm :=
    bodyDecode_ignoresDraws u () v (runCommand_eq_next_running hu hdec hv)
  have hlen : s.io.inData.length < 2 ^ 64 := length_lt_of_bodyEncode_done (s := s.calm) (readsSucceed_calm s) hbody
  obtain ⟨_, _, _, t', payload, -, hbodyE, hpayload, houtE, -⟩ :=
    bodyEncode_archive (s := s.calm) (xs := s.io.inData) (readsSucceed_calm s) (writesSucceed_calm s) rfl hlen
  have harchive : t.io.outData = headerOf s.io.inData ++ payload := by
    have htout : t.io.outData = t'.io.outData := congrArg (·.io.outData) (Body.done.inj (hbody.symm.trans hbodyE)).2
    rw [htout, houtE, show s.calm.io.outData = [] from hout, List.nil_append]
  obtain ⟨_, _, _, v', -, hbodyD, houtD, -⟩ := bodyDecode_archive (s := u.calm) (more := []) (readsSucceed_calm u)
    (writesSucceed_calm u) hlen hpayload (by rw [List.append_nil]; exact hin.trans harchive)
  have hvout : v.io.outData = v'.io.outData := congrArg (·.io.outData) (Body.done.inj (hbody'.symm.trans hbodyD)).2
  rw [hvout, houtD, show u.calm.io.outData = [] from hout', List.nil_append]

end Sys2Proof.Proofs

namespace Sys2Proof.Machine

/-! ### What the port does with a word (60_exceptions.md R227 to R229) -/

open Sys2Proof.Safety

variable {i : Instr} {s : State} {w : CmdWord} {rest : List HostEvent}

/-- While a fault is recorded every command but `INIT` does nothing (60_exceptions.md R227). -/
theorem exec_faulted (hs : ¬ Running s) (hi : i ≠ .init) : exec i s = .next s := by
  have hpaths : s.pathsBroken = false := by rw [State.pathsBroken, beq_false_of_ne hs]; rfl
  rw [exec_eq_runCommand hi hpaths, runCommand_faulted i _ hs]

theorem takeWord_ignored (hs : ¬ Running s) (hw : w ≠ initWord) : takeWord w s = .next s := by
  rw [takeWord, if_pos hs, if_neg hw]

/-- A word that decodes is executed, in the faulted state too: there the port and the command both let only `INIT`
through. -/
theorem takeWord_of_decode (hw : decodeWord w = some i) : takeWord w s = exec i s := by
  by_cases hs : Running s
  · simp [takeWord, hs, hw]
  · obtain rfl := decodeWord_eq_some_iff.mp hw
    by_cases hi : i = .init
    · subst hi
      rw [takeWord, if_pos hs, if_pos (by rfl)]
    · have hword : encodeWord i ≠ initWord := fun h => hi (Option.some.inj (hw.symm.trans (congrArg decodeWord h)))
      rw [takeWord_ignored hs hword, exec_faulted hs hi]

theorem takeWord_init (s : State) : takeWord initWord s = .next s.faultReturn :=
  takeWord_of_decode (i := .init) (by decide)

/-- With a fault recorded the port answers every word. -/
theorem exists_takeWord_faulted (hs : ¬ Running s) (w : CmdWord) : ∃ u, takeWord w s = .next u := by
  by_cases hw : w = initWord
  · exact ⟨_, hw ▸ takeWord_init s⟩
  · exact ⟨s, takeWord_ignored hs hw⟩

/-- Reset during a command that the port answers (70_reset_and_hazards.md R260). -/
theorem step_resetDuring {n : Nat} {u : State} (h : s.pending = .resetDuring w n :: rest)
    (hu : takeWord w { s with pending := rest } = .next u) :
    step s = .next (abandonAfter n { s with pending := rest } u) := by
  simp [step, hostStep, h, resetWhileRunning, hu]

/-! ### Fault entry (60_exceptions.md R226) -/

theorem faultEntry_accepted (e : ErrCode) (w : CmdWord) (h : s.wcnt ≠ 0) (ha : s.io.outAccepts = true) :
    faultEntry e w s =
      { State.writerEmptied { s with io := wroteBytes s.io [s.paddedByte] } with errCode := e.code, errCmd := w } := by
  rw [faultEntry, flushAttempt, if_neg h, ha, wroteBytes_singleton]
  rfl

theorem faultEntry_rejected (e : ErrCode) (w : CmdWord) (h : s.wcnt ≠ 0) (ha : s.io.outAccepts = false) :
    faultEntry e w s = { s with io := s.io.afterWrite s.paddedByte false, errCode := e.code, errCmd := w } := by
  rw [faultEntry, flushAttempt, if_neg h, ha]
  rfl

/-! ### A command out of its phase (60_exceptions.md R225) -/

/-- The `require` comes before everything else in the body. -/
theorem bodyOf_outOfPhase (h : outOfPhase i s = true) : bodyOf i s = .raise .eSeq s := by
  cases i with
  | fadd _ | fadds | fload | tbuild =>
    have hfl : s.fl = true := h
    simp only [bodyOf, bodyFadd, bodyFadds, bodyFload, bodyTbuild, hfl, Bool.not_true, requireFlag_false]
  | tcodes | wkrst | wkadv _ | dsym =>
    have htv : s.tv = false := Bool.not_eq_eq_eq_not.mp h
    simp only [bodyOf, bodyTcodes, bodyWkrst, bodyWkadv, bodyDsym, htv, requireFlag_false]
  | wcode _ | esyms | trecon =>
    have hcv : s.cv = false := Bool.not_eq_eq_eq_not.mp h
    simp only [bodyOf, bodyWcode, bodyEsyms, bodyTrecon, hcv, requireFlag_false]
  | nop | init | wbit _ | wflush | rbit | fsave | csave | cload | encode | decode => cases h

theorem exec_outOfPhase (hs : Running s) (h : outOfPhase i s = true) :
    exec i s = .next (faultEntry .eSeq (encodeWord i) s) := by
  have hrun : exec i s = runCommand i (bodyOf i) s := by
    cases i with
    | init => cases h
    | tcodes =>
      have htv : s.tv = false := Bool.not_eq_eq_eq_not.mp h
      exact exec_eq_runCommand nofun (by simp [State.pathsBroken, htv])
    | _ => rfl
  exact hrun.trans (runCommand_raised hs (bodyOf_outOfPhase h))

end Sys2Proof.Machine

namespace Sys2Proof.Proofs

open Sys2Proof.Machine Sys2Proof.Safety

/-- Settles O6: a word that decodes is executed in every state. -/
theorem stepRunsTheDecodedCommand : Obligations.StepRunsTheDecodedCommand := fun _ _ _ _ hp hw =>
  (step_command hp).trans (takeWord_of_decode hw)

/-- Settles O8: the port drops the word before the decoder sees it, and a command tests the fault record before its
body (log entry 6). -/
theorem faultedEngineIgnoresAllButInit : Obligations.FaultedEngineIgnoresAllButInit := fun s hs =>
  ⟨fun _ rest hp hw =>
      ⟨_, (step_command hp).trans (takeWord_ignored (s := { s with pending := rest }) hs hw), rfl, fun _ => rfl⟩,
    fun _ hp => (step_command hp).trans (takeWord_init _), fun _ => exec_faulted hs⟩

/-- Settles O9: the idle step of log entry 10. -/
theorem idleEngineHoldsItsState : Obligations.IdleEngineHoldsItsState := fun s hp => by
  rw [step, hostStep, hp]

/-- Settles O10: no bit pending, or one flush attempt that the host accepts or rejects. -/
theorem faultEntryFlushesAndRecords : Obligations.FaultEntryFlushesAndRecords := fun e w _ =>
  ⟨faultEntry_of_noPending e w, faultEntry_accepted e w, faultEntry_rejected e w⟩

/-- Settles O13: each of the eleven commands is out of its phase. -/
theorem phaseViolationRaisesESeq : Obligations.PhaseViolationRaisesESeq := fun s hs =>
  have hseq (i : Instr) (h : outOfPhase i s = true) : exec i s = .next (faultEntry .eSeq (encodeWord i) s) :=
    exec_outOfPhase hs h
  ⟨fun hfl => ⟨fun sym => hseq (.fadd sym) hfl, hseq .fadds hfl, hseq .fload hfl, hseq .tbuild hfl⟩,
    fun htv =>
      have htv : (!s.tv) = true := by rw [htv]; rfl
      ⟨hseq .tcodes htv, hseq .wkrst htv, fun b => hseq (.wkadv b) htv, hseq .dsym htv⟩,
    fun hcv =>
      have hcv : (!s.cv) = true := by rw [hcv]; rfl
      ⟨fun sym => hseq (.wcode sym) hcv, hseq .esyms hcv, hseq .trecon hcv⟩⟩

/-- Settles O14: with a fault recorded the port answers every word and leaves `ERR` or executes `INIT`; reset, also
during a command, writes `ERR` whatever the engine held. -/
theorem onlyInitAndResetClearTheFault : Obligations.OnlyInitAndResetClearTheFault := by
  refine fun s hs => ⟨fun t ht => ?_, fun rest hp => ?_⟩
  · obtain ⟨-, rfl⟩ | ⟨w, rest, hp, hw⟩ | ⟨rest, hp, rfl⟩ | ⟨w, n, rest, u, hp, -, rfl⟩ | ⟨rest, -, rfl⟩ :=
      step_eq_next ht
    · exact .inl ⟨rfl, rfl⟩
    · by_cases hinit : w = initWord
      · subst hinit
        rw [takeWord_init] at hw
        cases hw
        exact .inr ⟨rfl, rfl, .inl ⟨rest, hp⟩⟩
      · rw [takeWord_ignored (s := { s with pending := rest }) hs hinit] at hw
        cases hw
        exact .inl ⟨rfl, rfl⟩
    · exact .inr ⟨rfl, rfl, .inr (.inl ⟨rest, hp⟩)⟩
    · exact .inr ⟨rfl, rfl, .inr (.inr ⟨w, n, rest, hp⟩)⟩
    · exact .inl ⟨rfl, rfl⟩
  · obtain hp | hp | ⟨w, n, hp⟩ := hp
    · exact ⟨_, (step_command hp).trans (takeWord_init _), rfl, rfl, rfl, rfl⟩
    · exact ⟨_, step_reset hp, rfl, rfl, rfl, rfl⟩
    · obtain ⟨u, hu⟩ := exists_takeWord_faulted (s := { s with pending := rest }) hs w
      exact ⟨_, step_resetDuring hp hu, rfl, rfl, rfl, rfl⟩

end Sys2Proof.Proofs

namespace Sys2Proof.Machine

/-! ### `DECODE` of a header that is cut short (60_exceptions.md R223, 44_archiver.md R198) -/

open Sys2Proof.Safety

variable {s t : State}

/-- `ENCODE` or `DECODE` ends with the step that raises (44_archiver.md R196). -/
theorem doAll_raised {x : State → Body Unit} {xs : List (State → Body Unit)} {e : ErrCode} (h : x s = .raise e t) :
    doAll (x :: xs) s = .raise e t := by
  rw [doAll, h, andThen_raise]

theorem bodyCload_short (hr : ReadsSucceed s) (h : (restOfInput s).length < 8) :
    bodyCload s = .raise .eHeader { s with io := sawEof (tookBytes s.io (restOfInput s).length) } := by
  rw [bodyCload, inField, inFieldFrom_short _ _ _ hr h, andThen_raise]

/-- `CLOAD` or `FLOAD` meets the end of the input; the counts read before it stay. -/
theorem doAll_cload_fload_short (l : List (State → Body Unit)) (hr : ReadsSucceed s) (hfl : s.fl = false)
    (h : (restOfInput s).length < 2056) :
    ∃ freq count io, io.outData = s.io.outData ∧
      doAll (bodyCload :: bodyFload :: l) s = .raise .eHeader { s with freq := freq, symcnt := count, io := io } := by
  by_cases h8 : (restOfInput s).length < 8
  · exact ⟨s.freq, s.symcnt, sawEof (tookBytes s.io (restOfInput s).length), rfl, doAll_raised (bodyCload_short hr h8)⟩
  · obtain ⟨a, ha⟩ : ∃ a, a =
      ({ s with symcnt := fieldOf 0 0 ((restOfInput s).take 8), io := tookBytes s.io 8 } : State) := ⟨_, rfl⟩
    have hcload : bodyCload s = .done () a := ha ▸ bodyCload_done hr (Nat.le_of_not_lt h8)
    have hra : ReadsSucceed a := by rw [ha]; exact readsSucceed_tookBytes 8 hr
    have hrest : (restOfInput a).length < 8 * allSymbols.length := by
      rw [restOfInput_eq_drop (s := s) (n := 8) (by rw [ha]), List.length_drop, length_allSymbols]
      omega
    have hfload : bodyFload a = .raise .eHeader _ :=
      (requireFlag_unlocked (by rw [ha]; exact hfl)).trans (loadTable_short allSymbols hra hrest)
    refine ⟨_, _, _, ?_, (doAll_next hcload).trans ((doAll_raised hfload).trans (by rw [ha]))⟩
    rfl

/-- Of the registers only `SYMCNT` is written after `SessionInit()`. -/
theorem bodyDecode_shortHeader (hr : ReadsSucceed s) (h : s.io.inData.length < 2056) :
    ∃ freq count io, io.outData = s.io.outData ∧ bodyDecode s = .raise .eHeader (s.counted freq count io) := by
  obtain ⟨freq, count, io, hout, hraise⟩ := doAll_cload_fload_short
    (s := s.counted (Vector.replicate _ 0) 0 s.io.inRewind)
    [bodyTbuild, bodyTcodes, fun s => decodeLoop (s.bitsLeft + 1) s] hr rfl h
  exact ⟨freq, count, io, hout, by rw [bodyDecode, doAll_rewind, hraise, andThen_raise]; rfl⟩

end Sys2Proof.Machine

namespace Sys2Proof.Proofs

open Sys2Proof.Machine Sys2Proof.Safety

/-- Settles O50: the header ends before `TBUILD`, and fault entry finds no bit pending. -/
theorem decodeOfAShortHeaderIsEHeader : Obligations.DecodeOfAShortHeaderIsEHeader := by
  intro s hs hr h
  obtain ⟨freq, count, io, hout, hraise⟩ := bodyDecode_shortHeader hr h
  refine ⟨_, (runCommand_raised hs hraise).trans (congrArg _ (faultEntry_of_noPending _ _ rfl)), rfl, rfl, hout, ?_⟩
  exact ⟨rfl, rfl, rfl, rfl, rfl⟩

end Sys2Proof.Proofs

namespace Sys2Proof.Machine

/-! ### The causes of the faults that a body raises (60_exceptions.md R222 to R225) -/

open Sys2Proof.Safety

variable {α β : Type} {i : Instr} {s t u : State} {e : ErrCode} {calls : List StreamCall}

/-- What a fault that `i` raises shows of its cause, after these calls in the state of the raise. The one `E_SEQ` is that
of the `require` in front of the body, and no command raises `E_ILLEGAL`. -/
def CauseShown (i : Instr) (calls : List StreamCall) (u : State) : ErrCode → Prop
  | .eIO => .read .err ∈ calls ∨ ∃ v, .write v false ∈ calls
  | .eHeader => .read .eof ∈ calls ∧ i ∈ [Instr.cload, .fload, .decode]
  | .eEof => .read .eof ∈ calls ∧ i ∈ [Instr.rbit, .dsym, .decode]
  | .eSeq | .eIllegal => False
  | .eOvf => ∃ sym, Counts i sym calls ∧ (u.freqAt sym = countMax ∨ u.symcnt = countMax)

/-- Further calls hide no cause, nor does anything that leaves the counts. -/
theorem CauseShown.mono {calls' : List StreamCall} (h : CauseShown i calls u e) (hcalls : calls ⊆ calls')
    (hfreq : t.freq = u.freq) (hsymcnt : t.symcnt = u.symcnt) : CauseShown i calls' t e := by
  cases e with
  | eIO => exact h.imp (hcalls ·) fun ⟨v, hv⟩ => ⟨v, hcalls hv⟩
  | eHeader | eEof => exact ⟨hcalls h.1, h.2⟩
  | eSeq | eIllegal => exact h
  | eOvf =>
    obtain ⟨sym, hsym, hmax⟩ := h
    refine ⟨sym, hsym.imp_right fun ⟨hi, hread⟩ => ⟨hi, hcalls hread⟩, ?_⟩
    rwa [State.freqAt, hfreq, hsymcnt]

/-- A part of the body of `i`, run from `s`, ends by recorded calls with `ERR` as it was, or raises a fault that shows
its cause. -/
def Body.EndsFor (i : Instr) (s : State) : Body α → Prop
  | .done _ u => Reaches s.io u.io ∧ u.errCode = s.errCode
  | .raise e u => ∃ calls, u.io = s.io.replay calls ∧ CauseShown i calls u e
  | .stuck _ => True

/-- The calls made before it count with those of the part that follows. -/
theorem Body.EndsFor.after {r : Body α} (h : r.EndsFor i u) (hreach : Reaches s.io u.io) (herr : u.errCode = s.errCode) :
    r.EndsFor i s := by
  cases r with
  | stuck f => trivial
  | done a v => exact ⟨hreach.trans h.1, h.2.trans herr⟩
  | raise e v =>
    obtain ⟨before, hbefore⟩ := hreach
    obtain ⟨calls, hcalls, hcause⟩ := h
    refine ⟨before ++ calls, ?_, hcause.mono (List.subset_append_right _ _) rfl rfl⟩
    rw [replay_append, ← hbefore, hcalls]

theorem Body.EndsFor.andThen {r : Body α} {k : α → State → Body β} (h : r.EndsFor i s)
    (hk : ∀ a u, r = .done a u → (k a u).EndsFor i u) : (r.andThen k).EndsFor i s := by
  cases r with
  | stuck f => trivial
  | raise e u => exact h
  | done a u => exact (hk a u rfl).after h.1 h.2

theorem Body.endsFor_done (a : α) (hio : u.io = s.io) (herr : u.errCode = s.errCode) : (Body.done a u).EndsFor i s :=
  ⟨hio ▸ .refl _, herr⟩

theorem requireFlag_endsFor {c : Bool} {k : State → Body Unit} (hc : c = true) (h : (k s).EndsFor i s) :
    (requireFlag c k s).EndsFor i s := by
  rwa [requireFlag_of hc]

/-! The streams. -/

theorem outByte_endsFor (v : Byte) (s : State) : (outByte v s).EndsFor i s := by
  cases ha : s.io.outAccepts with
  | true =>
    rw [outByte_accepted v ha]
    exact ⟨reaches_afterWrite _ _ _, rfl⟩
  | false =>
    rw [outByte_rejected v ha]
    exact ⟨[.write v false], rfl, .inr ⟨v, List.mem_singleton_self _⟩⟩

theorem outBytes_endsFor (bytes : List Byte) (s : State) : (outBytes bytes s).EndsFor i s := by
  induction bytes generalizing s with
  | nil => exact Body.endsFor_done () rfl rfl
  | cons v vs ih => exact (outByte_endsFor v s).andThen fun _ u _ => ih u

/-- Of the end of the input `InByte` makes the fault that it is given. -/
theorem inByte_endsFor (he : ∀ u, CauseShown i [.read .eof] u e) (s : State) : (inByte e s).EndsFor i s := by
  cases ha : s.io.inAnswer with
  | byte v =>
    rw [inByte_byte e ha]
    exact ⟨reaches_afterRead s.io (.byte v), rfl⟩
  | eof =>
    rw [inByte_eof e ha]
    exact ⟨[.read .eof], rfl, he _⟩
  | err =>
    rw [inByte_err e ha]
    exact ⟨[.read .err], rfl, .inl (List.mem_singleton_self _)⟩

theorem inByteOrStop_endsFor (s : State) : (inByteOrStop s).EndsFor i s := by
  cases ha : s.io.inAnswer with
  | byte v =>
    rw [inByteOrStop_byte ha]
    exact ⟨reaches_afterRead s.io (.byte v), rfl⟩
  | eof =>
    rw [inByteOrStop_eof ha]
    exact ⟨reaches_afterRead s.io .eof, rfl⟩
  | err =>
    rw [inByteOrStop_err ha]
    exact ⟨[.read .err], rfl, .inl (List.mem_singleton_self _)⟩

theorem rewindInput_endsFor (s : State) : (rewindInput s).EndsFor i s := ⟨reaches_inRewind _, rfl⟩

/-! The writer. -/

theorem putBit_endsFor (b : Bit) (s : State) : (putBit b s).EndsFor i s := by
  unfold putBit
  dsimp only
  split
  · exact (outByte_endsFor _ s).andThen fun _ _ _ => Body.endsFor_done () rfl rfl
  · exact Body.endsFor_done () rfl rfl

theorem putBits_endsFor (c : Codeword) (s : State) : (putBits c s).EndsFor i s := by
  induction c generalizing s with
  | nil => exact Body.endsFor_done () rfl rfl
  | cons b bs ih => exact (putBit_endsFor b s).andThen fun _ u _ => ih u

theorem flush_endsFor (s : State) : (flush s).EndsFor i s := by
  unfold flush
  split
  · exact Body.endsFor_done () rfl rfl
  · exact (outByte_endsFor _ s).andThen fun _ _ _ => Body.endsFor_done () rfl rfl

theorem putSymbol_endsFor (sym : Symbol) (s : State) : (putSymbol sym s).EndsFor i s := by
  unfold putSymbol
  split
  · exact putBits_endsFor _ s
  · trivial

theorem encodeRest_endsFor (n : Nat) (s : State) : (encodeRest n s).EndsFor i s := by
  induction n generalizing s with
  | zero => exact Body.endsFor_done () rfl rfl
  | succ n ih =>
    refine (inByteOrStop_endsFor s).andThen fun v u _ => ?_
    cases v with
    | none => exact Body.endsFor_done () rfl rfl
    | some sym => exact (putSymbol_endsFor sym u).andThen fun _ w _ => ih w

/-! The header fields. -/

theorem inFieldFrom_endsFor (hi : i ∈ [Instr.cload, .fload, .decode]) (n k : Nat) (c : Count) (s : State) :
    (inFieldFrom n k c s).EndsFor i s := by
  induction n generalizing k c s with
  | zero => exact Body.endsFor_done c rfl rfl
  | succ n ih =>
    have hend : ∀ u, CauseShown i [.read .eof] u .eHeader := fun _ => ⟨List.mem_singleton_self _, hi⟩
    exact (inByte_endsFor hend s).andThen fun v u _ => ih _ _ u

theorem loadTable_endsFor (hi : i ∈ [Instr.cload, .fload, .decode]) (l : List Symbol) (s : State) :
    (loadTable l s).EndsFor i s := by
  induction l generalizing s with
  | nil => exact Body.endsFor_done () rfl rfl
  | cons sym rest ih => exact (inFieldFrom_endsFor hi _ _ _ s).andThen fun c u _ => ih (u.setFreq sym c)

theorem bodyCload_endsFor (hi : i ∈ [Instr.cload, .fload, .decode]) (s : State) : (bodyCload s).EndsFor i s :=
  (inFieldFrom_endsFor hi _ _ _ s).andThen fun _ _ _ => Body.endsFor_done () rfl rfl

/-! The counts. -/

/-- `CountSym` after the calls that gave it its symbol. It raises before it writes, so the count stays at its largest. -/
theorem countSym_endsFor {sym : Symbol} (hio : u.io = s.io.replay calls) (herr : u.errCode = s.errCode)
    (hsym : Counts i sym calls) : (countSym sym u).EndsFor i s := by
  by_cases hmax : u.freqAt sym = countMax ∨ u.symcnt = countMax
  · rw [countSym_overflow hmax]
    exact ⟨calls, hio, sym, hsym, hmax⟩
  · obtain ⟨hf, hc⟩ := not_or.mp hmax
    rw [countSym_done hf hc]
    exact ⟨⟨calls, hio⟩, herr⟩

theorem countRest_endsFor (hi : i ∈ [Instr.fadds, .encode]) (n : Nat) (s : State) : (countRest n s).EndsFor i s := by
  induction n generalizing s with
  | zero => exact Body.endsFor_done () rfl rfl
  | succ n ih =>
    rw [countRest]
    cases ha : s.io.inAnswer with
    | eof =>
      rw [inByteOrStop_eof ha, andThen_done]
      exact ⟨reaches_afterRead s.io .eof, rfl⟩
    | err =>
      rw [inByteOrStop_err ha, andThen_raise]
      exact ⟨[.read .err], rfl, .inl (List.mem_singleton_self _)⟩
    | byte v =>
      rw [inByteOrStop_byte ha, andThen_done]
      have hcount : (countSym v { s with io := s.io.afterRead (.byte v) }).EndsFor i s :=
        countSym_endsFor (calls := [.read (.byte v)]) rfl rfl (.inr ⟨hi, List.mem_singleton_self _⟩)
      exact hcount.andThen fun _ u _ => ih u

/-! The reader and the walker. -/

theorem getBit_endsFor (hi : i ∈ [Instr.rbit, .dsym, .decode]) (s : State) : (getBit s).EndsFor i s := by
  refine Body.EndsFor.andThen (r := refill s) ?_ fun _ u _ => Body.endsFor_done _ rfl rfl
  unfold refill
  split
  · have hend : ∀ u, CauseShown i [.read .eof] u .eEof := fun _ => ⟨List.mem_singleton_self _, hi⟩
    exact (inByte_endsFor hend s).andThen fun _ _ _ => Body.endsFor_done () rfl rfl
  · exact Body.endsFor_done () rfl rfl

theorem advance_endsFor (b : Bit) (s : State) : (advance b s).EndsFor i s := by
  unfold advance
  split
  · trivial
  · split
    · trivial
    · exact Body.endsFor_done () rfl rfl

theorem walkToLeaf_endsFor (hi : i ∈ [Instr.rbit, .dsym, .decode]) (n : Nat) (s : State) :
    (walkToLeaf n s).EndsFor i s := by
  induction n generalizing s with
  | zero => trivial
  | succ n ih =>
    refine (getBit_endsFor hi s).andThen fun b u _ => (advance_endsFor b u).andThen fun _ v _ => ?_
    split
    · trivial
    · split
      · exact Body.endsFor_done _ rfl rfl
      · exact ih v

theorem bodyDsym_endsFor (hi : i ∈ [Instr.rbit, .dsym, .decode]) (htv : s.tv = true) : (bodyDsym s).EndsFor i s :=
  requireFlag_endsFor htv <|
    (walkToLeaf_endsFor hi _ s).andThen fun sym u _ =>
      (outByte_endsFor sym u).andThen fun _ _ _ => Body.endsFor_done () rfl rfl

/-- No round of `DECODE` is out of phase: `DSYM` leaves `TV`. -/
theorem decodeLoop_endsFor (hi : i ∈ [Instr.rbit, .dsym, .decode]) (n : Nat) (htv : s.tv = true) :
    (decodeLoop n s).EndsFor i s := by
  induction n generalizing s with
  | zero => trivial
  | succ n ih =>
    unfold decodeLoop
    split
    · exact Body.endsFor_done () rfl rfl
    · refine (bodyDsym_endsFor hi htv).andThen fun _ u hu => ih ?_
      have hkeeps := congrArg State.tv ((bodyDsym_keeps s).of_done hu)
      exact hkeeps.trans htv

/-! `ENCODE` and `DECODE`. The flag that a step requires is left so by the steps before it (44_archiver.md R197, R198). -/

/-- `TBUILD` and `TCODES` after `SessionInit()` raise nothing and set their flags. -/
theorem doAll_tbuild_tcodes_endsFor (l : List (State → Body Unit)) (hfl : s.fl = false)
    (h : ∀ u : State, u.tv = true → u.cv = true → (doAll l u).EndsFor i u) :
    (doAll (bodyTbuild :: bodyTcodes :: l) s).EndsFor i s := by
  obtain ⟨-, tree, w, -, -, hsteps⟩ := doAll_tbuild_tcodes l hfl
  rw [hsteps]
  exact h (s.withCodes tree w (codeTableOf s.freq)) rfl rfl

theorem bodyEncode_endsFor (s : State) : (bodyEncode s).EndsFor .encode s := by
  refine Body.EndsFor.andThen (r := doAll _ s.sessionInit) ?_ fun _ _ _ => Body.endsFor_done () rfl rfl
  change Body.EndsFor .encode s.sessionInit _
  refine (rewindInput_endsFor s.sessionInit).andThen fun _ a ha => ?_
  have hfl : a.fl = false := by cases ha; rfl
  have hadds : (bodyFadds a).EndsFor .encode a :=
    requireFlag_endsFor (by rw [hfl]; rfl) (countRest_endsFor (by decide) _ a)
  refine hadds.andThen fun _ b hb => ?_
  have hfl : b.fl = false := (congrArg State.fl ((bodyFadds_keeps a).of_done hb)).trans hfl
  refine doAll_tbuild_tcodes_endsFor _ hfl fun c _ hcv => ?_
  refine (outBytes_endsFor (fieldBytes c.symcnt) c).andThen fun _ d hd => ?_
  have hcv : d.cv = true := (congrArg State.cv ((outBytes_keeps writerErased_blind _ c).of_done hd)).trans hcv
  refine (outBytes_endsFor (tableBytes d.freq) d).andThen fun _ f hf => ?_
  have hcv : f.cv = true := (congrArg State.cv ((outBytes_keeps writerErased_blind _ d).of_done hf)).trans hcv
  refine (rewindInput_endsFor f).andThen fun _ g hg => ?_
  have hcv : g.cv = true := by cases hg; exact hcv
  refine (requireFlag_endsFor hcv (encodeRest_endsFor _ g)).andThen fun _ h _ => ?_
  exact (flush_endsFor h).andThen fun _ _ _ => Body.endsFor_done () rfl rfl

theorem bodyDecode_endsFor (s : State) : (bodyDecode s).EndsFor .decode s := by
  refine Body.EndsFor.andThen (r := doAll _ s.sessionInit) ?_ fun _ _ _ => Body.endsFor_done () rfl rfl
  change Body.EndsFor .decode s.sessionInit _
  refine (rewindInput_endsFor s.sessionInit).andThen fun _ a ha => ?_
  have hfl : a.fl = false := by cases ha; rfl
  refine (bodyCload_endsFor (by decide) a).andThen fun _ b hb => ?_
  have hfl : b.fl = false := (congrArg State.fl ((bodyCload_keeps a).of_done hb)).trans hfl
  have hload : (bodyFload b).EndsFor .decode b :=
    requireFlag_endsFor (by rw [hfl]; rfl) (loadTable_endsFor (by decide) _ b)
  refine hload.andThen fun _ c hc => ?_
  have hfl : c.fl = false := (congrArg State.fl ((bodyFload_keeps b).of_done hc)).trans hfl
  refine doAll_tbuild_tcodes_endsFor _ hfl fun d htv _ => ?_
  exact (decodeLoop_endsFor (by decide) _ htv).andThen fun _ _ _ => Body.endsFor_done () rfl rfl

/-! The commands. -/

/-- In its phase every command ends without a fault or raises one that shows its cause. -/
theorem bodyOf_endsFor (h : outOfPhase i s = false) : (bodyOf i s).EndsFor i s := by
  cases i with
  | nop | init => exact Body.endsFor_done () rfl rfl
  | wbit b => exact putBit_endsFor b s
  | wflush => exact flush_endsFor s
  | csave | fsave => exact outBytes_endsFor _ s
  | rbit => exact (getBit_endsFor (by decide) s).andThen fun _ _ _ => Body.endsFor_done () rfl rfl
  | cload => exact bodyCload_endsFor (by decide) s
  | encode => exact bodyEncode_endsFor s
  | decode => exact bodyDecode_endsFor s
  | fadd sym => exact requireFlag_endsFor (Bool.not_eq_eq_eq_not.mpr h) (countSym_endsFor (calls := []) rfl rfl (.inl rfl))
  | fadds => exact requireFlag_endsFor (Bool.not_eq_eq_eq_not.mpr h) (countRest_endsFor (by decide) _ s)
  | fload => exact requireFlag_endsFor (Bool.not_eq_eq_eq_not.mpr h) (loadTable_endsFor (by decide) _ s)
  | tbuild =>
    rw [bodyOf, bodyTbuild_done h]
    exact Body.endsFor_done () rfl rfl
  | tcodes =>
    rw [bodyOf, bodyTcodes_done (Bool.not_eq_eq_eq_not.mp h)]
    exact Body.endsFor_done () rfl rfl
  | wkrst =>
    exact requireFlag_endsFor (k := fun s => .done () { s with cur := s.root }) (Bool.not_eq_eq_eq_not.mp h)
      (Body.endsFor_done () rfl rfl)
  | wkadv b => exact requireFlag_endsFor (Bool.not_eq_eq_eq_not.mp h) (advance_endsFor b s)
  | dsym => exact bodyDsym_endsFor (by decide) (Bool.not_eq_eq_eq_not.mp h)
  | wcode sym => exact requireFlag_endsFor (Bool.not_eq_eq_eq_not.mp h) (putSymbol_endsFor sym s)
  | esyms => exact requireFlag_endsFor (Bool.not_eq_eq_eq_not.mp h) (encodeRest_endsFor _ s)
  | trecon =>
    rw [bodyOf, bodyTrecon]
    refine requireFlag_endsFor (Bool.not_eq_eq_eq_not.mp h) ?_
    split
    · trivial
    · exact Body.endsFor_done () rfl rfl

/-- Streams that calls have left as they were show no call. -/
theorem eq_nil_of_replay_eq {io : Streams} (h : io.replay calls = io) : calls = [] := by
  have hcalls := replay_calls io calls
  rw [h, List.self_eq_append_left] at hcalls
  exact List.reverse_eq_nil_iff.mp hcalls

/-- A body that raises `E_IO` has made a call (60_exceptions.md R222). -/
theorem movesBytes_of_eIO (hb : bodyOf i s = .raise .eIO u) (hio : u.io = s.io.replay calls)
    (hcause : CauseShown i calls u .eIO) : movesBytes i = true := by
  refine Bool.of_not_eq_false fun hi => ?_
  obtain ⟨hsame, -⟩ := (bodyOf_sameStreams hi s).of_raise hb
  obtain rfl := eq_nil_of_replay_eq (hio.symm.trans hsame)
  simp [CauseShown] at hcause

/-- What the fault that `i` records between two states shows of its cause. -/
def RecordedCause (i : Instr) (s t : State) : ErrCode → Prop
  | .eSeq => outOfPhase i s = true ∧ t = faultEntry .eSeq (encodeWord i) s
  | .eIO => movesBytes i = true ∧ CauseShown i (newCalls s t) t .eIO
  | e => CauseShown i (newCalls s t) t e

/-- Fault entry hides no cause: its flush attempt is a further call, and it writes no count. -/
theorem CauseShown.recorded (hb : bodyOf i s = .raise e u) (hio : u.io = s.io.replay calls)
    (hcause : CauseShown i calls u e) : RecordedCause i s (faultEntry e (encodeWord i) u) e := by
  obtain ⟨flushed, hflushed⟩ := faultEntry_reaches e (encodeWord i) u
  have hcalls : newCalls s (faultEntry e (encodeWord i) u) = calls ++ flushed := by
    rw [newCalls, hflushed, hio, ← replay_append, callsSince_replay]
  have hshown : CauseShown i (newCalls s (faultEntry e (encodeWord i) u)) (faultEntry e (encodeWord i) u) e :=
    hcause.mono (hcalls ▸ List.subset_append_left _ _) (by simp) (by simp)
  cases e with
  | eIO => exact ⟨movesBytes_of_eIO hb hio hcause, hshown⟩
  | eSeq => exact hcause.elim
  | eHeader | eEof | eIllegal | eOvf => exact hshown

/-- A command with which a fault comes to be recorded has recorded its own word, and the cause shows. -/
theorem exec_recorded (hs : Running s) (h : exec i s = .next t) (ht : ¬ Running t) :
    ∃ e : ErrCode, t.errCode = e.code ∧ t.errCmd = encodeWord i ∧ RecordedCause i s t e := by
  cases hphase : outOfPhase i s with
  | true =>
    rw [exec_outOfPhase hs hphase] at h
    cases h
    exact ⟨.eSeq, rfl, rfl, hphase, rfl⟩
  | false =>
    have hends := bodyOf_endsFor hphase
    obtain ⟨-, rfl⟩ | ⟨-, hns, -⟩ | ⟨-, -, hb⟩ | ⟨-, -, e, u, hb, rfl⟩ := exec_eq_next h
    · exact absurd rfl ht
    · exact absurd hs hns
    · rw [hb] at hends
      exact absurd (hends.2.trans hs) ht
    · rw [hb] at hends
      obtain ⟨calls, hio, hcause⟩ := hends
      exact ⟨e, rfl, rfl, hcause.recorded hb hio⟩

theorem ErrCode.code_injective : Function.Injective ErrCode.code := by
  intro e e' h
  cases e <;> cases e' <;> cases h <;> rfl

theorem exec_recordedCause (hs : Running s) (h : exec i s = .next t) (he : t.errCode = e.code) : RecordedCause i s t e := by
  obtain ⟨e', he', -, hcause⟩ := exec_recorded hs h fun ht => e.code_ne_zero (he.symm.trans ht)
  rwa [ErrCode.code_injective (he.symm.trans he')]

end Sys2Proof.Machine

namespace Sys2Proof.Proofs

open Sys2Proof.Machine Sys2Proof.Safety

/-- Settles O11: of the codes, `E_ILLEGAL` is the one that no command raises. -/
theorem recordedFaultNamesItsCommand : Obligations.RecordedFaultNamesItsCommand := by
  intro i s t hs h ht
  obtain ⟨e, hcode, hcmd, -⟩ := exec_recorded hs h ht
  exact ⟨hcmd, hcode ▸ e.code_le_six, exec_recordedCause (e := .eIllegal) hs h⟩

/-- Settles O12: a helper raises with the call or the count that makes it raise, and the calls before it and the flush
of fault entry hide neither. -/
theorem faultCodesComeFromTheirCauses : Obligations.FaultCodesComeFromTheirCauses := fun _ _ _ hs h =>
  ⟨exec_recordedCause (e := .eIO) hs h, exec_recordedCause (e := .eHeader) hs h, exec_recordedCause (e := .eEof) hs h,
    exec_recordedCause (e := .eSeq) hs h, exec_recordedCause (e := .eOvf) hs h⟩

end Sys2Proof.Proofs

namespace Sys2Proof.Proofs

open Sys2Proof.Machine Sys2Proof.Safety

/-- Settles O16: the streams that the event leaves are those before it after a replay of the first `n` of the command's
calls, and a replay does to each part of the streams what the calls did. -/
theorem resetDuringCommandKeepsMovedBytes : Obligations.ResetDuringCommandKeepsMovedBytes := by
  intro s w n rest t u hp ht hu
  obtain ⟨cs, hio⟩ := takeWord_reaches hu
  have hmade : newCalls s u = cs := by rw [newCalls, hio]; exact callsSince_replay s.io cs
  have htEq : t = { State.reset with io := s.io.replay (cs.take n), pending := rest } := by
    rw [step_resetDuring hp hu] at ht
    cases ht
    exact congrArg (fun calls => { State.reset with io := s.io.replay (calls.take n), pending := rest }) hmade
  have hcalls : newCalls s t = cs.take n := by rw [newCalls, htEq]; exact callsSince_replay s.io _
  have hu_io : u.io = (s.io.replay (cs.take n)).replay (cs.drop n) := by
    rw [← replay_append, List.take_append_drop]
    exact hio
  rw [hcalls, hmade, htEq]
  refine ⟨rfl, rfl, replay_outData_eq _ _, replay_inPos _ _, replay_inData _ _, replay_readDraws _ _,
    replay_writeDraws _ _, replay_calls _ _, ?_, ?_, fun hn => ?_⟩
  · rw [hu_io]
    exact replay_outData _ _
  · rintro rfl
    rfl
  · rw [List.take_of_length_le hn]
    exact hio.symm

end Sys2Proof.Proofs

namespace Sys2Proof.Machine

/-! ### The operations do not look at the host's side (20_memory.md R65, log entries 1 and 3)

No operation reads the record of the calls, the word of a fault that was cleared, or what the host will do next. So two
states that differ in these alone are led to states that differ in these alone. -/

open Sys2Proof.Safety

variable {α β : Type} {s t u : State}

/-- All but `ERR.CMD`, the record of the calls and what the host will do. -/
def State.hostErased (s : State) : State :=
  { s with errCmd := 0, pending := [], io := { s.io with calls := [] } }

@[simp] theorem State.hostErased_root : s.hostErased.root = s.root := rfl
@[simp] theorem State.hostErased_cur : s.hostErased.cur = s.cur := rfl
@[simp] theorem State.hostErased_freq : s.hostErased.freq = s.freq := rfl
@[simp] theorem State.hostErased_tree : s.hostErased.tree = s.tree := rfl
@[simp] theorem State.hostErased_code : s.hostErased.code = s.code := rfl

/-- The end of a body but for the host's side. -/
def Body.hostErased : Body α → Body α
  | .done a s => .done a s.hostErased
  | .raise e s => .raise e s.hostErased
  | .stuck f => .stuck f

/-- What the host's side holds makes no difference to the operation. -/
def IgnoresHost (k : State → Body α) : Prop := ∀ s, (k s.hostErased).hostErased = (k s).hostErased

/-- Where the operation is done, it is done too from a state that differs in the host's side. -/
theorem IgnoresHost.done {k : State → Body α} {a : α} (hk : IgnoresHost k) (h : s.hostErased = t.hostErased)
    (ht : k t = .done a u) : ∃ v, k s = .done a v ∧ v.hostErased = u.hostErased := by
  have heq : (k s).hostErased = (k t).hostErased := by rw [← hk s, h, hk t]
  rw [ht] at heq
  cases hs : k s with
  | done b v =>
    rw [hs] at heq
    obtain ⟨rfl, hv⟩ := Body.done.inj heq
    exact ⟨v, rfl, hv⟩
  | raise _ _ => rw [hs] at heq; cases heq
  | stuck _ => rw [hs] at heq; cases heq

/-- The host's side does not pass from one part of a sequence to the next. -/
theorem hostErased_andThen (r : Body α) {k : α → State → Body β} (hk : ∀ a, IgnoresHost (k a)) :
    (r.andThen k).hostErased = r.hostErased.andThen fun a u => (k a u).hostErased := by
  cases r with
  | done a u => exact (hk a u).symm
  | raise _ _ => rfl
  | stuck _ => rfl

theorem IgnoresHost.andThen {r : State → Body α} {k : α → State → Body β} (hr : IgnoresHost r)
    (hk : ∀ a, IgnoresHost (k a)) : IgnoresHost fun s => (r s).andThen k := fun s => by
  dsimp only
  rw [hostErased_andThen _ hk, hr s, ← hostErased_andThen _ hk]

/-- A test that does not look at the host's side. -/
theorem IgnoresHost.ite {c : State → Prop} [∀ s, Decidable (c s)] {k l : State → Body α}
    (hc : ∀ s, c s.hostErased ↔ c s) (hk : IgnoresHost k) (hl : IgnoresHost l) :
    IgnoresHost fun s => if c s then k s else l s := by
  intro s
  simp only [hc]
  split
  · exact hk s
  · exact hl s

/-- The flag and the body of a `require` may depend on all but the host's side. -/
theorem requireFlag_ignoresHost {c : State → Bool} {k : State → State → Body Unit}
    (hc : ∀ s, c s.hostErased = c s) (hk : IgnoresHost fun s => k s s) :
    IgnoresHost fun s => requireFlag (c s) (k s) s :=
  .ite (fun s => by rw [hc]) hk fun _ => rfl

/-! The streams. -/

theorem outByte_ignoresHost (v : Byte) : IgnoresHost (outByte v) :=
  .ite (fun _ => Iff.rfl) (fun _ => rfl) fun _ => rfl

theorem outBytes_ignoresHost (bytes : List Byte) : IgnoresHost (outBytes bytes) := by
  induction bytes with
  | nil => exact fun _ => rfl
  | cons v vs ih => exact (outByte_ignoresHost v).andThen fun _ => ih

theorem hostErased_inAnswer (s : State) : s.hostErased.io.inAnswer = s.io.inAnswer := rfl

theorem inByte_ignoresHost (e : ErrCode) : IgnoresHost (inByte e) := by
  intro s
  unfold inByte
  rw [hostErased_inAnswer]
  cases s.io.inAnswer <;> rfl

theorem inByteOrStop_ignoresHost : IgnoresHost inByteOrStop := by
  intro s
  unfold inByteOrStop
  rw [hostErased_inAnswer]
  cases s.io.inAnswer <;> rfl

theorem inFieldFrom_ignoresHost (n k : Nat) (c : Count) : IgnoresHost (inFieldFrom n k c) := by
  induction n generalizing k c with
  | zero => exact fun _ => rfl
  | succ n ih => exact (inByte_ignoresHost .eHeader).andThen fun _ => ih _ _

theorem rewindInput_ignoresHost : IgnoresHost rewindInput := fun _ => rfl

/-! The helpers of the units. -/

theorem putBit_ignoresHost (b : Bit) : IgnoresHost (putBit b) :=
  .ite (fun _ => Iff.rfl)
    (fun s => (outByte_ignoresHost (s.wsr.shiftConcat b)).andThen (fun _ _ => rfl) s) fun _ => rfl

theorem putBits_ignoresHost (c : Codeword) : IgnoresHost (putBits c) := by
  induction c with
  | nil => exact fun _ => rfl
  | cons b bs ih => exact (putBit_ignoresHost b).andThen fun _ => ih

theorem putSymbol_ignoresHost (sym : Symbol) : IgnoresHost (putSymbol sym) := by
  intro s
  unfold putSymbol
  rw [State.hostErased_code]
  split
  · exact putBits_ignoresHost _ s
  · rfl

theorem flush_ignoresHost : IgnoresHost flush :=
  .ite (fun _ => Iff.rfl) (fun _ => rfl) fun s => (outByte_ignoresHost s.paddedByte).andThen (fun _ _ => rfl) s

theorem refill_ignoresHost : IgnoresHost refill :=
  .ite (fun _ => Iff.rfl) ((inByte_ignoresHost .eEof).andThen fun _ _ => rfl) fun _ => rfl

theorem getBit_ignoresHost : IgnoresHost getBit := refill_ignoresHost.andThen fun _ _ => rfl

theorem countSym_ignoresHost (sym : Symbol) : IgnoresHost (countSym sym) :=
  .ite (fun _ => Iff.rfl) (fun _ => rfl) fun _ => rfl

theorem countRest_ignoresHost (n : Nat) : IgnoresHost (countRest n) := by
  induction n with
  | zero => exact fun _ => rfl
  | succ n ih =>
    refine inByteOrStop_ignoresHost.andThen fun v => ?_
    cases v with
    | none => exact fun _ => rfl
    | some sym => exact (countSym_ignoresHost sym).andThen fun _ => ih

theorem encodeRest_ignoresHost (n : Nat) : IgnoresHost (encodeRest n) := by
  induction n with
  | zero => exact fun _ => rfl
  | succ n ih =>
    refine inByteOrStop_ignoresHost.andThen fun v => ?_
    cases v with
    | none => exact fun _ => rfl
    | some sym => exact (putSymbol_ignoresHost sym).andThen fun _ => ih

theorem loadTable_ignoresHost (l : List Symbol) : IgnoresHost (loadTable l) := by
  induction l with
  | nil => exact fun _ => rfl
  | cons sym rest ih => exact (inFieldFrom_ignoresHost _ _ _).andThen fun c s => ih (s.setFreq sym c)

theorem advance_ignoresHost (b : Bit) : IgnoresHost (advance b) := by
  intro s
  unfold advance
  rw [State.hostErased_tree, State.hostErased_cur, State.hostErased_root]
  split
  · rfl
  · split <;> rfl

theorem walkToLeaf_ignoresHost (n : Nat) : IgnoresHost (walkToLeaf n) := by
  induction n with
  | zero => exact fun _ => rfl
  | succ n ih =>
    refine getBit_ignoresHost.andThen fun b => (advance_ignoresHost b).andThen fun _ s => ?_
    rw [State.hostErased_tree, State.hostErased_cur]
    split
    · rfl
    · split
      · rfl
      · exact ih s

/-! The bodies. -/

theorem bodyFadds_ignoresHost : IgnoresHost bodyFadds :=
  requireFlag_ignoresHost (fun _ => rfl) fun s => countRest_ignoresHost (s.io.remaining + 1) s

theorem bodyFload_ignoresHost : IgnoresHost bodyFload :=
  requireFlag_ignoresHost (fun _ => rfl) (loadTable_ignoresHost allSymbols)

theorem bodyCload_ignoresHost : IgnoresHost bodyCload := (inFieldFrom_ignoresHost _ _ _).andThen fun _ _ => rfl

theorem bodyCsave_ignoresHost : IgnoresHost bodyCsave := fun s => outBytes_ignoresHost (fieldBytes s.symcnt) s

theorem bodyFsave_ignoresHost : IgnoresHost bodyFsave := fun s => outBytes_ignoresHost (tableBytes s.freq) s

theorem bodyTbuild_ignoresHost : IgnoresHost bodyTbuild := by
  refine requireFlag_ignoresHost (fun _ => rfl) fun s => ?_
  dsimp only [State.hostErased_freq, State.hostErased_tree]
  generalize buildTree s.freq s.tree = b
  rfl

theorem bodyTcodes_ignoresHost : IgnoresHost bodyTcodes := by
  refine requireFlag_ignoresHost (fun _ => rfl) fun s => ?_
  dsimp only [State.hostErased_code, State.hostErased_tree, State.hostErased_root]
  generalize writeCodes s.code ((treeCodes s.tree s.root).getD []) = code
  rfl

theorem bodyEsyms_ignoresHost : IgnoresHost bodyEsyms :=
  requireFlag_ignoresHost (fun _ => rfl) fun s => encodeRest_ignoresHost (s.io.remaining + 1) s

theorem bodyDsym_ignoresHost : IgnoresHost bodyDsym :=
  requireFlag_ignoresHost (fun _ => rfl) fun s =>
    (walkToLeaf_ignoresHost (s.bitsLeft + 1)).andThen
      (fun sym => (outByte_ignoresHost sym).andThen fun _ _ => rfl) s

end Sys2Proof.Machine

namespace Sys2Proof.Machine

/-! ### A host that drives the steps of `ENCODE` or `DECODE` one by one (70_reset_and_hazards.md R263) -/

open Sys2Proof.Safety

variable {d s t : State} {i : Instr} {xs : List (State → Body Unit)} {events : List HostEvent} {n : Nat}

/-! What no step of a session writes. -/

/-- The code of a fault, the results, and what the host will do. -/
def asidePart (s : State) : BitVec 4 × Count × Count × List HostEvent := (s.errCode, s.resA, s.resB, s.pending)

/-- A body that leaves these as they were. -/
abbrev LeavesAside (s : State) (r : Body Unit) : Prop := r.Leaves fun u => asidePart u = asidePart s

theorem bodyTbuild_leavesAside (s : State) : LeavesAside s (bodyTbuild s) := by
  refine requireFlag_leaves rfl fun _ => ?_
  generalize buildTree s.freq s.tree = b
  exact rfl

theorem bodyTcodes_leavesAside (s : State) : LeavesAside s (bodyTcodes s) := by
  refine requireFlag_leaves rfl fun _ => ?_
  generalize writeCodes s.code ((treeCodes s.tree s.root).getD []) = code
  exact rfl

theorem bodyTrecon_leavesAside (s : State) : LeavesAside s (bodyTrecon s) := by
  refine requireFlag_leaves rfl fun _ => ?_
  split
  · trivial
  · exact rfl

theorem bodyOf_leavesAside (hi : startsSession i = false) (s : State) : LeavesAside s (bodyOf i s) := by
  have hwriter {r : Body Unit} (h : r.Leaves fun u => writerErased u = writerErased s) :
      LeavesAside s r := h.mono fun _ => congrArg asidePart
  have hreader {r : Body Unit} (h : r.Leaves fun u => readerErased u = readerErased s) :
      LeavesAside s r := h.mono fun _ => congrArg asidePart
  have hcounts {r : Body Unit} (h : r.Leaves fun u => countsErased u = countsErased s) :
      LeavesAside s r := h.mono fun _ => congrArg asidePart
  cases i with
  | init | encode | decode => cases hi
  | nop => exact rfl
  | wbit b => exact hwriter (bodyWbit_keeps b s)
  | wcode sym => exact hwriter (bodyWcode_keeps sym s)
  | wflush => exact hwriter (bodyWflush_keeps s)
  | fsave => exact hwriter (bodyFsave_keeps writerErased_blind s)
  | csave => exact hwriter (bodyCsave_keeps writerErased_blind s)
  | esyms => exact hwriter (bodyEsyms_keeps s)
  | rbit => exact hreader (bodyRbit_keeps s)
  | wkrst => exact hreader (bodyWkrst_keeps s)
  | wkadv b => exact hreader (bodyWkadv_keeps b s)
  | dsym => exact hreader (bodyDsym_keeps s)
  | fadd sym => exact hcounts (bodyFadd_keeps sym s)
  | fadds => exact hcounts (bodyFadds_keeps s)
  | fload => exact hcounts (bodyFload_keeps s)
  | cload => exact hcounts (bodyCload_keeps s)
  | tbuild => exact bodyTbuild_leavesAside s
  | tcodes => exact bodyTcodes_leavesAside s
  | trecon => exact bodyTrecon_leavesAside s

/-! An event of the host for each step. -/

/-- The event has the engine do the step, wherever a state that differs in the host's side alone shows it done. -/
def Drives (e : HostEvent) (x : State → Body Unit) : Prop :=
  ∀ {d s t rest}, Good d → Running d → d.hostErased = s.hostErased → d.pending = e :: rest → x s = .done () t →
    ∃ u, step d = .next u ∧ u.hostErased = t.hostErased ∧ asidePart u = asidePart { d with pending := rest }

theorem drives_command (hi : startsSession i = false) (hx : IgnoresHost (bodyOf i)) :
    Drives (.command (encodeWord i)) (bodyOf i) := by
  intro d s t rest hgood hs halike hp ht
  obtain ⟨u, hu, hut⟩ := hx.done (s := { d with pending := rest }) halike ht
  have hgood' : Good { d with pending := rest } := ⟨{ hgood.regs with }, treeInv_congr hgood.tree rfl⟩
  have hinit : i ≠ .init := by rintro rfl; cases hi
  refine ⟨u, ?_, hut, (bodyOf_leavesAside hi _).of_done hu⟩
  rw [step_command hp, takeWord_of_decode (decodeWord_eq_some_iff.mpr rfl),
    exec_eq_runCommand hinit (pathsBroken_of_good hgood')]
  exact runCommand_done (s := { d with pending := rest }) hs hu

theorem step_rewindInput {rest : List HostEvent} (hp : s.pending = .rewindInput :: rest) :
    step s = .next { s with pending := rest, io := { s.io with inPos := 0 } } := by
  rw [step, hostStep, hp]

/-- The rewind of the host differs from that of the engine in the record of the calls (log entry 14). -/
theorem drives_rewindInput : Drives .rewindInput rewindInput := by
  intro d s t rest _ _ halike hp ht
  cases ht
  exact ⟨_, step_rewindInput hp, congrArg (fun s : State => { s with io := { s.io with inPos := 0 } }) halike, rfl⟩

theorem drives_fadds : Drives (.command 0x3100) bodyFadds := drives_command (i := .fadds) rfl bodyFadds_ignoresHost
theorem drives_fsave : Drives (.command 0x3200) bodyFsave := drives_command (i := .fsave) rfl bodyFsave_ignoresHost
theorem drives_fload : Drives (.command 0x3300) bodyFload := drives_command (i := .fload) rfl bodyFload_ignoresHost
theorem drives_tbuild : Drives (.command 0x4000) bodyTbuild :=
  drives_command (i := .tbuild) rfl bodyTbuild_ignoresHost
theorem drives_tcodes : Drives (.command 0x4100) bodyTcodes :=
  drives_command (i := .tcodes) rfl bodyTcodes_ignoresHost
theorem drives_csave : Drives (.command 0x6000) bodyCsave := drives_command (i := .csave) rfl bodyCsave_ignoresHost
theorem drives_cload : Drives (.command 0x6100) bodyCload := drives_command (i := .cload) rfl bodyCload_ignoresHost
theorem drives_esyms : Drives (.command 0x6200) bodyEsyms := drives_command (i := .esyms) rfl bodyEsyms_ignoresHost
theorem drives_dsym : Drives (.command 0x6300) bodyDsym := drives_command (i := .dsym) rfl bodyDsym_ignoresHost
theorem drives_wflush : Drives (.command 0x1200) bodyWflush := drives_command (i := .wflush) rfl flush_ignoresHost

/-! The run on such events. -/

theorem run_succ (M : Host.Core) {a b : M.State} (h : M.step a = .next b) (n : Nat) :
    M.run (n + 1) a = M.run n b := by
  rw [Host.Core.run, h]

theorem core_run_succ (hs : step s = .next t) (n : Nat) : core.run (n + 1) s = core.run n t := run_succ core hs n

theorem good_of_step (hgood : Good s) (hs : step s = .next t) : Good t := by
  obtain ⟨u, hu, htree⟩ := step_good hgood
  rw [hs] at hu
  cases hu
  exact ⟨step_keepsRegInv hgood.regs hs, htree⟩

/-- Events that drive steps one by one lead where the steps lead in a row. -/
theorem run_of_drives (hd : List.Forall₂ Drives events xs) (hgood : Good d) (hs : Running d)
    (halike : d.hostErased = s.hostErased) (hp : d.pending = events) (hall : doAll xs s = .done () t) :
    ∃ u, core.run events.length d = .next u ∧ u.hostErased = t.hostErased ∧ u.resA = d.resA ∧ u.resB = d.resB := by
  induction hd generalizing d s with
  | nil =>
    cases hall
    exact ⟨d, rfl, halike, rfl, rfl⟩
  | cons hex _ ih =>
    obtain ⟨_, v, hx, hrest⟩ := andThen_eq_done.mp hall
    obtain ⟨u, hu, huv, haside⟩ := hex hgood hs halike hp hx
    obtain ⟨herr, hA, hB, hpu⟩ : u.errCode = d.errCode ∧ u.resA = d.resA ∧ u.resB = d.resB ∧ _ := by
      simpa only [asidePart, Prod.mk.injEq] using haside
    obtain ⟨w, hrun, hw, hwA, hwB⟩ := ih (good_of_step hgood hu) (herr.trans hs) huv hpu hrest
    exact ⟨w, (core_run_succ hu _).trans hrun, hw, hwA.trans hA, hwB.trans hB⟩

/-- The state after `INIT` and the host's rewind. -/
def State.opened (s : State) (events : List HostEvent) : State :=
  { s.faultReturn with pending := events, io := { s.io with inPos := 0 } }

theorem good_opened (s : State) (events : List HostEvent) : Good (s.opened events) :=
  ⟨{ regInv_resetEngine (s := s.opened events) (Nat.zero_le _) with }, treeInv_of_invalid rfl rfl⟩

theorem run_opened (s : State) (events : List HostEvent) (n : Nat) :
    core.run (n + 2) { s with pending := .command 0x0100 :: .rewindInput :: events } =
      core.run n (s.opened events) := by
  have hinit : step { s with pending := .command 0x0100 :: .rewindInput :: events } =
      .next { s.faultReturn with pending := .rewindInput :: events } :=
    (step_command rfl).trans (takeWord_init _)
  rw [core_run_succ hinit, core_run_succ rfl]
  rfl

/-- `INIT`, a rewind and the events that drive the steps lead where `ENCODE` or `DECODE` is led by `SessionInit()`, its
own rewind and these steps; no result is written. -/
theorem run_session (hs : Running s) (hd : List.Forall₂ Drives events xs)
    (hall : doAll (rewindInput :: xs) s.sessionInit = .done () t) (hn : n = events.length + 2) :
    ∃ u, core.run n { s with pending := .command 0x0100 :: .rewindInput :: events } = .next u ∧
      u.hostErased = t.hostErased ∧ u.resA = 0 ∧ u.resB = 0 := by
  rw [doAll_rewind] at hall
  have halike : (s.opened events).hostErased = (s.counted (Vector.replicate _ 0) 0 s.io.inRewind).hostErased := by
    have hcode : (0 : BitVec 4) = s.errCode := Eq.symm hs
    exact congrArg (fun c => { (s.opened events).hostErased with errCode := c }) hcode
  rw [hn, run_opened]
  exact run_of_drives hd (good_opened s events) rfl halike rfl hall

end Sys2Proof.Machine

namespace Sys2Proof.Proofs

open Sys2Proof.Machine Sys2Proof.Safety

/-- Settles O51: `ENCODE` does the same steps in a row, and no step looks at what differs, the record of the rewinds. -/
theorem hostDrivenEncodeAgreesWithEncode : Obligations.HostDrivenEncodeAgreesWithEncode := by
  intro s hs hr hw hlen
  obtain ⟨_, _, _, t, _, -, hbody, -⟩ := bodyEncode_archive hr hw rfl hlen
  obtain ⟨_, t', hall, hend⟩ := andThen_eq_done.mp hbody
  have hdrives : List.Forall₂ Drives
      [.command 0x3100, .command 0x4000, .command 0x4100, .command 0x6000, .command 0x3200, .rewindInput,
        .command 0x6200, .command 0x1200]
      [bodyFadds, bodyTbuild, bodyTcodes, bodyCsave, bodyFsave, rewindInput, bodyEsyms, bodyWflush] :=
    .cons drives_fadds <| .cons drives_tbuild <| .cons drives_tcodes <| .cons drives_csave <| .cons drives_fsave <|
      .cons drives_rewindInput <| .cons drives_esyms <| .cons drives_wflush .nil
  obtain ⟨u, hrun, halike, hA, hB⟩ := run_session hs hdrives hall rfl
  refine ⟨_, u, runCommand_done hs (hbody.trans hend.symm), hrun, congrArg (·.io.outData) halike,
    congrArg (·.io.inPos) halike, congrArg (·.freq) halike, congrArg (·.tree) halike, congrArg (·.code) halike,
    congrArg (·.fl) halike, congrArg (·.tv) halike, congrArg (·.cv) halike, congrArg (·.symcnt) halike,
    congrArg (·.emit) halike, congrArg (·.wbytes) halike, congrArg (·.rbytes) halike, hA, hB⟩

end Sys2Proof.Proofs

namespace Sys2Proof.Machine

/-! ### The loop of `DECODE` is one `DSYM` for each symbol (44_archiver.md R198) -/

open Sys2Proof.Safety

variable {s t u : State} {xs more : List Byte} {n : Nat}

theorem doAll_append (xs ys : List (State → Body Unit)) (s : State) :
    doAll (xs ++ ys) s = (doAll xs s).andThen fun _ s => doAll ys s := by
  induction xs generalizing s with
  | nil => rfl
  | cons x xs ih =>
    rw [List.cons_append, doAll, doAll, andThen_assoc]
    exact congrArg _ (funext fun _ => funext ih)

theorem bodyDsym_counts (h : bodyDsym s = .done () u) : u.symcnt = s.symcnt ∧ u.emit = s.emit + 1 := by
  have hframe := (bodyDsym_keeps s).of_done h
  refine ⟨congrArg (·.symcnt) hframe, ?_⟩
  cases htv : s.tv with
  | false => rw [bodyDsym, htv] at h; cases h
  | true =>
    rw [bodyDsym, requireFlag_of htv] at h
    obtain ⟨sym, a, hwalk, h⟩ := andThen_eq_done.mp h
    obtain ⟨_, b, hout, h⟩ := andThen_eq_done.mp h
    cases h
    obtain rfl := outByte_eq_done hout
    have hframe := (walkToLeaf_keepsBitsErased _ s).of_done hwalk
    exact congrArg (·.emit + 1) hframe

/-- The loop does as many rounds as `EMIT` is behind `SYMCNT`. -/
theorem decodeLoop_eq_doAll (h : decodeLoop n s = .done () t) {k : Nat} (hk : (s.symcnt - s.emit).toNat = k) :
    doAll (List.replicate k bodyDsym) s = .done () t := by
  induction n generalizing s k with
  | zero => cases h
  | succ n ih =>
    rw [decodeLoop] at h
    by_cases hend : s.emit = s.symcnt
    · rw [if_pos hend] at h
      obtain rfl : k = 0 := by rw [← hk, hend, BitVec.sub_self]; rfl
      exact h
    · rw [if_neg hend] at h
      obtain ⟨_, u, hdsym, hloop⟩ := andThen_eq_done.mp h
      obtain ⟨hsymcnt, hemit⟩ := bodyDsym_counts hdsym
      obtain ⟨k, rfl⟩ : ∃ k', k = k' + 1 := Nat.exists_eq_succ_of_ne_zero (by bv_omega)
      have hfewer : (u.symcnt - u.emit).toNat = k := by
        rw [hsymcnt, hemit]
        bv_omega
      rw [List.replicate_succ, doAll_next hdsym]
      exact ih hloop hfewer

/-- One word for each round. -/
theorem drives_dsyms (n : Nat) :
    List.Forall₂ Drives (List.replicate n (.command 0x6300)) (List.replicate n bodyDsym) := by
  induction n with
  | zero => exact .nil
  | succ n ih => exact .cons drives_dsym ih

/-- The header leaves `SYMCNT` symbols to decode, none of them counted yet. -/
theorem decode_beforeLoop (hr : ReadsSucceed s) (hx : s.io.inData = headerOf xs ++ more) :
    ∃ d, doAll [rewindInput, bodyCload, bodyFload, bodyTbuild, bodyTcodes] s.sessionInit = .done () d ∧
      d.symcnt = BitVec.ofNat 64 xs.length ∧ d.emit = 0 := by
  have hheader : s.io.inData = fieldBytes (BitVec.ofNat 64 xs.length) ++ (tableBytes (countsOf xs) ++ more) := by
    rw [hx, headerOf, List.append_assoc]
  have hload := doAll_cload_fload [bodyTbuild, bodyTcodes] (s := s.counted (Vector.replicate _ 0) 0 s.io.inRewind)
    hr rfl hheader
  obtain ⟨-, tree, w, -, -, hbuild⟩ := doAll_tbuild_tcodes []
    (s := s.counted (countsOf xs) (BitVec.ofNat 64 xs.length) (tookBytes s.io.inRewind 2056)) rfl
  exact ⟨_, (doAll_rewind _ s).trans (hload.trans hbuild), rfl, rfl⟩

end Sys2Proof.Machine

namespace Sys2Proof.Proofs

open Sys2Proof.Machine Sys2Proof.Safety

/-- Settles O52: the loop of `DECODE` is one `DSYM` for each byte of `xs`, so `DECODE` does the same steps in a row. -/
theorem hostDrivenDecodeAgreesWithDecode : Obligations.HostDrivenDecodeAgreesWithDecode := by
  intro s xs payload more hs hr hw hlen hpayload hx
  obtain ⟨_, _, _, t, -, hbody, -⟩ := bodyDecode_archive hr hw hlen hpayload hx
  obtain ⟨d, hd, hsymcnt, hemit⟩ := decode_beforeLoop hr (hx.trans (List.append_assoc ..))
  obtain ⟨_, t', hall, hend⟩ := andThen_eq_done.mp hbody
  have hloop : decodeLoop (d.bitsLeft + 1) d = .done () t' := by
    have hlast := doAll_append [rewindInput, bodyCload, bodyFload, bodyTbuild, bodyTcodes]
      [fun s => decodeLoop (s.bitsLeft + 1) s] s.sessionInit
    rw [hd, andThen_done] at hlast
    obtain ⟨_, v, hv, hnil⟩ := andThen_eq_done.mp (hlast.symm.trans hall)
    cases hnil
    exact hv
  have hrounds : (d.symcnt - d.emit).toNat = xs.length := by
    rw [hsymcnt, hemit, sub_zero, BitVec.toNat_ofNat, Nat.mod_eq_of_lt hlen]
  have hsteps : doAll (rewindInput :: ([bodyCload, bodyFload, bodyTbuild, bodyTcodes] ++
      List.replicate xs.length bodyDsym)) s.sessionInit = .done () t' := by
    rw [← List.cons_append, doAll_append, hd, andThen_done]
    exact decodeLoop_eq_doAll hloop hrounds
  have hdrives : List.Forall₂ Drives
      ([.command 0x6100, .command 0x3300, .command 0x4000, .command 0x4100] ++
        List.replicate xs.length (.command 0x6300))
      ([bodyCload, bodyFload, bodyTbuild, bodyTcodes] ++ List.replicate xs.length bodyDsym) :=
    .cons drives_cload <| .cons drives_fload <| .cons drives_tbuild <| .cons drives_tcodes <| drives_dsyms _
  obtain ⟨u, hrun, halike, hA, hB⟩ := run_session hs hdrives hsteps (n := 6 + xs.length) (by simp; omega)
  exact ⟨_, u, runCommand_done hs (hbody.trans hend.symm), hrun, congrArg (·.io.outData) halike,
    congrArg (·.io.inPos) halike, congrArg (·.freq) halike, congrArg (·.tree) halike, congrArg (·.code) halike,
    congrArg (·.fl) halike, congrArg (·.tv) halike, congrArg (·.cv) halike, congrArg (·.symcnt) halike,
    congrArg (·.emit) halike, congrArg (·.wbytes) halike, congrArg (·.rbytes) halike, congrArg (·.cur) halike,
    congrArg (·.rsr) halike, congrArg (·.rcnt) halike, hA, hB⟩

end Sys2Proof.Proofs
